-- ==== Sys2Proof/Word.lean ====
section
/-! DEFINITION. The word types of the machine (00_scope.md R7; 10_state.md R20, R24, R29). -/

namespace Sys2Proof

/-- A byte, 8 bits (R7). -/
abbrev Byte := BitVec 8

/-- One lane of a vector: 64 bits holding a binary64 value (R111). -/
abbrev Lane := BitVec 64

/-- A vector register, `MAXVL` = 512 bits (R20, D1). -/
abbrev VReg := BitVec 512

/-- An opmask register, `KW` = 64 bits (R24, D5). -/
abbrev KReg := BitVec 64

/-- An address, a program counter or a general register, 64 bits; in `M32` its low 32 bits
(R29, R31, R50). -/
abbrev Addr := BitVec 64

end Sys2Proof
end

