-- ==== Sys2Proof/Config.lean ====
section
/-! DEFINITION. What the machine is configured with: the execution modes (00_scope.md R3) and the
free values of the spec's draws (93_implementation_defined.md U6, U7; 20_memory.md R58). -/

namespace Sys2Proof

/-- The parameter `MODE` (R3, R6, D2). -/
inductive Mode
  /-- 64-bit mode. -/
  | m64
  /-- 32-bit protected mode, flat address space. -/
  | m32
  /-- Any other mode: real-address mode (the mode at reset, R38), virtual-8086 mode, a 16-bit code
  segment. The model refuses them all (R5, D2). -/
  | other
deriving DecidableEq, Repr

/-- U6 (R129): the draw that settles which signalled flags stand in `MXCSR.flags` after #XM. Drawn by
its number. A free value: nothing constrains it. -/
opaque Config.trapFlags : Nat → BitVec 6

/-- U7 (R130): for a draw's number and a lane, whether embedded rounding flushes that lane's tiny result
when `UM = 0` and `FTZ = 1`. A free value. -/
opaque Config.erTinyFlush : Nat → Nat → Bool

/-- R58 with `FAULT_SUPPRESSION` true: when `MEM_ACCESS` answers a fault for several active lanes, which
of them the step reports. A free value (the spec states none). -/
opaque Config.faultingLane : Nat → Nat

end Sys2Proof
end

