-- ==== Sys2Proof/Syntax.lean ====
section
/-! DEFINITION. The instruction as syntax: one constructor per row of spec/opcode_table.json, in the
table's order, over the fields that rules R73 to R91 of 30_encoding.md name. Fields that the encoding
stores inverted (`R̄`, `v̄v̄v̄v̄`, …) are held after inversion, as rules R74, R75 and R80 name them. Bits that
an encoding carries and the instruction ignores (`W` of REX and VEX, an unused `X` or `B`) are held too,
so that no bit of an encoding is lost (log 25). -/

namespace Sys2Proof

/-- A rounding mode; encoded by `MXCSR.RC` and by `EVEX.RC` (10_state.md R27). -/
inductive RoundMode
  /-- To nearest, ties to even. -/
  | rn
  /-- Toward minus infinity. -/
  | rd
  /-- Toward plus infinity. -/
  | ru
  /-- Toward zero. -/
  | rz
deriving DecidableEq, Repr

/-- The six forms of the instruction (00_scope.md R2), numbered as the spec numbers them. -/
inductive Form
  | f1 | f2 | f3 | f4 | f5 | f6
deriving DecidableEq, Repr

/-- The REX prefix `0100WRXB` (R73). -/
structure Rex where
  w : Bool
  r : Bool
  x : Bool
  b : Bool
deriving DecidableEq, Repr

/-- The variable fields of the two-byte VEX prefix (R74); `L` and `pp` are fixed by the row. -/
structure Vex2 where
  r : Bool
  vvvv : BitVec 4
deriving DecidableEq, Repr

/-- The variable fields of the three-byte VEX prefix (R75). -/
structure Vex3 where
  r : Bool
  x : Bool
  b : Bool
  w : Bool
  vvvv : BitVec 4
deriving DecidableEq, Repr

/-- The variable fields of the EVEX prefix (R78, R82): `rp` is `R'`, `vp` is `V'`; `b` here is the
register-extension bit `B`. The broadcast bit `EVEX.b` and `L'L` are fixed by the row. -/
structure Evex where
  r : Bool
  x : Bool
  b : Bool
  rp : Bool
  vp : Bool
  vvvv : BitVec 4
  z : Bool
  aaa : BitVec 3
deriving DecidableEq, Repr

/-- The ModRM byte (R85). -/
structure ModRM where
  mod : BitVec 2
  reg : BitVec 3
  rm : BitVec 3
deriving DecidableEq, Repr

/-- The SIB byte (R86). -/
structure Sib where
  scale : BitVec 2
  index : BitVec 3
  base : BitVec 3
deriving DecidableEq, Repr

/-- The displacement (R90): absent, one byte, or four bytes. -/
inductive Disp
  | none
  | d8 (v : BitVec 8)
  | d32 (v : BitVec 32)
deriving DecidableEq, Repr

/-- What follows the opcode byte: ModRM, then SIB and a displacement where present (R71). -/
structure Tail where
  modrm : ModRM
  sib : Option Sib
  disp : Disp
deriving DecidableEq, Repr

/-- The instruction: one constructor per row of spec/opcode_table.json, in its order. -/
inductive Instr
  /-- Row 1: `SUBPD xmm1, xmm2/m128` without REX (form 1, R140). -/
  | subpd (t : Tail)
  /-- Row 2: `SUBPD xmm1, xmm2/m128` with REX (form 1, R140; `M64` only). -/
  | subpdRex (p : Rex) (t : Tail)
  /-- Row 3: `VSUBPD xmm1, xmm2, xmm3/m128`, two-byte VEX (form 2, R150). -/
  | vsubpdXmmVex2 (p : Vex2) (t : Tail)
  /-- Row 4: `VSUBPD xmm1, xmm2, xmm3/m128`, three-byte VEX (form 2, R150). -/
  | vsubpdXmmVex3 (p : Vex3) (t : Tail)
  /-- Row 5: `VSUBPD ymm1, ymm2, ymm3/m256`, two-byte VEX (form 3, R151). -/
  | vsubpdYmmVex2 (p : Vex2) (t : Tail)
  /-- Row 6: `VSUBPD ymm1, ymm2, ymm3/m256`, three-byte VEX (form 3, R151). -/
  | vsubpdYmmVex3 (p : Vex3) (t : Tail)
  /-- Row 7: `VSUBPD xmm1 {k1}{z}, xmm2, xmm3/m128`, `b = 0` (form 4, R164). -/
  | vsubpdXmmEvex (p : Evex) (t : Tail)
  /-- Row 8: `VSUBPD xmm1 {k1}{z}, xmm2, m64bcst`, `mod` = 00 or 01 (form 4, R164). -/
  | vsubpdXmmEvexBcst (p : Evex) (t : Tail)
  /-- Row 9: `VSUBPD xmm1 {k1}{z}, xmm2, m64bcst`, `mod` = 10 (form 4, R164). -/
  | vsubpdXmmEvexBcstD32 (p : Evex) (t : Tail)
  /-- Row 10: `VSUBPD ymm1 {k1}{z}, ymm2, ymm3/m256`, `b = 0` (form 5, R165). -/
  | vsubpdYmmEvex (p : Evex) (t : Tail)
  /-- Row 11: `VSUBPD ymm1 {k1}{z}, ymm2, m64bcst`, `mod` = 00 or 01 (form 5, R165). -/
  | vsubpdYmmEvexBcst (p : Evex) (t : Tail)
  /-- Row 12: `VSUBPD ymm1 {k1}{z}, ymm2, m64bcst`, `mod` = 10 (form 5, R165). -/
  | vsubpdYmmEvexBcstD32 (p : Evex) (t : Tail)
  /-- Row 13: `VSUBPD zmm1 {k1}{z}, zmm2, zmm3/m512`, `b = 0` (form 6, R166). -/
  | vsubpdZmmEvex (p : Evex) (t : Tail)
  /-- Row 14: `VSUBPD zmm1 {k1}{z}, zmm2, m64bcst`, `mod` = 00 or 01 (form 6, R166). -/
  | vsubpdZmmEvexBcst (p : Evex) (t : Tail)
  /-- Row 15: `VSUBPD zmm1 {k1}{z}, zmm2, m64bcst`, `mod` = 10 (form 6, R166). -/
  | vsubpdZmmEvexBcstD32 (p : Evex) (t : Tail)
  /-- Row 16: `VSUBPD zmm1 {k1}{z}, zmm2, zmm3 {er}` with `EVEX.RC` (form 6, R167). -/
  | vsubpdZmmEvexEr (p : Evex) (rc : RoundMode) (t : Tail)
deriving DecidableEq, Repr

end Sys2Proof
end

