-- ==== Sys2Proof/WellFormed.lean ====
section
/-! DEFINITION. When an instruction, as syntax, is one that some bytes encode in a mode
(30_encoding.md R73 to R91; the `constraints` of spec/opcode_table.json). -/

namespace Sys2Proof

/-- `ModRM:r/m` is a register (R85). -/
def ModRM.isReg (m : ModRM) : Bool := m.mod == 3

/-- A SIB byte follows (R86): `mod` is not `11` and `rm = 100`. -/
def ModRM.hasSib (m : ModRM) : Bool := m.mod != 3 && m.rm == 4

/-- The number of displacement bytes, 0, 1 or 4 (R87, R88). -/
def dispSize (m : ModRM) (sib : Option Sib) : Nat :=
  if m.mod == 1 then 1
  else if m.mod == 2 then 4
  else if m.mod == 0 then
    match sib with
    | some sb => if sb.base == 5 then 4 else 0
    | none => if m.rm == 5 then 4 else 0
  else 0

/-- The number of bytes a displacement takes. -/
def Disp.size : Disp → Nat
  | .none => 0
  | .d8 _ => 1
  | .d32 _ => 4

/-- The parts after the opcode byte agree with ModRM and SIB (R86 to R88). -/
def Tail.wf (t : Tail) : Bool :=
  (t.sib.isSome == t.modrm.hasSib) && (t.disp.size == dispSize t.modrm t.sib)

/-- The tail's memory operand has `mod` = 00 or 01 (the first broadcast row of a form). -/
def Tail.isBcstShort (t : Tail) : Bool := t.modrm.mod == 0 || t.modrm.mod == 1

/-- `z = 1` needs a writemask: `z = 1` with `aaa = 000` is a reserved combination (R82). -/
def Evex.maskOk (p : Evex) : Bool := !p.z || p.aaa != 0

/-- Every extension bit of a two-byte VEX prefix names a register below 8 (R84). -/
def Vex2.m32Ok (p : Vex2) : Bool := !p.r && !p.vvvv.getLsbD 3

/-- Every extension bit of a three-byte VEX prefix names a register below 8 (R84). -/
def Vex3.m32Ok (p : Vex3) : Bool := !p.r && !p.x && !p.b && !p.vvvv.getLsbD 3

/-- Every extension bit of an EVEX prefix names a register below 8 (R84). -/
def Evex.m32Ok (p : Evex) : Bool :=
  !p.r && !p.x && !p.b && !p.rp && !p.vp && !p.vvvv.getLsbD 3

/-- The tail of an instruction. -/
def Instr.tail : Instr → Tail
  | .subpd t => t
  | .subpdRex _ t => t
  | .vsubpdXmmVex2 _ t => t
  | .vsubpdXmmVex3 _ t => t
  | .vsubpdYmmVex2 _ t => t
  | .vsubpdYmmVex3 _ t => t
  | .vsubpdXmmEvex _ t => t
  | .vsubpdXmmEvexBcst _ t => t
  | .vsubpdXmmEvexBcstD32 _ t => t
  | .vsubpdYmmEvex _ t => t
  | .vsubpdYmmEvexBcst _ t => t
  | .vsubpdYmmEvexBcstD32 _ t => t
  | .vsubpdZmmEvex _ t => t
  | .vsubpdZmmEvexBcst _ t => t
  | .vsubpdZmmEvexBcstD32 _ t => t
  | .vsubpdZmmEvexEr _ _ t => t

/-- The row's own conditions on `mod`, `z` and `aaa` (R81, R82; the table's masks). -/
def Instr.rowOk : Instr → Bool
  | .subpd _ => true
  | .subpdRex _ _ => true
  | .vsubpdXmmVex2 _ _ => true
  | .vsubpdXmmVex3 _ _ => true
  | .vsubpdYmmVex2 _ _ => true
  | .vsubpdYmmVex3 _ _ => true
  | .vsubpdXmmEvex p _ => p.maskOk
  | .vsubpdXmmEvexBcst p t => p.maskOk && t.isBcstShort
  | .vsubpdXmmEvexBcstD32 p t => p.maskOk && t.modrm.mod == 2
  | .vsubpdYmmEvex p _ => p.maskOk
  | .vsubpdYmmEvexBcst p t => p.maskOk && t.isBcstShort
  | .vsubpdYmmEvexBcstD32 p t => p.maskOk && t.modrm.mod == 2
  | .vsubpdZmmEvex p _ => p.maskOk
  | .vsubpdZmmEvexBcst p t => p.maskOk && t.isBcstShort
  | .vsubpdZmmEvexBcstD32 p t => p.maskOk && t.modrm.mod == 2
  | .vsubpdZmmEvexEr p _ t => p.maskOk && t.modrm.isReg

/-- The `M32` conditions (R84): no REX, and every extension bit names a register below 8. -/
def Instr.m32Ok : Instr → Bool
  | .subpd _ => true
  | .subpdRex _ _ => false
  | .vsubpdXmmVex2 p _ => p.m32Ok
  | .vsubpdXmmVex3 p _ => p.m32Ok
  | .vsubpdYmmVex2 p _ => p.m32Ok
  | .vsubpdYmmVex3 p _ => p.m32Ok
  | .vsubpdXmmEvex p _ => p.m32Ok
  | .vsubpdXmmEvexBcst p _ => p.m32Ok
  | .vsubpdXmmEvexBcstD32 p _ => p.m32Ok
  | .vsubpdYmmEvex p _ => p.m32Ok
  | .vsubpdYmmEvexBcst p _ => p.m32Ok
  | .vsubpdYmmEvexBcstD32 p _ => p.m32Ok
  | .vsubpdZmmEvex p _ => p.m32Ok
  | .vsubpdZmmEvexBcst p _ => p.m32Ok
  | .vsubpdZmmEvexBcstD32 p _ => p.m32Ok
  | .vsubpdZmmEvexEr p _ _ => p.m32Ok

/-- The instruction is one that the encoding admits in the mode (R71 to R91, R84). -/
def Instr.wellFormed (m : Mode) (i : Instr) : Bool :=
  i.tail.wf && i.rowOk &&
    match m with
    | .m64 => true
    | .m32 => i.m32Ok
    | .other => false

end Sys2Proof
end

