-- ==== Sys2Proof/Decode.lean ====
section
/-! DEFINITION. The decoder of 30_encoding.md R96, total on any bytes and rejecting by name, and after it
the encoder, written from the same rules (R71 to R91), and the length of an instruction (R93). -/

namespace Sys2Proof

/-- Why the decoder gives some bytes no meaning ("refused" in R96). Each is safe: the model asserts
nothing about the bytes. -/
inductive Reject
  /-- The mode is neither `M64` nor `M32` (R5, D2). -/
  | modeNotModelled
  /-- The bytes are another instruction: SUBPS, SUBSS, SUBSD, another map, `pp` or opcode (R98, R99). -/
  | otherInstruction
  /-- A prefix outside the admitted set: a segment override, `67`, a repeated `66`, a REX that does not
  stand just before `0F` (R72, D16). -/
  | prefixNotAdmitted
  /-- EVEX with `P0[3:2]` not `00`, `P1[2]` not `1`, or `W = 0` (R83, R99). -/
  | evexReserved
  /-- In `M32`, `C4`, `C5` or `62` whose next byte has bits 7:6 other than `11`: LES, LDS, BOUND (R84). -/
  | m32OtherOpcode
  /-- In `M32`, an extension bit that would name a register above 7 (R84, D28). -/
  | m32Extension
  /-- The bytes end before the instruction does: the fetch gives at most 15 bytes, and none past the top
  of the address space (R94, R30, D35; log 16). -/
  | bytesRunOut
deriving DecidableEq, Repr

/-- The three answers of the decoder (R96). -/
inductive Decoded
  /-- A form with its fields. -/
  | instr (i : Instr)
  /-- An invalid encoding that raises #UD (R184). -/
  | ud
  /-- Refused, by name. -/
  | reject (r : Reject)
deriving DecidableEq, Repr

/-! ## Fields -/

/-- The rounding mode of a two-bit rounding control (R27). -/
def RoundMode.ofBits (v : BitVec 2) : RoundMode :=
  if v == 0 then .rn else if v == 1 then .rd else if v == 2 then .ru else .rz

/-- The two-bit rounding control of a rounding mode (R27). -/
def RoundMode.bits : RoundMode → BitVec 2
  | .rn => 0
  | .rd => 1
  | .ru => 2
  | .rz => 3

/-- ModRM from its byte (R85). -/
def ModRM.ofByte (v : Byte) : ModRM :=
  { mod := v.extractLsb' 6 2, reg := v.extractLsb' 3 3, rm := v.extractLsb' 0 3 }

/-- SIB from its byte (R86). -/
def Sib.ofByte (v : Byte) : Sib :=
  { scale := v.extractLsb' 6 2, index := v.extractLsb' 3 3, base := v.extractLsb' 0 3 }

/-- The REX fields of a byte `40` to `4F` (R73). -/
def Rex.ofByte (v : Byte) : Rex :=
  { w := v.getLsbD 3, r := v.getLsbD 2, x := v.getLsbD 1, b := v.getLsbD 0 }

/-- The fields of byte 1 of a two-byte VEX prefix (R74), un-inverted. -/
def Vex2.ofByte (v : Byte) : Vex2 :=
  { r := !v.getLsbD 7, vvvv := ~~~(v.extractLsb' 3 4) }

/-- The fields of bytes 1 and 2 of a three-byte VEX prefix (R75), un-inverted. -/
def Vex3.ofBytes (v1 v2 : Byte) : Vex3 :=
  { r := !v1.getLsbD 7, x := !v1.getLsbD 6, b := !v1.getLsbD 5,
    w := v2.getLsbD 7, vvvv := ~~~(v2.extractLsb' 3 4) }

/-- The fields of `P0 P1 P2` of an EVEX prefix (R78), un-inverted. -/
def Evex.ofBytes (p0 p1 p2 : Byte) : Evex :=
  { r := !p0.getLsbD 7, x := !p0.getLsbD 6, b := !p0.getLsbD 5, rp := !p0.getLsbD 4,
    vp := !p2.getLsbD 3, vvvv := ~~~(p1.extractLsb' 3 4),
    z := p2.getLsbD 7, aaa := p2.extractLsb' 0 3 }

/-! ## ModRM, SIB, displacement -/

/-- The displacement of the given size from the bytes that follow, least significant byte first
(R51, R90). -/
def parseDisp (size : Nat) (bs : List Byte) : Option Disp :=
  if size == 0 then some .none
  else if size == 1 then
    match bs with
    | b0 :: _ => some (.d8 b0)
    | _ => none
  else
    match bs with
    | b0 :: b1 :: b2 :: b3 :: _ => some (.d32 (b3 ++ b2 ++ b1 ++ b0))
    | _ => none

/-- ModRM, SIB and displacement (R85 to R90); `none` when the bytes run out. -/
def parseTail (bs : List Byte) : Option Tail :=
  match bs with
  | [] => none
  | mb :: rest =>
    let m := ModRM.ofByte mb
    if m.hasSib then
      match rest with
      | [] => none
      | sb :: rest' =>
        let sib := some (Sib.ofByte sb)
        (parseDisp (dispSize m sib) rest').map fun d => { modrm := m, sib := sib, disp := d }
    else
      (parseDisp (dispSize m none) rest).map fun d => { modrm := m, sib := none, disp := d }

/-! ## The decoder -/

/-- The legacy prefix bytes of R72. -/
def isLegacyPrefix (v : Byte) : Bool :=
  v == 0x66 || v == 0xF2 || v == 0xF3 || v == 0xF0 || v == 0x2E || v == 0x36 || v == 0x3E ||
    v == 0x26 || v == 0x64 || v == 0x65 || v == 0x67

/-- R96 step 2b, after the byte `0F`: `ps` are the legacy prefixes read, `rex` the REX prefix if any. -/
def decodeLegacy (ps : List Byte) (rex : Option Rex) (bs : List Byte) : Decoded :=
  match bs with
  | [] => .reject .bytesRunOut
  | op :: rest =>
    if op != 0x5C then .reject .otherInstruction
    else if ps.contains 0xF2 || ps.contains 0xF3 || !ps.contains 0x66 then .reject .otherInstruction
    else if ps != [0x66] then .reject .prefixNotAdmitted
    else
      match parseTail rest with
      | none => .reject .bytesRunOut
      | some t =>
        match rex with
        | none => .instr (.subpd t)
        | some p => .instr (.subpdRex p t)

/-- The prefix rule of VEX and EVEX (R96 steps 2c and 2d): `66`, `F2` or `F3` before them is #UD, any
other prefix is refused; `none` when no prefix was read. -/
def vexPrefixCheck (ps : List Byte) : Option Decoded :=
  if ps.contains 0x66 || ps.contains 0xF2 || ps.contains 0xF3 then some .ud
  else if ps != [] then some (.reject .prefixNotAdmitted)
  else none

/-- The end of R96 steps 3 to 5 for a VEX form. -/
def vexRow (m : Mode) (m32Ok : Bool) (row : Tail → Instr) (bs : List Byte) : Decoded :=
  match parseTail bs with
  | none => .reject .bytesRunOut
  | some t => if m == .m32 && !m32Ok then .reject .m32Extension else .instr (row t)

/-- Two-byte VEX, after `C5` (R74, R76). -/
def decodeVex2 (m : Mode) (bs : List Byte) : Decoded :=
  match bs with
  | v1 :: op :: rest =>
    if v1.extractLsb' 0 2 != 1 || op != 0x5C then .reject .otherInstruction
    else
      let p := Vex2.ofByte v1
      vexRow m p.m32Ok (if v1.getLsbD 2 then .vsubpdYmmVex2 p else .vsubpdXmmVex2 p) rest
  | _ => .reject .bytesRunOut

/-- Three-byte VEX, after `C4` (R75, R76). -/
def decodeVex3 (m : Mode) (bs : List Byte) : Decoded :=
  match bs with
  | v1 :: v2 :: op :: rest =>
    if v1.extractLsb' 0 5 != 1 || v2.extractLsb' 0 2 != 1 || op != 0x5C then
      .reject .otherInstruction
    else
      let p := Vex3.ofBytes v1 v2
      vexRow m p.m32Ok (if v2.getLsbD 2 then .vsubpdYmmVex3 p else .vsubpdXmmVex3 p) rest
  | _ => .reject .bytesRunOut

/-- The row that `EVEX.b`, `L'L` and `mod` select (R81); `ll` is not `11` unless `b = 1` with a
register source. -/
def evexInstr (p : Evex) (b : Bool) (ll : BitVec 2) (t : Tail) : Instr :=
  if b && t.modrm.isReg then .vsubpdZmmEvexEr p (RoundMode.ofBits ll) t
  else if ll == 0 then
    if !b then .vsubpdXmmEvex p t
    else if t.modrm.mod == 2 then .vsubpdXmmEvexBcstD32 p t else .vsubpdXmmEvexBcst p t
  else if ll == 1 then
    if !b then .vsubpdYmmEvex p t
    else if t.modrm.mod == 2 then .vsubpdYmmEvexBcstD32 p t else .vsubpdYmmEvexBcst p t
  else
    if !b then .vsubpdZmmEvex p t
    else if t.modrm.mod == 2 then .vsubpdZmmEvexBcstD32 p t else .vsubpdZmmEvexBcst p t

/-- R96 steps 4 and 5: `L'L = 11` without embedded rounding, and `z = 1` with `aaa = 000`, raise #UD;
then the `M32` rule R84. -/
def evexRow (m : Mode) (p : Evex) (b : Bool) (ll : BitVec 2) (t : Tail) : Decoded :=
  if ll == 3 && !(b && t.modrm.isReg) then .ud
  else if !p.maskOk then .ud
  else if m == .m32 && !p.m32Ok then .reject .m32Extension
  else .instr (evexInstr p b ll t)

/-- EVEX, after `62` (R78, R79, R96 step 2d). -/
def decodeEvex (m : Mode) (bs : List Byte) : Decoded :=
  match bs with
  | p0 :: p1 :: p2 :: op :: rest =>
    if p0.extractLsb' 2 2 != 0 || !p1.getLsbD 2 || !p1.getLsbD 7 then .reject .evexReserved
    else if p0.extractLsb' 0 2 != 1 || p1.extractLsb' 0 2 != 1 || op != 0x5C then
      .reject .otherInstruction
    else
      match parseTail rest with
      | none => .reject .bytesRunOut
      | some t => evexRow m (Evex.ofBytes p0 p1 p2) (p2.getLsbD 4) (p2.extractLsb' 5 2) t
  | _ => .reject .bytesRunOut

/-- In `M32` the byte after `C4`, `C5` or `62` must have bits 7:6 = `11` (R84); `none` when the byte may
be a VEX or EVEX prefix. -/
def m32PrefixCheck (m : Mode) (bs : List Byte) : Option Decoded :=
  if m == .m32 then
    match bs with
    | [] => some (.reject .bytesRunOut)
    | v :: _ => if v.extractLsb' 6 2 != 3 then some (.reject .m32OtherOpcode) else none
  else none

/-- R96 step 2c or 2d up to the reading of the fields, then the fields by `go`. -/
def decodeVexLike (m : Mode) (ps : List Byte) (bs : List Byte)
    (go : Mode → List Byte → Decoded) : Decoded :=
  match m32PrefixCheck m bs with
  | some d => d
  | none =>
    match vexPrefixCheck ps with
    | some d => d
    | none => go m bs

/-- R96 step 2: `ps` are the legacy prefixes read and `bs` the bytes from the first that is none. A REX
before VEX or EVEX raises #UD (R72, R77, R83, R99, R184; log 15). -/
def decodeBody (m : Mode) (ps : List Byte) (bs : List Byte) : Decoded :=
  match bs with
  | [] => .reject .bytesRunOut
  | t :: rest =>
    if m == .m64 && t.extractLsb' 4 4 == 4 then
      match rest with
      | [] => .reject .bytesRunOut
      | t' :: rest' =>
        if t' == 0x0F then decodeLegacy ps (some (Rex.ofByte t)) rest'
        else if t' == 0xC5 || t' == 0xC4 || t' == 0x62 then .ud
        else if isLegacyPrefix t' || t'.extractLsb' 4 4 == 4 then .reject .prefixNotAdmitted
        else .reject .otherInstruction
    else if t == 0x0F then decodeLegacy ps none rest
    else if t == 0xC5 then decodeVexLike m ps rest decodeVex2
    else if t == 0xC4 then decodeVexLike m ps rest decodeVex3
    else if t == 0x62 then decodeVexLike m ps rest decodeEvex
    else .reject .otherInstruction

/-- The decoder (R96): total on any bytes. The bytes after the instruction are not looked at. A LOCK
prefix raises #UD (R96 step 1, R184). -/
def decode (m : Mode) (bs : List Byte) : Decoded :=
  if m == .other then .reject .modeNotModelled
  else
    let ps := bs.takeWhile isLegacyPrefix
    if ps.contains 0xF0 then .ud else decodeBody m ps (bs.dropWhile isLegacyPrefix)

/-! ## Length -/

/-- The bytes from ModRM on (R93). -/
def Tail.length (t : Tail) : Nat := 1 + (if t.sib.isSome then 1 else 0) + t.disp.size

/-- The length `len` of an instruction (R93). -/
def Instr.length : Instr → Nat
  | .subpd t => 3 + t.length
  | .subpdRex _ t => 4 + t.length
  | .vsubpdXmmVex2 _ t => 3 + t.length
  | .vsubpdXmmVex3 _ t => 4 + t.length
  | .vsubpdYmmVex2 _ t => 3 + t.length
  | .vsubpdYmmVex3 _ t => 4 + t.length
  | .vsubpdXmmEvex _ t => 5 + t.length
  | .vsubpdXmmEvexBcst _ t => 5 + t.length
  | .vsubpdXmmEvexBcstD32 _ t => 5 + t.length
  | .vsubpdYmmEvex _ t => 5 + t.length
  | .vsubpdYmmEvexBcst _ t => 5 + t.length
  | .vsubpdYmmEvexBcstD32 _ t => 5 + t.length
  | .vsubpdZmmEvex _ t => 5 + t.length
  | .vsubpdZmmEvexBcst _ t => 5 + t.length
  | .vsubpdZmmEvexBcstD32 _ t => 5 + t.length
  | .vsubpdZmmEvexEr _ _ t => 5 + t.length

/-! ## The encoder -/

/-- One bit as a one-bit string. -/
def bit (x : Bool) : BitVec 1 := BitVec.ofBool x

/-- The ModRM byte (R85). -/
def ModRM.byte (m : ModRM) : Byte := m.mod ++ m.reg ++ m.rm

/-- The SIB byte (R86). -/
def Sib.byte (s : Sib) : Byte := s.scale ++ s.index ++ s.base

/-- The displacement bytes, least significant first (R90). -/
def Disp.bytes : Disp → List Byte
  | .none => []
  | .d8 v => [v]
  | .d32 v => [v.extractLsb' 0 8, v.extractLsb' 8 8, v.extractLsb' 16 8, v.extractLsb' 24 8]

/-- ModRM, SIB, displacement (R71). -/
def Tail.bytes (t : Tail) : List Byte :=
  t.modrm.byte :: ((t.sib.map Sib.byte).toList ++ t.disp.bytes)

/-- The REX byte `0100WRXB` (R73). -/
def Rex.byte (p : Rex) : Byte := (4 : BitVec 4) ++ bit p.w ++ bit p.r ++ bit p.x ++ bit p.b

/-- The two-byte VEX prefix with the given `L` and `pp = 01` (R74, R76). -/
def Vex2.bytes (p : Vex2) (l : Bool) : List Byte :=
  [0xC5, bit (!p.r) ++ ~~~p.vvvv ++ bit l ++ (1 : BitVec 2)]

/-- The three-byte VEX prefix with the given `L`, `mmmmm = 00001`, `pp = 01` (R75, R76). -/
def Vex3.bytes (p : Vex3) (l : Bool) : List Byte :=
  [0xC4, bit (!p.r) ++ bit (!p.x) ++ bit (!p.b) ++ (1 : BitVec 5),
    bit p.w ++ ~~~p.vvvv ++ bit l ++ (1 : BitVec 2)]

/-- The EVEX prefix with the given `L'L` and `EVEX.b`, `W = 1`, `mm = 01`, `pp = 01` (R78, R79). -/
def Evex.bytes (p : Evex) (ll : BitVec 2) (b : Bool) : List Byte :=
  [0x62, bit (!p.r) ++ bit (!p.x) ++ bit (!p.b) ++ bit (!p.rp) ++ (1 : BitVec 4),
    (1 : BitVec 1) ++ ~~~p.vvvv ++ (5 : BitVec 3),
    bit p.z ++ ll ++ bit b ++ bit (!p.vp) ++ p.aaa]

/-- The bytes of an instruction, lowest address first (R71, R73 to R82). -/
def encode : Instr → List Byte
  | .subpd t => [0x66, 0x0F, 0x5C] ++ t.bytes
  | .subpdRex p t => [0x66, p.byte, 0x0F, 0x5C] ++ t.bytes
  | .vsubpdXmmVex2 p t => p.bytes false ++ [0x5C] ++ t.bytes
  | .vsubpdXmmVex3 p t => p.bytes false ++ [0x5C] ++ t.bytes
  | .vsubpdYmmVex2 p t => p.bytes true ++ [0x5C] ++ t.bytes
  | .vsubpdYmmVex3 p t => p.bytes true ++ [0x5C] ++ t.bytes
  | .vsubpdXmmEvex p t => p.bytes 0 false ++ [0x5C] ++ t.bytes
  | .vsubpdXmmEvexBcst p t => p.bytes 0 true ++ [0x5C] ++ t.bytes
  | .vsubpdXmmEvexBcstD32 p t => p.bytes 0 true ++ [0x5C] ++ t.bytes
  | .vsubpdYmmEvex p t => p.bytes 1 false ++ [0x5C] ++ t.bytes
  | .vsubpdYmmEvexBcst p t => p.bytes 1 true ++ [0x5C] ++ t.bytes
  | .vsubpdYmmEvexBcstD32 p t => p.bytes 1 true ++ [0x5C] ++ t.bytes
  | .vsubpdZmmEvex p t => p.bytes 2 false ++ [0x5C] ++ t.bytes
  | .vsubpdZmmEvexBcst p t => p.bytes 2 true ++ [0x5C] ++ t.bytes
  | .vsubpdZmmEvexBcstD32 p t => p.bytes 2 true ++ [0x5C] ++ t.bytes
  | .vsubpdZmmEvexEr p rc t => p.bytes rc.bits true ++ [0x5C] ++ t.bytes

/-! ## The table's words -/

/-- How many bytes a fetch delivers: the length limit of an instruction (R94). -/
def fetchLength : Nat := 15

/-- The instruction whose bits are `w` (bit 0 is the least significant bit of its first byte), as bytes,
lowest address first, followed by bytes of zeros up to the longest fetch. -/
def bytesOfWord (nbits w : Nat) : List Byte :=
  (List.range fetchLength).map fun k =>
    if 8 * k < nbits then BitVec.ofNat 8 (w >>> (8 * k)) else 0

/-- The instruction the decoder reads, in `M64`, from a word of the opcode table. -/
def decodeTableWord (nbits w : Nat) : Option Instr :=
  match decode .m64 (bytesOfWord nbits w) with
  | .instr i => some i
  | .ud => none
  | .reject _ => none

end Sys2Proof
end

