-- ==== Sys2Proof/Machine/State.lean ====
section
/-! DEFINITION. The state of the machine as plain data (10_state.md; 00_scope.md R6), the exceptions,
faults and refusals a step can end in (60_exceptions.md R180, R196), and the state after reset
(10_state.md R38). -/

namespace Sys2Proof.Machine

/-- The system-enable record `SYS` (R33). No form writes it. -/
structure Sys where
  /-- CR0 bit 2: x87 emulation requested. -/
  cr0Em : Bool
  /-- CR0 bit 3: task switched. -/
  cr0Ts : Bool
  /-- CR0 bit 18: alignment checking may be enabled. -/
  cr0Am : Bool
  /-- CR4 bit 9: the operating system supports SSE state. -/
  cr4Osfxsr : Bool
  /-- CR4 bit 10: the operating system handles #XM. -/
  cr4Osxmmexcpt : Bool
  /-- CR4 bit 18: XCR0 is in use. -/
  cr4Osxsave : Bool
  /-- XCR0 bit 1. -/
  xcr0Sse : Bool
  /-- XCR0 bit 2. -/
  xcr0Avx : Bool
  /-- XCR0 bit 5. -/
  xcr0Opmask : Bool
  /-- XCR0 bit 6. -/
  xcr0ZmmHi256 : Bool
  /-- XCR0 bit 7. -/
  xcr0Hi16Zmm : Bool
  /-- EFLAGS bit 18: alignment check requested. -/
  eflagsAc : Bool
  /-- The current privilege level, 0 to 3 (R200). -/
  cpl : Fin 4
deriving DecidableEq, Repr

/-- The feature flags `HAS_*` (R6, D3). No form writes them (log 2). -/
structure Features where
  hasSse2 : Bool
  hasAvx : Bool
  hasAvx512f : Bool
  hasAvx512vl : Bool
deriving DecidableEq, Repr

/-- A memory fault that `MEM_ACCESS` may answer (R56, R186 to R189). -/
inductive AccessFault
  /-- #SS(0) (R186). -/
  | ss
  /-- #GP(0) (R187 b). -/
  | gp
  /-- #PF with its fault code and the faulting linear address (R188). R188 gives the code no width: 32 bits
  are a DESIGN CHOICE (log 26). -/
  | pf (code : BitVec 32) (addr : Addr)
  /-- #AC(0); answered only under the condition of R189. -/
  | ac
deriving DecidableEq, Repr

/-- One question that `MEM_ACCESS` does not answer ok: under `SYS = sys`, so at its privilege level (R200),
`size` bytes from `addr`. -/
structure AccessEntry where
  sys : Sys
  addr : Nat
  size : Nat
  answer : AccessFault
deriving DecidableEq, Repr

/-- The parameter `MEM_ACCESS` (R56, D11) as data: the questions not answered ok. A question is a value of
`SYS`, an address and a size; there are finitely many, so every total function is one of these lists
(log 3). -/
abbrev AccessMap := List AccessEntry

/-- Bytes `base` to `base + size - 1`. -/
structure Region where
  base : Nat
  size : Nat
deriving DecidableEq, Repr

/-- Memory: the listed bytes by address, strictly rising, none equal to what an unlisted byte reads as
(`Memory.wf`; log 7). -/
abbrev Memory := List Host.Cell

/-- One read of the event history (R62): its address, width in bytes, and the bytes returned, lowest
address first (the agent is the only one, log 21). -/
structure ReadEvent where
  addr : Nat
  width : Nat
  bytes : List Byte
deriving DecidableEq, Repr

/-- The state of the machine (10_state.md; the parameters of 00_scope.md R6 that are arguments of the
model stand here as fields no step writes). -/
structure State where
  /-- `V[0]` to `V[31]` (R20, R22). -/
  vec : Vector VReg 32
  /-- `K[0]` to `K[7]` (R24). -/
  opmask : Vector KReg 8
  /-- MXCSR (R26). -/
  mxcsr : BitVec 32
  /-- The program counter (R29). -/
  pc : Addr
  /-- `x[0]` to `x[15]` (R31). -/
  gpr : Vector Addr 16
  /-- `SYS` (R33). -/
  sys : Sys
  /-- `MODE` (R3). -/
  mode : Mode
  /-- `HAS_*` (R6). -/
  features : Features
  /-- `FAULT_SUPPRESSION` (R58). -/
  faultSuppression : Bool
  /-- `END` (R216); none when no end is set (log 5). -/
  stop : Option Addr
  /-- The program text that the fetch reads (R64). -/
  text : Memory
  /-- Data memory (R50). -/
  mem : Memory
  /-- `MEM_ACCESS` (R56). -/
  access : AccessMap
  /-- The locations whose reads have side effects (R54). -/
  devices : List Region
  /-- The event history of memory reads, oldest first (R62; log 14). -/
  reads : List ReadEvent
  /-- The model's own field: how many free values completed steps have drawn (log 12). -/
  draws : Nat
deriving DecidableEq, Repr

/-- The synchronous exceptions (R180). -/
inductive Exn
  /-- Invalid opcode. -/
  | ud
  /-- Device not available. -/
  | nm
  /-- Stack fault. -/
  | ss
  /-- General protection. -/
  | gp
  /-- Page fault, with the fault code (32 bits, DESIGN CHOICE, log 26) and the faulting address that
  `MEM_ACCESS` answered. -/
  | pf (code : BitVec 32) (addr : Addr)
  /-- Alignment check. -/
  | ac
  /-- SIMD floating-point. -/
  | xm
deriving DecidableEq, Repr

/-- Why a step ends in a fault. -/
inductive Fault
  /-- `fault(E, info, s')` of R196: raised by the decoder (#UD, R184), by the checks of every form (#UD
  R181 to R183, #NM R185), by its memory read (#SS, #GP, #PF, #AC, R186 to R189) and by its lanes (#XM
  R190, #UD R191). Terminal, as the spec says; `s'` is the state the fault leaves. Safe. -/
  | raised (e : Exn) (s' : State)
deriving DecidableEq, Repr

/-- Why a step is refused: the model gives no meaning. Each is safe. -/
inductive Refusal
  /-- Raised by an arm of `exec` whose instruction has no meaning yet; no arm does. -/
  | notModelled (mnemonic : String)
  /-- Raised by the step when the decoder refuses the bytes (R96). -/
  | undecoded (r : Reject)
  /-- Raised by every form in a mode other than `M64` and `M32` (D2). -/
  | modeNotModelled
  /-- Raised by the step when `pc = END`: the run has completed normally (R216). -/
  | runCompleted
  /-- Raised by the step when an MXCSR bit in 31:16 is 1: not a state of the machine (R26, U1). -/
  | mxcsrReserved
  /-- Raised by every form when `pc + len` exceeds the top of the address space (R30, D35). -/
  | pastAddressSpace
  /-- Raised by a memory read that `MEM_ACCESS` answered ok and whose bytes run past the top of the address
  space: the spec gives no such bytes (R50) and so the state no meaning (R196; log 18). -/
  | operandPastAddressSpace
  /-- Raised by a memory read that touches a location whose reads have side effects (R54, U12). -/
  | deviceRead
deriving DecidableEq, Repr

/-- `SYS` after reset (R38): every field 0. -/
def Sys.reset : Sys :=
  { cr0Em := false, cr0Ts := false, cr0Am := false, cr4Osfxsr := false, cr4Osxmmexcpt := false,
    cr4Osxsave := false, xcr0Sse := false, xcr0Avx := false, xcr0Opmask := false,
    xcr0ZmmHi256 := false, xcr0Hi16Zmm := false, eflagsAc := false, cpl := 0 }

/-- The general registers after reset (R38): RDX a processor signature (PRESUMED value, log 9), the
others 0. -/
def resetGpr : Vector Addr 16 := (Vector.replicate 16 0#64).set 2 0x50654#64

/-- The reset vector (R38 gives no number; PRESUMED, log 8). -/
def resetPc : Addr := 0xFFFFFFF0#64

/-- MXCSR after reset (R38). -/
def resetMxcsr : BitVec 32 := 0x1F80#32

/-- The machine right after reset (R38; logs 1 to 9, 12, 14, 19). -/
def State.reset : State :=
  { vec := Vector.replicate 32 0#512
    opmask := Vector.replicate 8 0#64
    mxcsr := resetMxcsr
    pc := resetPc
    gpr := resetGpr
    sys := Sys.reset
    mode := .other
    features := { hasSse2 := true, hasAvx := true, hasAvx512f := true, hasAvx512vl := true }
    faultSuppression := false
    stop := none
    text := []
    mem := []
    access := []
    devices := []
    reads := []
    draws := 0 }

end Sys2Proof.Machine
end

