-- ==== Sys2Proof/Machine/Ops.lean ====
section
/-! DEFINITION. The named operations over registers and memory: reading and writing registers
(10_state.md), memory bytes and the one read primitive `MemRead` (20_memory.md R50 to R59), instruction
fetch (R64), taking an exception (60_exceptions.md R195, R196), and the INIT event (10_state.md R38). -/

namespace Sys2Proof.Machine

/-- The outcome of a step of this machine. -/
abbrev Result := Host.Outcome State Fault Refusal

/-! ## Taking an exception -/

/-- Taking an exception: `raise E(info)` (R8, R196). The step ends in the fault, which carries the state
it leaves: `pc` not advanced and nothing written but what the caller has put into `s` (R195). The spec
enters no handler and gives no return from one (R196, R197). -/
def raise (e : Exn) (s : State) : Fault := .raised e s

/-- The vector number of an exception (R180). -/
def Exn.vector : Exn → Nat
  | .ud => 6
  | .nm => 7
  | .ss => 12
  | .gp => 13
  | .pf _ _ => 14
  | .ac => 17
  | .xm => 19

/-- The error code of an exception, if it has one (R180), in 32 bits (DESIGN CHOICE, log 26). -/
def Exn.errorCode : Exn → Option (BitVec 32)
  | .ud => none
  | .nm => none
  | .ss => some 0
  | .gp => some 0
  | .pf code _ => some code
  | .ac => some 0
  | .xm => none

/-- The state a fault leaves (R196). -/
def Fault.state : Fault → State
  | .raised _ s' => s'

/-- Why an instruction does not complete. -/
inductive Stop
  /-- It ends in a fault. -/
  | fault (f : Fault)
  /-- It is refused. -/
  | refusal (r : Refusal)
deriving DecidableEq, Repr

/-- The outcome of a step that stops. -/
def Stop.outcome : Stop → Result
  | .fault f => .fault f
  | .refusal r => .refused r

/-! ## Registers -/

/-- `V[n]`, read whole (R8, R20). -/
def State.readV (s : State) (n : BitVec 5) : VReg := s.vec[n.toNat]'(by have := n.isLt; omega)

/-- `V[n] <- v` (R8). -/
def State.writeV (s : State) (n : BitVec 5) (v : VReg) : State :=
  { s with vec := s.vec.set n.toNat v (by have := n.isLt; omega) }

/-- Lane `j` of a vector: bits `64j+63 : 64j` (00_scope.md section 6; R160). -/
def lane (v : VReg) (j : Nat) : Lane := v.extractLsb' (64 * j) 64

/-- The vector with the listed lanes, lane 0 first, and zeros above. -/
def ofLanes : List Lane → VReg
  | [] => 0
  | x :: xs => (ofLanes xs <<< 64) ||| x.setWidth 512

/-- `K[n]` (R24). -/
def State.readK (s : State) (n : BitVec 3) : KReg := s.opmask[n.toNat]'(by have := n.isLt; omega)

/-- The number of addresses, `2^A` (R50, R87): 2^32 in `M32`, 2^64 in `M64`. -/
def addrSpace : Mode → Nat
  | .m64 => 2 ^ 64
  | .m32 => 2 ^ 32
  | .other => 2 ^ 64

/-- A value modulo `2^A` (R92). -/
def wrapAddr (m : Mode) (a : Addr) : Addr :=
  match m with
  | .m64 => a
  | .m32 => (a.setWidth 32).setWidth 64
  | .other => a

/-- The general register `x[n]`, 64 bits in `M64`, 32 in `M32` (R31). -/
def State.readX (s : State) (n : BitVec 4) : Addr :=
  wrapAddr s.mode (s.gpr[n.toNat]'(by have := n.isLt; omega))

/-! ## Memory -/

/-- What an unlisted byte reads as (DESIGN CHOICE, log 7). -/
def unlistedByte : Byte := 0

/-- The byte at an address. -/
def Memory.read : Memory → Nat → Byte
  | [], _ => unlistedByte
  | (k, v) :: rest, a => if k == a then v else Memory.read rest a

/-- The memory with byte `v` at `a`, in canonical form when the given one is. No form stores (R61): this
is how a program or launch data is placed from outside. -/
def Memory.write : Memory → Nat → Byte → Memory
  | [], a, v => if v == unlistedByte then [] else [(a, v)]
  | (k, w) :: rest, a, v =>
    if a < k then (if v == unlistedByte then (k, w) :: rest else (a, v) :: (k, w) :: rest)
    else if a == k then (if v == unlistedByte then rest else (a, v) :: rest)
    else (k, w) :: Memory.write rest a v

/-- The memory with the listed bytes from `a` upward. -/
def Memory.writeBytes : Memory → Nat → List Byte → Memory
  | m, _, [] => m
  | m, a, v :: vs => Memory.writeBytes (Memory.write m a v) (a + 1) vs

/-- Every listed address is above `lo`, the addresses rise strictly, and no entry equals what an unlisted
byte reads as. -/
def Memory.wfAbove : Option Nat → Memory → Bool
  | _, [] => true
  | lo, (k, v) :: rest =>
    (match lo with
      | none => true
      | some l => decide (l < k)) && v != unlistedByte && Memory.wfAbove (some k) rest

/-- The canonical form of memory: addresses strictly rising, no entry equal to what an unlisted byte reads
as; equal memories are then equal lists. -/
def Memory.wf (m : Memory) : Bool := Memory.wfAbove none m

/-- The `n` bytes from `a` upward, lowest address first. -/
def Memory.bytes (m : Memory) (a n : Nat) : List Byte :=
  (List.range n).map fun k => Memory.read m (a + k)

/-- The 64-bit value at `a`, little-endian (R51): `MemRead(a, 8)` without its checks. -/
def Memory.lane (m : Memory) (a : Nat) : Lane :=
  Memory.read m (a + 7) ++ Memory.read m (a + 6) ++ Memory.read m (a + 5) ++ Memory.read m (a + 4) ++
    Memory.read m (a + 3) ++ Memory.read m (a + 2) ++ Memory.read m (a + 1) ++ Memory.read m a

/-! ## The read primitive -/

/-- When #AC is possible (R189): `CR0.AM = 1`, `EFLAGS.AC = 1`, `CPL = 3`, and the address is not aligned
to the size of the access (U9: the spec knows no smaller boundary). -/
def acPossible (y : Sys) (a n : Nat) : Bool :=
  y.cr0Am && y.eflagsAc && y.cpl == 3 && a % n != 0

/-- `MEM_ACCESS(SYS, a, n, read)` (R56): `none` is ok. It depends on all of its arguments, on `SYS` with the
privilege level among them (R200). An #AC answer counts only under R189. -/
def memAccess (y : Sys) (t : AccessMap) (a n : Nat) : Option AccessFault :=
  match t.find? fun e => e.addr == a && e.size == n && e.sys == y with
  | none => none
  | some e => if e.answer == .ac && !acPossible y a n then none else some e.answer

/-- The exception of a memory fault (R186 to R189). -/
def AccessFault.exn : AccessFault → Exn
  | .ss => .ss
  | .gp => .gp
  | .pf code addr => .pf code addr
  | .ac => .ac

/-- A byte of `a .. a + n - 1` lies in the region. -/
def Region.touches (r : Region) (a n : Nat) : Bool := a < r.base + r.size && r.base < a + n && 0 < r.size

/-- `MemRead(a, n)` (R8, R56): the event of the read, or why it does not happen. The values are those
memory holds (`Memory.lane`). First `MEM_ACCESS`; then bytes past the top (R196, log 18) and device
locations (R54, log 19), both refused. -/
def memRead (s : State) (a n : Nat) : Except Stop ReadEvent :=
  match memAccess s.sys s.access a n with
  | some f => .error (.fault (raise (AccessFault.exn f) s))
  | none =>
    if addrSpace s.mode < a + n then .error (.refusal .operandPastAddressSpace)
    else if s.devices.any fun r => Region.touches r a n then .error (.refusal .deviceRead)
    else .ok { addr := a, width := n, bytes := Memory.bytes s.mem a n }

/-! ## Fetch -/

/-- The bytes the fetch reads (R64): from `pc` upward, at most `fetchLength`, none past the top of the
address space (R30, R94; log 16). `END` does not cut them off: an instruction that begins before it and
reaches it is decoded whole (DESIGN CHOICE, log 28). -/
def fetchBytes (s : State) : List Byte :=
  Memory.bytes s.text s.pc.toNat (min fetchLength (addrSpace s.mode - s.pc.toNat))

/-- What the step looks at before it fetches: the end of the run (R216), and MXCSR bits 31:16, which are
0 in every state of the machine (U1). -/
def beforeFetch (s : State) : Option Refusal :=
  if s.stop == some s.pc then some .runCompleted
  else if s.mxcsr.extractLsb' 16 16 != 0 then some .mxcsrReserved
  else none

/-- `s` with the instruction whose bits are `w` where the next step fetches, in `M64` (log 6). -/
def placeWord (s : State) (nbits w : Nat) : State :=
  { s with
    mode := .m64
    stop := if s.stop == some s.pc then none else s.stop
    text := Memory.writeBytes s.text s.pc.toNat (bytesOfWord nbits w) }

/-! ## INIT -/

/-- The machine after INIT (R38, third column): the vector registers, the opmask registers, MXCSR and XCR0
keep their values. No step performs it (R210; log 22). -/
def afterInit (s : State) : State :=
  { s with
    pc := resetPc
    gpr := resetGpr
    mode := .other
    sys := { Sys.reset with
      xcr0Sse := s.sys.xcr0Sse
      xcr0Avx := s.sys.xcr0Avx
      xcr0Opmask := s.sys.xcr0Opmask
      xcr0ZmmHi256 := s.sys.xcr0ZmmHi256
      xcr0Hi16Zmm := s.sys.xcr0Hi16Zmm } }

end Sys2Proof.Machine
end

