-- ==== Sys2Proof/Machine/Binary64.lean ====
section
/-! DEFINITION. The subtraction of one lane, `LaneSub` (40_binary64_subtract.md R111 to R128), by exact
integer arithmetic: the value of a finite operand is held as its multiple of 2^-1074. -/

namespace Sys2Proof.Machine

/-! ## The format (R111, R112) -/

/-- The sign `v[63]`. -/
def signBit (v : Lane) : Bool := v.getLsbD 63

/-- The biased exponent `v[62:52]`. -/
def expField (v : Lane) : Nat := (v.extractLsb' 52 11).toNat

/-- The fraction `v[51:0]`. -/
def fracField (v : Lane) : Nat := (v.extractLsb' 0 52).toNat

/-- The value with the given sign, exponent field and fraction. -/
def packLane (s : Bool) (e f : Nat) : Lane :=
  BitVec.ofBool s ++ BitVec.ofNat 11 e ++ BitVec.ofNat 52 f

/-- A NaN of either kind. -/
def isNaN (v : Lane) : Bool := expField v == 2047 && fracField v != 0

/-- A quiet NaN: `f[51] = 1`. -/
def isQNaN (v : Lane) : Bool := isNaN v && v.getLsbD 51

/-- A signaling NaN: `f[51] = 0`. -/
def isSNaN (v : Lane) : Bool := isNaN v && !v.getLsbD 51

/-- An infinity. -/
def isInf (v : Lane) : Bool := expField v == 2047 && fracField v == 0

/-- A denormal. -/
def isDenormal (v : Lane) : Bool := expField v == 0 && fracField v != 0

/-- A zero of either sign. -/
def isZero (v : Lane) : Bool := expField v == 0 && fracField v == 0

/-- Neither an infinity nor a NaN. -/
def isFinite (v : Lane) : Bool := expField v != 2047

/-- A normal number: `1 <= e <= 2046`. -/
def isNormal (v : Lane) : Bool := expField v != 0 && expField v != 2047

/-- The magnitude of a finite value as a multiple of 2^-1074 (R112): `f` for a zero or a denormal,
`(2^52 + f) * 2^(e-1)` for a normal number. -/
def magnitude (v : Lane) : Nat :=
  if expField v == 0 then fracField v else (2 ^ 52 + fracField v) <<< (expField v - 1)

/-- The value of a finite operand as a multiple of 2^-1074 (R112). -/
def scaledValue (v : Lane) : Int :=
  if signBit v then -(magnitude v : Int) else (magnitude v : Int)

/-- `quiet(v)`: sets `f[51]`. -/
def quiet (v : Lane) : Lane := v ||| 0x0008000000000000#64

/-- `IND`, the QNaN floating-point indefinite. -/
def indefinite : Lane := 0xFFF8000000000000#64

/-- The zero of the given sign. -/
def zeroOf (s : Bool) : Lane := packLane s 0 0

/-- The infinity of the given sign. -/
def infOf (s : Bool) : Lane := packLane s 2047 0

/-- `MAXF` or `-MAXF`, the largest finite magnitude. -/
def maxFinite (s : Bool) : Lane := packLane s 2046 (2 ^ 52 - 1)

/-! ## Flag sets: bits 5:0 of MXCSR (R26) -/

/-- Invalid operation. -/
def flagIE : BitVec 6 := 1
/-- Denormal operand. -/
def flagDE : BitVec 6 := 2
/-- Divide by zero. -/
def flagZE : BitVec 6 := 4
/-- Overflow. -/
def flagOE : BitVec 6 := 8
/-- Underflow. -/
def flagUE : BitVec 6 := 16
/-- Precision. -/
def flagPE : BitVec 6 := 32

/-- The record `LaneSub` returns (R113); `pre` and `post` are sets of flags. -/
structure LaneResult where
  r : Lane
  pre : BitVec 6
  post : BitVec 6
  tiny : Bool
deriving DecidableEq, Repr

/-- What a lane's subtraction depends on besides its operands (R113). -/
structure FpEnv where
  rc : RoundMode
  daz : Bool
  ftz : Bool
  um : Bool
deriving DecidableEq, Repr

/-! ## The steps of LaneSub -/

/-- Step 8 (R121): whether the truncated significand `m0` is incremented, given the sign of the
difference and its remainder `rem / unit`. -/
def roundsUp (rc : RoundMode) (neg : Bool) (m0 rem unit : Nat) : Bool :=
  match rc with
  | .rn => decide (unit < 2 * rem) || (2 * rem == unit && m0 % 2 == 1)
  | .rd => neg && rem != 0
  | .ru => !neg && rem != 0
  | .rz => false

/-- A difference rounded to 53 significant bits with an unbounded exponent (R121). -/
structure Rounded where
  /-- The significand, `2^52 <= m < 2^53`. -/
  m : Nat
  /-- The biased exponent `E` it would have. -/
  e : Int
  inexact : Bool
deriving DecidableEq, Repr

/-- Step 8 (R121), for a nonzero magnitude `n` in units of 2^-1074: with `l` the position of its leading
bit, `q = l - 52 - 1074`, so `E = q + 1075 = l - 51`. -/
def roundExact (rc : RoundMode) (neg : Bool) (n : Nat) : Rounded :=
  let l := Nat.log2 n
  let unit := 2 ^ (l - 52)
  let m0 := if 52 ≤ l then n / unit else n * 2 ^ (52 - l)
  let rem := if 52 ≤ l then n % unit else 0
  let m := if roundsUp rc neg m0 rem unit then m0 + 1 else m0
  if m == 2 ^ 53 then { m := 2 ^ 52, e := (l : Int) - 50, inexact := rem != 0 }
  else { m := m, e := (l : Int) - 51, inexact := rem != 0 }

/-- Step 9 (R122): the result of an overflow. -/
def overflowResult (rc : RoundMode) (neg : Bool) : Lane :=
  match rc with
  | .rn => infOf neg
  | .rd => if neg then infOf true else maxFinite false
  | .ru => if neg then maxFinite true else infOf false
  | .rz => maxFinite neg

/-- Steps 8 to 11 (R121 to R125), for a nonzero exact difference `d` in units of 2^-1074. -/
def roundDifference (env : FpEnv) (pre : BitVec 6) (d : Int) : LaneResult :=
  let neg := decide (d < 0)
  let n := d.natAbs
  let x := roundExact env.rc neg n
  if 2047 ≤ x.e then
    { r := overflowResult env.rc neg, pre := pre, post := flagOE ||| flagPE, tiny := false }
  else if x.e ≤ 0 then
    if env.ftz && env.um then
      { r := zeroOf neg, pre := pre, post := flagUE ||| flagPE, tiny := true }
    else { r := packLane neg 0 n, pre := pre, post := 0, tiny := true }
  else
    { r := packLane neg x.e.toNat (x.m - 2 ^ 52), pre := pre,
      post := if x.inexact then flagPE else 0, tiny := false }

/-- Step 7 (R120): the zero that an exact zero difference of `a` and `b` gives. -/
def exactZero (rc : RoundMode) (a b : Lane) : Lane :=
  if signBit a == !signBit b then zeroOf (signBit a)
  else zeroOf (rc == .rd)

/-- Step 4 (R117): a denormal operand under DAZ is the zero of its sign. -/
def dazOperand (daz : Bool) (v : Lane) : Lane :=
  if daz && isDenormal v then zeroOf (signBit v) else v

/-- Steps 5 to 11 (R118 to R125), for the operands and `pre` that step 4 left. -/
def subtractNumbers (env : FpEnv) (pre : BitVec 6) (a b : Lane) : LaneResult :=
  if isInf a then { r := a, pre := pre, post := 0, tiny := false }
  else if isInf b then { r := b ^^^ 0x8000000000000000#64, pre := pre, post := 0, tiny := false }
  else
    let d := scaledValue a - scaledValue b
    if d == 0 then { r := exactZero env.rc a b, pre := pre, post := 0, tiny := false }
    else roundDifference env pre d

/-- `LaneSub(rc, daz, ftz, um, a, b)` (R113, R128): the minuend is `a`, the subtrahend `b`. -/
def laneSub (env : FpEnv) (a b : Lane) : LaneResult :=
  if isSNaN a || isSNaN b then
    { r := if isNaN a then quiet a else quiet b, pre := flagIE, post := 0, tiny := false }
  else if isQNaN a then { r := a, pre := 0, post := 0, tiny := false }
  else if isQNaN b then { r := b, pre := 0, post := 0, tiny := false }
  else if isInf a && isInf b && signBit a == signBit b then
    { r := indefinite, pre := flagIE, post := 0, tiny := false }
  else
    let pre := if !env.daz && (isDenormal a || isDenormal b) then flagDE else 0
    subtractNumbers env pre (dazOperand env.daz a) (dazOperand env.daz b)

end Sys2Proof.Machine
end

