-- ==== Sys2Proof/Machine/Operands.lean ====
section
/-! DEFINITION. Every operand form: register numbers (30_encoding.md R73, R76, R80), the effective address
(R85 to R92), the second source (20_memory.md R52 to R58; 43_vsubpd_evex.md R162), and the writemask
(10_state.md R25; R161). -/

namespace Sys2Proof.Machine

/-! ## Register numbers -/

/-- `e*8 + n`: a register number from an extension bit and a three-bit field, as a vector register
(R73, R76). -/
def regNum (e : Bool) (n : BitVec 3) : BitVec 5 := (0 : BitVec 1) ++ BitVec.ofBool e ++ n

/-- `e'*16 + e*8 + n` (R80). -/
def regNum5 (e' e : Bool) (n : BitVec 3) : BitVec 5 := BitVec.ofBool e' ++ BitVec.ofBool e ++ n

/-- The register number `vvvv` of a VEX form (R76). -/
def vvvvNum (v : BitVec 4) : BitVec 5 := (0 : BitVec 1) ++ v

/-- `V'*16 + vvvv` (R80). -/
def vvvvNum5 (v' : Bool) (v : BitVec 4) : BitVec 5 := BitVec.ofBool v' ++ v

/-- A general register number `e*8 + n` (R87, R88). -/
def gprNum (e : Bool) (n : BitVec 3) : BitVec 4 := BitVec.ofBool e ++ n

/-! ## The effective address -/

/-- The displacement, sign-extended, `disp8` scaled by `n` (R90, R91; `n = 1` for forms 1 to 3). -/
def dispValue (n : Nat) : Disp → Addr
  | .none => 0
  | .d8 v => v.signExtend 64 * BitVec.ofNat 64 n
  | .d32 v => v.signExtend 64

/-- The base term of a SIB address (R88). -/
def sibBase (s : State) (b : Bool) (mod : BitVec 2) (sb : Sib) : Addr :=
  if sb.base == 5 && mod == 0 then 0 else s.readX (gprNum b sb.base)

/-- The index term of a SIB address, scaled (R88): `X*8 + index = 4` is no index. -/
def sibIndex (s : State) (x : Bool) (sb : Sib) : Addr :=
  if gprNum x sb.index == 4 then 0 else s.readX (gprNum x sb.index) <<< sb.scale.toNat

/-- The effective address `EA` (R87 to R92) of a memory operand, `x` and `b` the extension bits, `len` the
length of the instruction, `n` the scale of `disp8`. The linear address equals it (R87, D8). -/
def effAddr (s : State) (x b : Bool) (t : Tail) (len n : Nat) : Addr :=
  let disp := dispValue n t.disp
  wrapAddr s.mode <|
    match t.sib with
    | some sb => sibBase s b t.modrm.mod sb + sibIndex s x sb + disp
    | none =>
      if t.modrm.mod == 0 && t.modrm.rm == 5 then
        match s.mode with
        | .m64 => s.pc + BitVec.ofNat 64 len + disp
        | .m32 => disp
        | .other => disp
      else s.readX (gprNum b t.modrm.rm) + disp

/-! ## Forms and operations -/

/-- The lane count `KL` (R160): `VL / 64`. -/
def lanesOf : Form → Nat
  | .f1 => 2
  | .f2 => 2
  | .f3 => 4
  | .f4 => 2
  | .f5 => 4
  | .f6 => 8

/-- The scale `N` of `disp8` (R90, R91). -/
def dispScale (f : Form) (bcst : Bool) : Nat :=
  match f with
  | .f1 => 1
  | .f2 => 1
  | .f3 => 1
  | .f4 => if bcst then 8 else 16
  | .f5 => if bcst then 8 else 32
  | .f6 => if bcst then 8 else 64

/-- The second source operand: a register, a full-width memory operand, or `m64bcst` (R52). -/
inductive Source2
  | reg (n : BitVec 5)
  | full (ea : Addr)
  | bcst (ea : Addr)
deriving DecidableEq, Repr

/-- One instruction with its operands resolved: what a form's rule names (R140, R150, R151, R163). -/
structure Operation where
  form : Form
  /-- The number of the destination. -/
  dst : BitVec 5
  /-- The number of the first source. -/
  src1 : BitVec 5
  src2 : Source2
  /-- `aaa`; 0 is no writemask. -/
  aaa : BitVec 3
  /-- Zeroing-masking. -/
  z : Bool
  /-- Embedded rounding with this mode. -/
  er : Option RoundMode
  /-- The length of the instruction. -/
  len : Nat
deriving DecidableEq, Repr

/-- The operation of form 1 (R73, R140). -/
def legacyOperation (s : State) (r x b : Bool) (t : Tail) (len : Nat) : Operation :=
  { form := .f1
    dst := regNum r t.modrm.reg
    src1 := regNum r t.modrm.reg
    src2 := if t.modrm.isReg then .reg (regNum b t.modrm.rm)
      else .full (effAddr s x b t len (dispScale .f1 false))
    aaa := 0
    z := false
    er := none
    len := len }

/-- The operation of a VEX form (R76, R150, R151). -/
def vexOperation (s : State) (f : Form) (r x b : Bool) (vvvv : BitVec 4) (t : Tail) (len : Nat) :
    Operation :=
  { form := f
    dst := regNum r t.modrm.reg
    src1 := vvvvNum vvvv
    src2 := if t.modrm.isReg then .reg (regNum b t.modrm.rm)
      else .full (effAddr s x b t len (dispScale f false))
    aaa := 0
    z := false
    er := none
    len := len }

/-- The operation of an EVEX form (R80, R81, R162, R164 to R167); `bcst` is `EVEX.b` with a memory
source. -/
def evexOperation (s : State) (f : Form) (p : Evex) (bcst : Bool) (er : Option RoundMode) (t : Tail)
    (len : Nat) : Operation :=
  let ea := effAddr s p.x p.b t len (dispScale f bcst)
  { form := f
    dst := regNum5 p.rp p.r t.modrm.reg
    src1 := vvvvNum5 p.vp p.vvvv
    src2 := if t.modrm.isReg then .reg (regNum5 p.x p.b t.modrm.rm)
      else if bcst then .bcst ea else .full ea
    aaa := p.aaa
    z := p.z
    er := er
    len := len }

/-! ## The writemask -/

/-- `M[j]` (R163 step 3): lane `j` is active, with no writemask when `aaa = 000`. -/
def Operation.active (o : Operation) (s : State) (j : Nat) : Bool :=
  o.aaa == 0 || (s.readK o.aaa).getLsbD j

/-- The active lanes, in order (R129 `ACT`). -/
def Operation.activeLanes (o : Operation) (s : State) : List Nat :=
  (List.range (lanesOf o.form)).filter fun j => o.active s j

/-! ## The second source -/

/-- The second source as read: the value of each lane, and the events of the reads. -/
structure SourceRead where
  lane : Nat → Lane
  events : List ReadEvent

/-- The stop of a read, if it stops. -/
def stopOf : Except Stop ReadEvent → Option Stop
  | .error e => some e
  | .ok _ => none

/-- The event of a read, if it does not stop. -/
def eventOf : Except Stop ReadEvent → Option ReadEvent
  | .error _ => none
  | .ok ev => some ev

/-- The reads of several places (R58): a fault that `MEM_ACCESS` answers for one of them (for which one, when
it answers several, is a free value, log 4); else the refusal of the first that cannot be read; else every
event, in the order of the places, which for lanes is ascending (DESIGN CHOICE, log 27: R62 orders only the
reads of successive instructions). -/
def readEach (s : State) (places : List Nat) (n : Nat) : Except Stop (List ReadEvent) :=
  let faults := places.filterMap fun a => memAccess s.sys s.access a n
  match faults[Config.faultingLane s.draws % faults.length]? with
  | some f => .error (.fault (raise (AccessFault.exn f) s))
  | none =>
    let results := places.map fun a => memRead s a n
    match (results.filterMap stopOf).head? with
    | some e => .error e
    | none => .ok (results.filterMap eventOf)

/-- A full-width memory operand (R52, R53, R55, R56). With fault suppression and a writemask only the
active lanes are asked for (R58). -/
def readFull (o : Operation) (s : State) (ea : Addr) : Except Stop SourceRead :=
  let value := fun j => Memory.lane s.mem (ea.toNat + 8 * j)
  if o.form == .f1 && ea.toNat % 16 != 0 then .error (.fault (raise .gp s))
  else if s.faultSuppression && o.aaa != 0 then
    match readEach s ((o.activeLanes s).map fun j => ea.toNat + 8 * j) 8 with
    | .error e => .error e
    | .ok evs => .ok { lane := value, events := evs }
  else
    match memRead s ea.toNat (8 * lanesOf o.form) with
    | .error e => .error e
    | .ok ev => .ok { lane := value, events := [ev] }

/-- An `m64bcst` operand: one 64-bit value for every lane (R53, R162). With fault suppression and a
writemask that has no active lane nothing is asked for (R58). -/
def readBcst (o : Operation) (s : State) (ea : Addr) : Except Stop SourceRead :=
  let value := fun _ => Memory.lane s.mem ea.toNat
  if s.faultSuppression && o.aaa != 0 && (o.activeLanes s).isEmpty then
    .ok { lane := value, events := [] }
  else
    match memRead s ea.toNat 8 with
    | .error e => .error e
    | .ok ev => .ok { lane := value, events := [ev] }

/-- The second source of an operation (R54, R162). -/
def readSource2 (o : Operation) (s : State) : Except Stop SourceRead :=
  match o.src2 with
  | .reg n => .ok { lane := lane (s.readV n), events := [] }
  | .full ea => readFull o s ea
  | .bcst ea => readBcst o s ea

end Sys2Proof.Machine
end

