-- ==== Sys2Proof/Machine/Flags.lean ====
section
/-! DEFINITION. MXCSR and every flag computation: its fields (10_state.md R26), the flags and the trap of a
whole instruction (40_binary64_subtract.md R129) and of embedded rounding (R130), and which forms may
execute at all (60_exceptions.md R181 to R185). -/

namespace Sys2Proof.Machine

/-! ## The fields of MXCSR -/

/-- `MXCSR.flags`, bits 5:0. -/
def mxFlags (m : BitVec 32) : BitVec 6 := m.extractLsb' 0 6

/-- `MXCSR.DAZ`, bit 6. -/
def mxDaz (m : BitVec 32) : Bool := m.getLsbD 6

/-- `MXCSR.masks`, bits 12:7, in the order of the flags; 1 is masked. -/
def mxMasks (m : BitVec 32) : BitVec 6 := m.extractLsb' 7 6

/-- `MXCSR.UM`, bit 11. -/
def mxUm (m : BitVec 32) : Bool := m.getLsbD 11

/-- `MXCSR.RC`, bits 14:13 (R27). -/
def mxRc (m : BitVec 32) : RoundMode := RoundMode.ofBits (m.extractLsb' 13 2)

/-- `MXCSR.FTZ`, bit 15. -/
def mxFtz (m : BitVec 32) : Bool := m.getLsbD 15

/-- `MXCSR.flags <- MXCSR.flags OR f` (R8): flags are sticky, no other bit is written. -/
def mxSetFlags (m : BitVec 32) (f : BitVec 6) : BitVec 32 := m ||| f.setWidth 32

/-! ## May the form execute at all -/

/-- The #UD condition of a form's features and enables (R181, R182, R183). -/
def formUndefined (f : Form) (y : Sys) (h : Features) : Bool :=
  let vex := y.cr4Osxsave && y.xcr0Sse && y.xcr0Avx
  let evex := vex && y.xcr0Opmask && y.xcr0ZmmHi256 && y.xcr0Hi16Zmm && h.hasAvx512f
  match f with
  | .f1 => y.cr0Em || !y.cr4Osfxsr || !h.hasSse2
  | .f2 => !(vex && h.hasAvx)
  | .f3 => !(vex && h.hasAvx)
  | .f4 => !(evex && h.hasAvx512vl)
  | .f5 => !(evex && h.hasAvx512vl)
  | .f6 => !evex

/-- Steps 2 and 3 of R194: #UD by the form's enables, then #NM (R185); `none` when the form may
execute. -/
def enableCheck (f : Form) (s : State) : Option Exn :=
  if formUndefined f s.sys s.features then some .ud
  else if s.sys.cr0Ts then some .nm
  else none

/-! ## The lanes of an instruction -/

/-- What the lanes are computed under: MXCSR (R129), or with embedded rounding its `DAZ` and `FTZ` with
the instruction's rounding mode and every exception masked (R130). -/
def Operation.env (o : Operation) (s : State) : FpEnv :=
  { rc := match o.er with
      | some rc => rc
      | none => mxRc s.mxcsr
    daz := mxDaz s.mxcsr
    ftz := mxFtz s.mxcsr
    um := o.er.isSome || mxUm s.mxcsr }

/-- `L_j` (R129, R130): the first source's lane minus the second's. -/
def Operation.laneResult (o : Operation) (s : State) (src2 : Nat → Lane) (j : Nat) : LaneResult :=
  laneSub (o.env s) (lane (s.readV o.src1) j) (src2 j)

/-- `PRE` of R129: the union over the active lanes. -/
def Operation.pre (o : Operation) (s : State) (src2 : Nat → Lane) : BitVec 6 :=
  (o.activeLanes s).foldr (fun j acc => (o.laneResult s src2 j).pre ||| acc) 0

/-- What one lane adds to `POST` of R129: its own set, and UE when it is tiny and `UM = 0` (R127). -/
def Operation.lanePost (o : Operation) (s : State) (src2 : Nat → Lane) (j : Nat) : BitVec 6 :=
  (o.laneResult s src2 j).post |||
    (if !mxUm s.mxcsr && (o.laneResult s src2 j).tiny then flagUE else 0)

/-- `POST` of R129: the union over the active lanes. -/
def Operation.post (o : Operation) (s : State) (src2 : Nat → Lane) : BitVec 6 :=
  (o.activeLanes s).foldr (fun j acc => o.lanePost s src2 j ||| acc) 0

/-- The flags an instruction signals, `PRE OR POST`. -/
def Operation.signalled (o : Operation) (s : State) (src2 : Nat → Lane) : BitVec 6 :=
  o.pre s src2 ||| o.post s src2

/-- The signalled flags whose mask bit is 0: those that make `trapP` or `trapQ` of R129 true. -/
def trapping (m : BitVec 32) (sig : BitVec 6) : BitVec 6 := sig &&& ~~~(mxMasks m)

/-- The draw of R129 after a trap (U6): the old flags, some of the signalled ones, and at least one that
trapped. Every value R129 admits is one for some `draw`. -/
def trapFlags (old sig trap draw : BitVec 6) : BitVec 6 :=
  let f := old ||| (sig &&& draw)
  if f &&& trap == 0 then f ||| trap else f

/-- What the flags become and whether the instruction traps. -/
inductive FpOutcome
  /-- Complete with this MXCSR. -/
  | done (mxcsr : BitVec 32)
  /-- Trap with this MXCSR. -/
  | trap (mxcsr : BitVec 32)
deriving DecidableEq, Repr

/-- R129 without embedded rounding, R130 with it. -/
def fpOutcome (o : Operation) (s : State) (src2 : Nat → Lane) : FpOutcome :=
  match o.er with
  | some _ => .done s.mxcsr
  | none =>
    let sig := o.signalled s src2
    let trap := trapping s.mxcsr sig
    if trap == 0 then .done (mxSetFlags s.mxcsr sig)
    else .trap (mxSetFlags s.mxcsr (trapFlags (mxFlags s.mxcsr) sig trap (Config.trapFlags s.draws)))

/-- The exception of a floating-point trap: #XM (R190), or #UD when `CR4_OSXMMEXCPT = 0` (R191). -/
def trapExn (s : State) : Exn := if s.sys.cr4Osxmmexcpt then .xm else .ud

/-- The value an active lane writes: `L_j.r`, but for the open case of R130 (U7), where embedded rounding
meets `UM = 0`, `FTZ = 1` and a tiny result: a draw between the flushed zero and the exact denormal. -/
def Operation.laneValue (o : Operation) (s : State) (src2 : Nat → Lane) (j : Nat) : Lane :=
  let l := o.laneResult s src2 j
  if o.er.isSome && !mxUm s.mxcsr && mxFtz s.mxcsr && l.tiny && !Config.erTinyFlush s.draws j then
    (laneSub { o.env s with um := false } (lane (s.readV o.src1) j) (src2 j)).r
  else l.r

end Sys2Proof.Machine
end

