-- ==== Sys2Proof/Machine/Complete.lean ====
section
/-! DEFINITION. The procedure every form shares (41_subpd_sse.md R140, 42_vsubpd_vex.md R150 and R151,
43_vsubpd_evex.md R163 `EVEX_SUB`), in the order of 60_exceptions.md R194. -/

namespace Sys2Proof.Machine

/-- Lane `j` of the destination on completion (R140 step 6, R150 step 5, R163 step 6): the lane's result
when active, else merged or zeroed; above the vector length form 1 keeps the old bits and every other form
writes zero. -/
def Operation.newLane (o : Operation) (s : State) (src2 : Nat → Lane) (j : Nat) : Lane :=
  if j < lanesOf o.form then
    if o.active s j then o.laneValue s src2 j
    else if o.z then 0 else lane (s.readV o.dst) j
  else if o.form == .f1 then lane (s.readV o.dst) j
  else 0

/-- The destination register on completion. -/
def Operation.newDst (o : Operation) (s : State) (src2 : Nat → Lane) : VReg :=
  ofLanes ((List.range 8).map fun j => o.newLane s src2 j)

/-- The state a form that completes leaves (R36): the destination, `MXCSR.flags` and `pc`, the reads in
the event history (R62), and one draw counted with embedded rounding (R130). -/
def Operation.complete (o : Operation) (s : State) (src : SourceRead) (mxcsr : BitVec 32) : State :=
  { s.writeV o.dst (o.newDst s src.lane) with
    mxcsr := mxcsr
    pc := s.pc + BitVec.ofNat 64 o.len
    reads := s.reads ++ src.events
    draws := if o.er.isSome then s.draws + 1 else s.draws }

/-- The state a floating-point trap leaves (R129, R195): `MXCSR.flags`, and the reads in the event
history (log 14). -/
def trapState (s : State) (src : SourceRead) (mxcsr : BitVec 32) : State :=
  { s with mxcsr := mxcsr, reads := s.reads ++ src.events }

/-- One instruction, in the order of R194: the mode (D2) and the top of the address space (R30) first,
then #UD and #NM, the memory operand, the lanes, and completion. -/
def Operation.run (o : Operation) (s : State) : Result :=
  if s.mode == .other then .refused .modeNotModelled
  else if addrSpace s.mode ≤ s.pc.toNat + o.len then .refused .pastAddressSpace
  else
    match enableCheck o.form s with
    | some e => .fault (raise e s)
    | none =>
      match readSource2 o s with
      | .error e => e.outcome
      | .ok src =>
        match fpOutcome o s src.lane with
        | .trap m => .fault (raise (trapExn s) (trapState s src m))
        | .done m => .next (o.complete s src m)

end Sys2Proof.Machine
end

