-- ==== Sys2Proof/Machine/Subpd.lean ====
section
/-! DEFINITION. Form 1, SUBPD (41_subpd_sse.md R140): the meanings of its two rows. -/

namespace Sys2Proof.Machine

/-- `SUBPD xmm1, xmm2/m128` without REX (R140; `R = X = B = 0`, R73). -/
def execSubpd (t : Tail) (s : State) : Result :=
  (legacyOperation s false false false t (Instr.subpd t).length).run s

/-- `SUBPD xmm1, xmm2/m128` with REX (R140); `W` is ignored (R73). -/
def execSubpdRex (p : Rex) (t : Tail) (s : State) : Result :=
  (legacyOperation s p.r p.x p.b t (Instr.subpdRex p t).length).run s

end Sys2Proof.Machine
end

