-- ==== Sys2Proof/Machine/VsubpdEvex.lean ====
section
/-! DEFINITION. Forms 4, 5 and 6, VSUBPD with EVEX (43_vsubpd_evex.md R160 to R167): the meanings of their
ten rows. -/

namespace Sys2Proof.Machine

/-- `VSUBPD xmm1 (k1)(z), xmm2, xmm3/m128`, `EVEX.b = 0` (R164). -/
def execVsubpdXmmEvex (p : Evex) (t : Tail) (s : State) : Result :=
  (evexOperation s .f4 p false none t (Instr.vsubpdXmmEvex p t).length).run s

/-- `VSUBPD xmm1 (k1)(z), xmm2, m64bcst`, `mod` = 00 or 01 (R164, R162). -/
def execVsubpdXmmEvexBcst (p : Evex) (t : Tail) (s : State) : Result :=
  (evexOperation s .f4 p true none t (Instr.vsubpdXmmEvexBcst p t).length).run s

/-- `VSUBPD xmm1 (k1)(z), xmm2, m64bcst`, `mod` = 10 (R164, R162). -/
def execVsubpdXmmEvexBcstD32 (p : Evex) (t : Tail) (s : State) : Result :=
  (evexOperation s .f4 p true none t (Instr.vsubpdXmmEvexBcstD32 p t).length).run s

/-- `VSUBPD ymm1 (k1)(z), ymm2, ymm3/m256`, `EVEX.b = 0` (R165). -/
def execVsubpdYmmEvex (p : Evex) (t : Tail) (s : State) : Result :=
  (evexOperation s .f5 p false none t (Instr.vsubpdYmmEvex p t).length).run s

/-- `VSUBPD ymm1 (k1)(z), ymm2, m64bcst`, `mod` = 00 or 01 (R165, R162). -/
def execVsubpdYmmEvexBcst (p : Evex) (t : Tail) (s : State) : Result :=
  (evexOperation s .f5 p true none t (Instr.vsubpdYmmEvexBcst p t).length).run s

/-- `VSUBPD ymm1 (k1)(z), ymm2, m64bcst`, `mod` = 10 (R165, R162). -/
def execVsubpdYmmEvexBcstD32 (p : Evex) (t : Tail) (s : State) : Result :=
  (evexOperation s .f5 p true none t (Instr.vsubpdYmmEvexBcstD32 p t).length).run s

/-- `VSUBPD zmm1 (k1)(z), zmm2, zmm3/m512`, `EVEX.b = 0` (R166). -/
def execVsubpdZmmEvex (p : Evex) (t : Tail) (s : State) : Result :=
  (evexOperation s .f6 p false none t (Instr.vsubpdZmmEvex p t).length).run s

/-- `VSUBPD zmm1 (k1)(z), zmm2, m64bcst`, `mod` = 00 or 01 (R166, R162). -/
def execVsubpdZmmEvexBcst (p : Evex) (t : Tail) (s : State) : Result :=
  (evexOperation s .f6 p true none t (Instr.vsubpdZmmEvexBcst p t).length).run s

/-- `VSUBPD zmm1 (k1)(z), zmm2, m64bcst`, `mod` = 10 (R166, R162). -/
def execVsubpdZmmEvexBcstD32 (p : Evex) (t : Tail) (s : State) : Result :=
  (evexOperation s .f6 p true none t (Instr.vsubpdZmmEvexBcstD32 p t).length).run s

/-- `VSUBPD zmm1 (k1)(z), zmm2, zmm3 (er)` with `EVEX.RC = rc` (R167, R130). -/
def execVsubpdZmmEvexEr (p : Evex) (rc : RoundMode) (t : Tail) (s : State) : Result :=
  (evexOperation s .f6 p false (some rc) t (Instr.vsubpdZmmEvexEr p rc t).length).run s

end Sys2Proof.Machine
end

