-- ==== Sys2Proof/Machine/VsubpdVex.lean ====
section
/-! DEFINITION. Forms 2 and 3, VSUBPD with VEX (42_vsubpd_vex.md R150, R151): the meanings of their four
rows. The two-byte prefix implies `X = B = 0` (R74); `W` is ignored (R76). -/

namespace Sys2Proof.Machine

/-- `VSUBPD xmm1, xmm2, xmm3/m128`, two-byte VEX (R150). -/
def execVsubpdXmmVex2 (p : Vex2) (t : Tail) (s : State) : Result :=
  (vexOperation s .f2 p.r false false p.vvvv t (Instr.vsubpdXmmVex2 p t).length).run s

/-- `VSUBPD xmm1, xmm2, xmm3/m128`, three-byte VEX (R150). -/
def execVsubpdXmmVex3 (p : Vex3) (t : Tail) (s : State) : Result :=
  (vexOperation s .f2 p.r p.x p.b p.vvvv t (Instr.vsubpdXmmVex3 p t).length).run s

/-- `VSUBPD ymm1, ymm2, ymm3/m256`, two-byte VEX (R151). -/
def execVsubpdYmmVex2 (p : Vex2) (t : Tail) (s : State) : Result :=
  (vexOperation s .f3 p.r false false p.vvvv t (Instr.vsubpdYmmVex2 p t).length).run s

/-- `VSUBPD ymm1, ymm2, ymm3/m256`, three-byte VEX (R151). -/
def execVsubpdYmmVex3 (p : Vex3) (t : Tail) (s : State) : Result :=
  (vexOperation s .f3 p.r p.x p.b p.vvvv t (Instr.vsubpdYmmVex3 p t).length).run s

end Sys2Proof.Machine
end

