-- ==== Sys2Proof/Machine/Dispatch.lean ====
section
/-! DEFINITION. The dispatch: one arm per constructor of Instr, each a direct call of its meaning. -/

namespace Sys2Proof.Machine

def exec (i : Instr) (s : State) : Host.Outcome State Fault Refusal :=
  match i with
  | .subpd t => Sys2Proof.Machine.execSubpd t s
  | .subpdRex p t => Sys2Proof.Machine.execSubpdRex p t s
  | .vsubpdXmmVex2 p t => Sys2Proof.Machine.execVsubpdXmmVex2 p t s
  | .vsubpdXmmVex3 p t => Sys2Proof.Machine.execVsubpdXmmVex3 p t s
  | .vsubpdYmmVex2 p t => Sys2Proof.Machine.execVsubpdYmmVex2 p t s
  | .vsubpdYmmVex3 p t => Sys2Proof.Machine.execVsubpdYmmVex3 p t s
  | .vsubpdXmmEvex p t => Sys2Proof.Machine.execVsubpdXmmEvex p t s
  | .vsubpdXmmEvexBcst p t => Sys2Proof.Machine.execVsubpdXmmEvexBcst p t s
  | .vsubpdXmmEvexBcstD32 p t => Sys2Proof.Machine.execVsubpdXmmEvexBcstD32 p t s
  | .vsubpdYmmEvex p t => Sys2Proof.Machine.execVsubpdYmmEvex p t s
  | .vsubpdYmmEvexBcst p t => Sys2Proof.Machine.execVsubpdYmmEvexBcst p t s
  | .vsubpdYmmEvexBcstD32 p t => Sys2Proof.Machine.execVsubpdYmmEvexBcstD32 p t s
  | .vsubpdZmmEvex p t => Sys2Proof.Machine.execVsubpdZmmEvex p t s
  | .vsubpdZmmEvexBcst p t => Sys2Proof.Machine.execVsubpdZmmEvexBcst p t s
  | .vsubpdZmmEvexBcstD32 p t => Sys2Proof.Machine.execVsubpdZmmEvexBcstD32 p t s
  | .vsubpdZmmEvexEr p rc t => Sys2Proof.Machine.execVsubpdZmmEvexEr p rc t s

end Sys2Proof.Machine
end

