-- ==== Sys2Proof/Machine/Step.lean ====
section
/-! DEFINITION. The step (60_exceptions.md R196): fetch at `pc`, decode (30_encoding.md R96), execute. -/

namespace Sys2Proof.Machine

/-- One step: the end of the run and the reserved MXCSR bits first (R216, U1), then fetch and decode, #UD
from the encoding (R184), and the instruction. -/
def step (s : State) : Host.Outcome State Fault Refusal :=
  match beforeFetch s with
  | some r => .refused r
  | none =>
    match decode s.mode (fetchBytes s) with
    | .instr i => exec i s
    | .ud => .fault (raise .ud s)
    | .reject r => .refused (.undecoded r)

/-- `s` with the instruction whose bits are `w` as its program text at `pc`, in `M64`, not at its end: the
next step fetches exactly it (log 6). -/
def State.withFetchWord (s : State) (nbits w : Nat) : State := placeWord s nbits w

end Sys2Proof.Machine
end

