-- ==== Sys2Proof/Safety.lean ====
section
/-! DEFINITION. What counts as a safe run, and the terms claims are stated in: the operands of an
instruction by the rules that name them, the premise `Enabled` of R217, what may be read, what a completed
form leaves unchanged (R36), and the invariant of a machine state. -/

namespace Sys2Proof

open Machine

/-! ## The operands of an instruction -/

/-- The form of a row (R2). -/
def Instr.form : Instr → Form
  | .subpd _ => .f1
  | .subpdRex _ _ => .f1
  | .vsubpdXmmVex2 _ _ => .f2
  | .vsubpdXmmVex3 _ _ => .f2
  | .vsubpdYmmVex2 _ _ => .f3
  | .vsubpdYmmVex3 _ _ => .f3
  | .vsubpdXmmEvex _ _ => .f4
  | .vsubpdXmmEvexBcst _ _ => .f4
  | .vsubpdXmmEvexBcstD32 _ _ => .f4
  | .vsubpdYmmEvex _ _ => .f5
  | .vsubpdYmmEvexBcst _ _ => .f5
  | .vsubpdYmmEvexBcstD32 _ _ => .f5
  | .vsubpdZmmEvex _ _ => .f6
  | .vsubpdZmmEvexBcst _ _ => .f6
  | .vsubpdZmmEvexBcstD32 _ _ => .f6
  | .vsubpdZmmEvexEr _ _ _ => .f6

/-- The destination: `ModRM:reg` (R73, R76, R80). -/
def Instr.dstNum : Instr → BitVec 5
  | .subpd t => regNum false t.modrm.reg
  | .subpdRex p t => regNum p.r t.modrm.reg
  | .vsubpdXmmVex2 p t => regNum p.r t.modrm.reg
  | .vsubpdXmmVex3 p t => regNum p.r t.modrm.reg
  | .vsubpdYmmVex2 p t => regNum p.r t.modrm.reg
  | .vsubpdYmmVex3 p t => regNum p.r t.modrm.reg
  | .vsubpdXmmEvex p t => regNum5 p.rp p.r t.modrm.reg
  | .vsubpdXmmEvexBcst p t => regNum5 p.rp p.r t.modrm.reg
  | .vsubpdXmmEvexBcstD32 p t => regNum5 p.rp p.r t.modrm.reg
  | .vsubpdYmmEvex p t => regNum5 p.rp p.r t.modrm.reg
  | .vsubpdYmmEvexBcst p t => regNum5 p.rp p.r t.modrm.reg
  | .vsubpdYmmEvexBcstD32 p t => regNum5 p.rp p.r t.modrm.reg
  | .vsubpdZmmEvex p t => regNum5 p.rp p.r t.modrm.reg
  | .vsubpdZmmEvexBcst p t => regNum5 p.rp p.r t.modrm.reg
  | .vsubpdZmmEvexBcstD32 p t => regNum5 p.rp p.r t.modrm.reg
  | .vsubpdZmmEvexEr p _ t => regNum5 p.rp p.r t.modrm.reg

/-- The first source: the destination in form 1, else `vvvv` (R73, R76, R80). -/
def Instr.src1Num : Instr → BitVec 5
  | .subpd t => regNum false t.modrm.reg
  | .subpdRex p t => regNum p.r t.modrm.reg
  | .vsubpdXmmVex2 p _ => vvvvNum p.vvvv
  | .vsubpdXmmVex3 p _ => vvvvNum p.vvvv
  | .vsubpdYmmVex2 p _ => vvvvNum p.vvvv
  | .vsubpdYmmVex3 p _ => vvvvNum p.vvvv
  | .vsubpdXmmEvex p _ => vvvvNum5 p.vp p.vvvv
  | .vsubpdXmmEvexBcst p _ => vvvvNum5 p.vp p.vvvv
  | .vsubpdXmmEvexBcstD32 p _ => vvvvNum5 p.vp p.vvvv
  | .vsubpdYmmEvex p _ => vvvvNum5 p.vp p.vvvv
  | .vsubpdYmmEvexBcst p _ => vvvvNum5 p.vp p.vvvv
  | .vsubpdYmmEvexBcstD32 p _ => vvvvNum5 p.vp p.vvvv
  | .vsubpdZmmEvex p _ => vvvvNum5 p.vp p.vvvv
  | .vsubpdZmmEvexBcst p _ => vvvvNum5 p.vp p.vvvv
  | .vsubpdZmmEvexBcstD32 p _ => vvvvNum5 p.vp p.vvvv
  | .vsubpdZmmEvexEr p _ _ => vvvvNum5 p.vp p.vvvv

/-- The second source when it is a register: `ModRM:r/m` (R73, R76, R80). -/
def Instr.rmNum : Instr → BitVec 5
  | .subpd t => regNum false t.modrm.rm
  | .subpdRex p t => regNum p.b t.modrm.rm
  | .vsubpdXmmVex2 _ t => regNum false t.modrm.rm
  | .vsubpdXmmVex3 p t => regNum p.b t.modrm.rm
  | .vsubpdYmmVex2 _ t => regNum false t.modrm.rm
  | .vsubpdYmmVex3 p t => regNum p.b t.modrm.rm
  | .vsubpdXmmEvex p t => regNum5 p.x p.b t.modrm.rm
  | .vsubpdXmmEvexBcst p t => regNum5 p.x p.b t.modrm.rm
  | .vsubpdXmmEvexBcstD32 p t => regNum5 p.x p.b t.modrm.rm
  | .vsubpdYmmEvex p t => regNum5 p.x p.b t.modrm.rm
  | .vsubpdYmmEvexBcst p t => regNum5 p.x p.b t.modrm.rm
  | .vsubpdYmmEvexBcstD32 p t => regNum5 p.x p.b t.modrm.rm
  | .vsubpdZmmEvex p t => regNum5 p.x p.b t.modrm.rm
  | .vsubpdZmmEvexBcst p t => regNum5 p.x p.b t.modrm.rm
  | .vsubpdZmmEvexBcstD32 p t => regNum5 p.x p.b t.modrm.rm
  | .vsubpdZmmEvexEr p _ t => regNum5 p.x p.b t.modrm.rm

/-- The index-extension bit `X` (R73 to R75, R80). -/
def Instr.extX : Instr → Bool
  | .subpd _ => false
  | .subpdRex p _ => p.x
  | .vsubpdXmmVex2 _ _ => false
  | .vsubpdXmmVex3 p _ => p.x
  | .vsubpdYmmVex2 _ _ => false
  | .vsubpdYmmVex3 p _ => p.x
  | .vsubpdXmmEvex p _ => p.x
  | .vsubpdXmmEvexBcst p _ => p.x
  | .vsubpdXmmEvexBcstD32 p _ => p.x
  | .vsubpdYmmEvex p _ => p.x
  | .vsubpdYmmEvexBcst p _ => p.x
  | .vsubpdYmmEvexBcstD32 p _ => p.x
  | .vsubpdZmmEvex p _ => p.x
  | .vsubpdZmmEvexBcst p _ => p.x
  | .vsubpdZmmEvexBcstD32 p _ => p.x
  | .vsubpdZmmEvexEr p _ _ => p.x

/-- The base-extension bit `B` (R73 to R75, R80). -/
def Instr.extB : Instr → Bool
  | .subpd _ => false
  | .subpdRex p _ => p.b
  | .vsubpdXmmVex2 _ _ => false
  | .vsubpdXmmVex3 p _ => p.b
  | .vsubpdYmmVex2 _ _ => false
  | .vsubpdYmmVex3 p _ => p.b
  | .vsubpdXmmEvex p _ => p.b
  | .vsubpdXmmEvexBcst p _ => p.b
  | .vsubpdXmmEvexBcstD32 p _ => p.b
  | .vsubpdYmmEvex p _ => p.b
  | .vsubpdYmmEvexBcst p _ => p.b
  | .vsubpdYmmEvexBcstD32 p _ => p.b
  | .vsubpdZmmEvex p _ => p.b
  | .vsubpdZmmEvexBcst p _ => p.b
  | .vsubpdZmmEvexBcstD32 p _ => p.b
  | .vsubpdZmmEvexEr p _ _ => p.b

/-- The writemask selector; 0 is no writemask (R82). -/
def Instr.aaa : Instr → BitVec 3
  | .subpd _ => 0
  | .subpdRex _ _ => 0
  | .vsubpdXmmVex2 _ _ => 0
  | .vsubpdXmmVex3 _ _ => 0
  | .vsubpdYmmVex2 _ _ => 0
  | .vsubpdYmmVex3 _ _ => 0
  | .vsubpdXmmEvex p _ => p.aaa
  | .vsubpdXmmEvexBcst p _ => p.aaa
  | .vsubpdXmmEvexBcstD32 p _ => p.aaa
  | .vsubpdYmmEvex p _ => p.aaa
  | .vsubpdYmmEvexBcst p _ => p.aaa
  | .vsubpdYmmEvexBcstD32 p _ => p.aaa
  | .vsubpdZmmEvex p _ => p.aaa
  | .vsubpdZmmEvexBcst p _ => p.aaa
  | .vsubpdZmmEvexBcstD32 p _ => p.aaa
  | .vsubpdZmmEvexEr p _ _ => p.aaa

/-- Zeroing-masking (R82). -/
def Instr.zeroing : Instr → Bool
  | .subpd _ => false
  | .subpdRex _ _ => false
  | .vsubpdXmmVex2 _ _ => false
  | .vsubpdXmmVex3 _ _ => false
  | .vsubpdYmmVex2 _ _ => false
  | .vsubpdYmmVex3 _ _ => false
  | .vsubpdXmmEvex p _ => p.z
  | .vsubpdXmmEvexBcst p _ => p.z
  | .vsubpdXmmEvexBcstD32 p _ => p.z
  | .vsubpdYmmEvex p _ => p.z
  | .vsubpdYmmEvexBcst p _ => p.z
  | .vsubpdYmmEvexBcstD32 p _ => p.z
  | .vsubpdZmmEvex p _ => p.z
  | .vsubpdZmmEvexBcst p _ => p.z
  | .vsubpdZmmEvexBcstD32 p _ => p.z
  | .vsubpdZmmEvexEr p _ _ => p.z

/-- `EVEX.b` with a memory source: broadcast (R81). -/
def Instr.isBcst : Instr → Bool
  | .subpd _ => false
  | .subpdRex _ _ => false
  | .vsubpdXmmVex2 _ _ => false
  | .vsubpdXmmVex3 _ _ => false
  | .vsubpdYmmVex2 _ _ => false
  | .vsubpdYmmVex3 _ _ => false
  | .vsubpdXmmEvex _ _ => false
  | .vsubpdXmmEvexBcst _ _ => true
  | .vsubpdXmmEvexBcstD32 _ _ => true
  | .vsubpdYmmEvex _ _ => false
  | .vsubpdYmmEvexBcst _ _ => true
  | .vsubpdYmmEvexBcstD32 _ _ => true
  | .vsubpdZmmEvex _ _ => false
  | .vsubpdZmmEvexBcst _ _ => true
  | .vsubpdZmmEvexBcstD32 _ _ => true
  | .vsubpdZmmEvexEr _ _ _ => false

/-- Embedded rounding (R81). -/
def Instr.er : Instr → Option RoundMode
  | .subpd _ => none
  | .subpdRex _ _ => none
  | .vsubpdXmmVex2 _ _ => none
  | .vsubpdXmmVex3 _ _ => none
  | .vsubpdYmmVex2 _ _ => none
  | .vsubpdYmmVex3 _ _ => none
  | .vsubpdXmmEvex _ _ => none
  | .vsubpdXmmEvexBcst _ _ => none
  | .vsubpdXmmEvexBcstD32 _ _ => none
  | .vsubpdYmmEvex _ _ => none
  | .vsubpdYmmEvexBcst _ _ => none
  | .vsubpdYmmEvexBcstD32 _ _ => none
  | .vsubpdZmmEvex _ _ => none
  | .vsubpdZmmEvexBcst _ _ => none
  | .vsubpdZmmEvexBcstD32 _ _ => none
  | .vsubpdZmmEvexEr _ rc _ => some rc

/-- The second source is a register. -/
abbrev Instr.hasRegSource (i : Instr) : Prop := i.tail.modrm.mod = 3

/-- The address of the memory operand, by the function the meanings use (R87 to R91). -/
def Instr.ea (i : Instr) (s : State) : Nat :=
  (effAddr s i.extX i.extB i.tail i.length (dispScale i.form i.isBcst)).toNat

/-- Lane `j` of the second source (R53, R162). -/
def Instr.second (i : Instr) (s : State) (j : Nat) : Lane :=
  if i.tail.modrm.mod = 3 then lane (s.readV i.rmNum) j
  else if i.isBcst then Memory.lane s.mem (i.ea s)
  else Memory.lane s.mem (i.ea s + 8 * j)

/-- Lane `j` is active (R129, R161). -/
def Instr.laneActive (i : Instr) (s : State) (j : Nat) : Bool :=
  i.aaa == 0 || (s.readK i.aaa).getLsbD j

/-- The lane numbers of a form (R160). -/
def Instr.lanes (i : Instr) : List Nat := List.range (lanesOf i.form)

/-- What MXCSR alone gives `LaneSub` (R129). -/
def mxEnv (m : BitVec 32) : FpEnv := { rc := mxRc m, daz := mxDaz m, ftz := mxFtz m, um := mxUm m }

/-- `L_j` of R129: the first source's lane minus the second's, under MXCSR. -/
def Instr.laneSubOf (i : Instr) (s : State) (j : Nat) : LaneResult :=
  laneSub (mxEnv s.mxcsr) (lane (s.readV i.src1Num) j) (i.second s j)

/-- `L_j` of R130: under the instruction's rounding mode, `MXCSR.DAZ`, `MXCSR.FTZ` and underflow taken as
masked. -/
def Instr.erLaneSubOf (i : Instr) (rc : RoundMode) (s : State) (j : Nat) : LaneResult :=
  laneSub { rc := rc, daz := mxDaz s.mxcsr, ftz := mxFtz s.mxcsr, um := true }
    (lane (s.readV i.src1Num) j) (i.second s j)

/-- The flags one lane signals at the instruction (R129): its own, and UE when it is tiny and `UM = 0`. -/
def laneSignals (m : BitVec 32) (l : LaneResult) : BitVec 6 :=
  l.pre ||| l.post ||| (if !mxUm m && l.tiny then flagUE else 0)

/-- The exact difference `d` of two finite operands, the values after step 4 (R117, R119), in units of
2^-1074. -/
def exactDifference (daz : Bool) (a b : Lane) : Int :=
  scaledValue (dazOperand daz a) - scaledValue (dazOperand daz b)

/-- Lane `j` of the destination when every active lane `k` of it receives `v k` (R140, R150, R151, R161):
merged or zeroed where masked off, and above the vector length kept by form 1 and zero otherwise. -/
def Instr.destLane (i : Instr) (s : State) (v : Nat → Lane) (j : Nat) : Lane :=
  if j < lanesOf i.form then
    if i.laneActive s j then v j
    else if i.zeroing then 0 else lane (s.readV i.dstNum) j
  else if i.form = .f1 then lane (s.readV i.dstNum) j
  else 0

/-! ## When a form can run -/

/-- `Enabled(form)` (R217). -/
def enabled (f : Form) (s : State) : Bool :=
  let y := s.sys
  let h := s.features
  let e6 := h.hasAvx512f && y.cr4Osxsave && y.xcr0Sse && y.xcr0Avx && y.xcr0Opmask &&
    y.xcr0ZmmHi256 && y.xcr0Hi16Zmm && !y.cr0Ts
  match f with
  | .f1 => h.hasSse2 && !y.cr0Em && y.cr4Osfxsr && !y.cr0Ts
  | .f2 => h.hasAvx && y.cr4Osxsave && y.xcr0Sse && y.xcr0Avx && !y.cr0Ts
  | .f3 => h.hasAvx && y.cr4Osxsave && y.xcr0Sse && y.xcr0Avx && !y.cr0Ts
  | .f4 => e6 && h.hasAvx512vl
  | .f5 => e6 && h.hasAvx512vl
  | .f6 => e6

/-- The mode is one of the two of R3 and the instruction does not reach the top of the address space
(R30). -/
def Instr.inSpace (i : Instr) (s : State) : Bool :=
  s.mode != .other && decide (s.pc.toNat + i.length < addrSpace s.mode)

/-- The instruction is in the address space and its form is enabled. -/
def Instr.runnable (i : Instr) (s : State) : Bool := i.inSpace s && enabled i.form s

/-- `n` bytes at `a` can be read: `MEM_ACCESS` answers ok (R56), the bytes exist (R50), and none is a
location whose reads have side effects (R54). -/
def readable (s : State) (a n : Nat) : Bool :=
  (memAccess s.sys s.access a n).isNone && decide (a + n ≤ addrSpace s.mode) &&
    !s.devices.any fun r => Region.touches r a n

/-- No active lane signals an unmasked exception (R129: neither `trapP` nor `trapQ`). -/
def Instr.quiet (i : Instr) (s : State) : Bool :=
  i.lanes.all fun j =>
    !i.laneActive s j || laneSignals s.mxcsr (i.laneSubOf s j) &&& ~~~(mxMasks s.mxcsr) == 0

/-- The event of reading `n` bytes at `a` (R62). -/
def readEvent (s : State) (a n : Nat) : ReadEvent :=
  { addr := a, width := n, bytes := Memory.bytes s.mem a n }

/-- The bytes a memory operand takes (R52): 8 under broadcast, else `VL / 8`. -/
def Instr.operandWidth (i : Instr) : Nat := if i.isBcst then 8 else 8 * lanesOf i.form

/-- Fault suppression is in force: the parameter is true and the form has a writemask (R58). -/
def Instr.suppressed (i : Instr) (s : State) : Bool := s.faultSuppression && i.aaa != 0

/-- The active lanes, in order. -/
def Instr.activeLanes (i : Instr) (s : State) : List Nat := i.lanes.filter fun j => i.laneActive s j

/-- The reads the second source makes when it can be read, `none` when it cannot (R52 to R58). -/
def Instr.sourceEvents (i : Instr) (s : State) : Option (List ReadEvent) :=
  let a := i.ea s
  if i.tail.modrm.mod = 3 then some []
  else if i.form = .f1 ∧ a % 16 ≠ 0 then none
  else if i.suppressed s && i.isBcst && (i.activeLanes s).isEmpty then some []
  else if i.suppressed s && !i.isBcst then
    if (i.activeLanes s).all fun j => readable s (a + 8 * j) 8 then
      some ((i.activeLanes s).map fun j => readEvent s (a + 8 * j) 8)
    else none
  else if readable s a i.operandWidth then some [readEvent s a i.operandWidth]
  else none

/-! ## What a completed form leaves -/

/-- Everything R36 says a form never writes: the other vector registers, the opmask registers, the general
registers, `SYS`, MXCSR bits 31:6, memory byte by byte, and the parameters of the run. -/
def Unchanged (d : BitVec 5) (s t : State) : Prop :=
  (∀ n, n ≠ d → t.readV n = s.readV n) ∧ t.opmask = s.opmask ∧ t.gpr = s.gpr ∧ t.sys = s.sys ∧
  (∀ k, 6 ≤ k → t.mxcsr.getLsbD k = s.mxcsr.getLsbD k) ∧
  (∀ a, Memory.read t.mem a = Memory.read s.mem a) ∧
  (∀ a, Memory.read t.text a = Memory.read s.text a) ∧
  t.mode = s.mode ∧ t.features = s.features ∧ t.faultSuppression = s.faultSuppression ∧
  t.stop = s.stop ∧ t.access = s.access ∧ t.devices = s.devices

/-- The flags of `t` are those of `s` and every flag an active lane signals (R129: the union, sticky). -/
def Instr.flagsJoined (i : Instr) (s t : State) : Prop :=
  ∀ k, k < 6 → (t.mxcsr.getLsbD k = true ↔ s.mxcsr.getLsbD k = true ∨
    ∃ j, j < lanesOf i.form ∧ i.laneActive s j = true ∧
      (laneSignals s.mxcsr (i.laneSubOf s j)).getLsbD k = true)

/-- The instruction completes: the destination holds its lanes' differences (`destLane`), the flags are
joined, `pc` advances by the length, exactly the given reads were made, and nothing else changed. -/
def Instr.CompletesNormally (i : Instr) (s : State) (events : List ReadEvent) : Prop :=
  ∃ t, exec i s = .next t ∧
    (∀ j, j < 8 → lane (t.readV i.dstNum) j = i.destLane s (fun k => (i.laneSubOf s k).r) j) ∧
    i.flagsJoined s t ∧ t.pc = s.pc + BitVec.ofNat 64 i.length ∧
    t.reads = s.reads ++ events ∧ t.draws = s.draws ∧ Unchanged i.dstNum s t

/-! ## The invariant of a machine state -/

/-- A state of the machine: memory and program text in canonical form, MXCSR bits 31:16 zero (R26), `pc`
inside the address space (R29, R50), and every read of the event history returned the bytes memory holds,
in one of the operand widths (R52, R62). -/
def StateInv (s : State) : Prop :=
  Memory.wf s.mem = true ∧ Memory.wf s.text = true ∧ s.mxcsr.extractLsb' 16 16 = 0 ∧
  s.pc.toNat < addrSpace s.mode ∧
  ∀ e ∈ s.reads, e.bytes = Memory.bytes s.mem e.addr e.width ∧ e.width ∈ [8, 16, 32, 64]

/-- A run is safe for `k` steps when none of them ends in a fault. -/
def SafeRun (k : Nat) (s : State) : Prop := ∀ f, Host.Core.run core k s ≠ .fault f

end Sys2Proof
end

