-- ==== Sys2Proof/Laws/State.lean ====
section
/-! SUPPORT. The small lemmas of State: one per field per update. -/

namespace Sys2Proof.Machine

@[simp] theorem writeV_opmask (s : State) (n : BitVec 5) (v : VReg) : (s.writeV n v).opmask = s.opmask := rfl
@[simp] theorem writeV_mxcsr (s : State) (n : BitVec 5) (v : VReg) : (s.writeV n v).mxcsr = s.mxcsr := rfl
@[simp] theorem writeV_pc (s : State) (n : BitVec 5) (v : VReg) : (s.writeV n v).pc = s.pc := rfl
@[simp] theorem writeV_gpr (s : State) (n : BitVec 5) (v : VReg) : (s.writeV n v).gpr = s.gpr := rfl
@[simp] theorem writeV_sys (s : State) (n : BitVec 5) (v : VReg) : (s.writeV n v).sys = s.sys := rfl
@[simp] theorem writeV_mode (s : State) (n : BitVec 5) (v : VReg) : (s.writeV n v).mode = s.mode := rfl
@[simp] theorem writeV_features (s : State) (n : BitVec 5) (v : VReg) : (s.writeV n v).features = s.features := rfl
@[simp] theorem writeV_faultSuppression (s : State) (n : BitVec 5) (v : VReg) : (s.writeV n v).faultSuppression = s.faultSuppression := rfl
@[simp] theorem writeV_stop (s : State) (n : BitVec 5) (v : VReg) : (s.writeV n v).stop = s.stop := rfl
@[simp] theorem writeV_text (s : State) (n : BitVec 5) (v : VReg) : (s.writeV n v).text = s.text := rfl
@[simp] theorem writeV_mem (s : State) (n : BitVec 5) (v : VReg) : (s.writeV n v).mem = s.mem := rfl
@[simp] theorem writeV_access (s : State) (n : BitVec 5) (v : VReg) : (s.writeV n v).access = s.access := rfl
@[simp] theorem writeV_devices (s : State) (n : BitVec 5) (v : VReg) : (s.writeV n v).devices = s.devices := rfl
@[simp] theorem writeV_reads (s : State) (n : BitVec 5) (v : VReg) : (s.writeV n v).reads = s.reads := rfl
@[simp] theorem writeV_draws (s : State) (n : BitVec 5) (v : VReg) : (s.writeV n v).draws = s.draws := rfl

@[simp] theorem complete_vec (o : Operation) (s : State) (src : SourceRead) (m : BitVec 32) : (o.complete s src m).vec = (s.writeV o.dst (o.newDst s src.lane)).vec := rfl
@[simp] theorem complete_opmask (o : Operation) (s : State) (src : SourceRead) (m : BitVec 32) : (o.complete s src m).opmask = s.opmask := rfl
@[simp] theorem complete_mxcsr (o : Operation) (s : State) (src : SourceRead) (m : BitVec 32) : (o.complete s src m).mxcsr = m := rfl
@[simp] theorem complete_pc (o : Operation) (s : State) (src : SourceRead) (m : BitVec 32) : (o.complete s src m).pc = s.pc + BitVec.ofNat 64 o.len := rfl
@[simp] theorem complete_gpr (o : Operation) (s : State) (src : SourceRead) (m : BitVec 32) : (o.complete s src m).gpr = s.gpr := rfl
@[simp] theorem complete_sys (o : Operation) (s : State) (src : SourceRead) (m : BitVec 32) : (o.complete s src m).sys = s.sys := rfl
@[simp] theorem complete_mode (o : Operation) (s : State) (src : SourceRead) (m : BitVec 32) : (o.complete s src m).mode = s.mode := rfl
@[simp] theorem complete_features (o : Operation) (s : State) (src : SourceRead) (m : BitVec 32) : (o.complete s src m).features = s.features := rfl
@[simp] theorem complete_faultSuppression (o : Operation) (s : State) (src : SourceRead) (m : BitVec 32) : (o.complete s src m).faultSuppression = s.faultSuppression := rfl
@[simp] theorem complete_stop (o : Operation) (s : State) (src : SourceRead) (m : BitVec 32) : (o.complete s src m).stop = s.stop := rfl
@[simp] theorem complete_text (o : Operation) (s : State) (src : SourceRead) (m : BitVec 32) : (o.complete s src m).text = s.text := rfl
@[simp] theorem complete_mem (o : Operation) (s : State) (src : SourceRead) (m : BitVec 32) : (o.complete s src m).mem = s.mem := rfl
@[simp] theorem complete_access (o : Operation) (s : State) (src : SourceRead) (m : BitVec 32) : (o.complete s src m).access = s.access := rfl
@[simp] theorem complete_devices (o : Operation) (s : State) (src : SourceRead) (m : BitVec 32) : (o.complete s src m).devices = s.devices := rfl
@[simp] theorem complete_reads (o : Operation) (s : State) (src : SourceRead) (m : BitVec 32) : (o.complete s src m).reads = s.reads ++ src.events := rfl
@[simp] theorem complete_draws (o : Operation) (s : State) (src : SourceRead) (m : BitVec 32) : (o.complete s src m).draws = if o.er.isSome then s.draws + 1 else s.draws := rfl

@[simp] theorem trapState_vec (s : State) (src : SourceRead) (m : BitVec 32) : (trapState s src m).vec = s.vec := rfl
@[simp] theorem trapState_opmask (s : State) (src : SourceRead) (m : BitVec 32) : (trapState s src m).opmask = s.opmask := rfl
@[simp] theorem trapState_mxcsr (s : State) (src : SourceRead) (m : BitVec 32) : (trapState s src m).mxcsr = m := rfl
@[simp] theorem trapState_pc (s : State) (src : SourceRead) (m : BitVec 32) : (trapState s src m).pc = s.pc := rfl
@[simp] theorem trapState_gpr (s : State) (src : SourceRead) (m : BitVec 32) : (trapState s src m).gpr = s.gpr := rfl
@[simp] theorem trapState_sys (s : State) (src : SourceRead) (m : BitVec 32) : (trapState s src m).sys = s.sys := rfl
@[simp] theorem trapState_mode (s : State) (src : SourceRead) (m : BitVec 32) : (trapState s src m).mode = s.mode := rfl
@[simp] theorem trapState_features (s : State) (src : SourceRead) (m : BitVec 32) : (trapState s src m).features = s.features := rfl
@[simp] theorem trapState_faultSuppression (s : State) (src : SourceRead) (m : BitVec 32) : (trapState s src m).faultSuppression = s.faultSuppression := rfl
@[simp] theorem trapState_stop (s : State) (src : SourceRead) (m : BitVec 32) : (trapState s src m).stop = s.stop := rfl
@[simp] theorem trapState_text (s : State) (src : SourceRead) (m : BitVec 32) : (trapState s src m).text = s.text := rfl
@[simp] theorem trapState_mem (s : State) (src : SourceRead) (m : BitVec 32) : (trapState s src m).mem = s.mem := rfl
@[simp] theorem trapState_access (s : State) (src : SourceRead) (m : BitVec 32) : (trapState s src m).access = s.access := rfl
@[simp] theorem trapState_devices (s : State) (src : SourceRead) (m : BitVec 32) : (trapState s src m).devices = s.devices := rfl
@[simp] theorem trapState_reads (s : State) (src : SourceRead) (m : BitVec 32) : (trapState s src m).reads = s.reads ++ src.events := rfl
@[simp] theorem trapState_draws (s : State) (src : SourceRead) (m : BitVec 32) : (trapState s src m).draws = s.draws := rfl

@[simp] theorem withFetchWord_vec (s : State) (nbits w : Nat) : (s.withFetchWord nbits w).vec = s.vec := rfl
@[simp] theorem withFetchWord_opmask (s : State) (nbits w : Nat) : (s.withFetchWord nbits w).opmask = s.opmask := rfl
@[simp] theorem withFetchWord_mxcsr (s : State) (nbits w : Nat) : (s.withFetchWord nbits w).mxcsr = s.mxcsr := rfl
@[simp] theorem withFetchWord_pc (s : State) (nbits w : Nat) : (s.withFetchWord nbits w).pc = s.pc := rfl
@[simp] theorem withFetchWord_gpr (s : State) (nbits w : Nat) : (s.withFetchWord nbits w).gpr = s.gpr := rfl
@[simp] theorem withFetchWord_sys (s : State) (nbits w : Nat) : (s.withFetchWord nbits w).sys = s.sys := rfl
@[simp] theorem withFetchWord_mode (s : State) (nbits w : Nat) : (s.withFetchWord nbits w).mode = .m64 := rfl
@[simp] theorem withFetchWord_features (s : State) (nbits w : Nat) : (s.withFetchWord nbits w).features = s.features := rfl
@[simp] theorem withFetchWord_faultSuppression (s : State) (nbits w : Nat) : (s.withFetchWord nbits w).faultSuppression = s.faultSuppression := rfl
@[simp] theorem withFetchWord_stop (s : State) (nbits w : Nat) : (s.withFetchWord nbits w).stop = if s.stop == some s.pc then none else s.stop := rfl
@[simp] theorem withFetchWord_text (s : State) (nbits w : Nat) : (s.withFetchWord nbits w).text = Memory.writeBytes s.text s.pc.toNat (bytesOfWord nbits w) := rfl
@[simp] theorem withFetchWord_mem (s : State) (nbits w : Nat) : (s.withFetchWord nbits w).mem = s.mem := rfl
@[simp] theorem withFetchWord_access (s : State) (nbits w : Nat) : (s.withFetchWord nbits w).access = s.access := rfl
@[simp] theorem withFetchWord_devices (s : State) (nbits w : Nat) : (s.withFetchWord nbits w).devices = s.devices := rfl
@[simp] theorem withFetchWord_reads (s : State) (nbits w : Nat) : (s.withFetchWord nbits w).reads = s.reads := rfl
@[simp] theorem withFetchWord_draws (s : State) (nbits w : Nat) : (s.withFetchWord nbits w).draws = s.draws := rfl

@[simp] theorem afterInit_vec (s : State) : (afterInit s).vec = s.vec := rfl
@[simp] theorem afterInit_opmask (s : State) : (afterInit s).opmask = s.opmask := rfl
@[simp] theorem afterInit_mxcsr (s : State) : (afterInit s).mxcsr = s.mxcsr := rfl
@[simp] theorem afterInit_pc (s : State) : (afterInit s).pc = resetPc := rfl
@[simp] theorem afterInit_gpr (s : State) : (afterInit s).gpr = resetGpr := rfl
@[simp] theorem afterInit_mode (s : State) : (afterInit s).mode = .other := rfl
@[simp] theorem afterInit_features (s : State) : (afterInit s).features = s.features := rfl
@[simp] theorem afterInit_faultSuppression (s : State) : (afterInit s).faultSuppression = s.faultSuppression := rfl
@[simp] theorem afterInit_stop (s : State) : (afterInit s).stop = s.stop := rfl
@[simp] theorem afterInit_text (s : State) : (afterInit s).text = s.text := rfl
@[simp] theorem afterInit_mem (s : State) : (afterInit s).mem = s.mem := rfl
@[simp] theorem afterInit_access (s : State) : (afterInit s).access = s.access := rfl
@[simp] theorem afterInit_devices (s : State) : (afterInit s).devices = s.devices := rfl
@[simp] theorem afterInit_reads (s : State) : (afterInit s).reads = s.reads := rfl
@[simp] theorem afterInit_draws (s : State) : (afterInit s).draws = s.draws := rfl

@[simp] theorem raise_state (e : Exn) (s : State) : (raise e s).state = s := rfl

/-- Writing a register and reading it gives the value written. -/
@[simp] theorem readV_writeV_same (s : State) (n : BitVec 5) (v : VReg) :
    (s.writeV n v).readV n = v := by
  simp [State.readV, State.writeV]

/-- Writing a register leaves every other register alone. -/
theorem readV_writeV_other (s : State) (n k : BitVec 5) (v : VReg) (h : k ≠ n) :
    (s.writeV n v).readV k = s.readV k := by
  have : n.toNat ≠ k.toNat := fun e => h (BitVec.eq_of_toNat_eq e.symm)
  simp [State.readV, State.writeV, this]

/-- Reading a vector register sees `vec` alone. -/
theorem readV_congr {s t : State} (h : t.vec = s.vec) (n : BitVec 5) : t.readV n = s.readV n := by
  simp [State.readV, h]

end Sys2Proof.Machine
end

