-- ==== Sys2Proof/Laws/Memory.lean ====
section
/-! SUPPORT. Memory: read after write, and every memory operation keeps the canonical form. -/

namespace Sys2Proof.Machine

@[simp] theorem Memory.read_nil (a : Nat) : Memory.read [] a = unlistedByte := rfl

theorem Memory.read_cons (k : Nat) (v : Byte) (rest : Memory) (a : Nat) :
    Memory.read ((k, v) :: rest) a = if k = a then v else Memory.read rest a := by
  simp [Memory.read]

/-- A form that holds above a bound holds above a smaller one. -/
theorem Memory.wfAbove_mono {m : Memory} {lo : Option Nat} {l : Nat}
    (h : Memory.wfAbove (some l) m = true) (hl : ∀ b, lo = some b → b ≤ l) :
    Memory.wfAbove lo m = true := by
  cases m with
  | nil => rfl
  | cons e rest =>
    obtain ⟨k, v⟩ := e
    cases lo with
    | none => simp_all [Memory.wfAbove]
    | some b =>
      have := hl b rfl
      simp_all [Memory.wfAbove]
      omega

/-- An address at or below the bound is not listed. -/
theorem Memory.read_below {m : Memory} {l a : Nat} (h : Memory.wfAbove (some l) m = true)
    (ha : a ≤ l) : Memory.read m a = unlistedByte := by
  induction m generalizing l with
  | nil => rfl
  | cons e rest ih =>
    obtain ⟨k, v⟩ := e
    simp only [Memory.wfAbove, Bool.and_eq_true, decide_eq_true_eq] at h
    rw [Memory.read_cons, if_neg (by omega)]
    exact ih h.2 (by omega)

/-- A write keeps the canonical form above a bound below the address written. -/
theorem Memory.write_wfAbove {m : Memory} {lo : Option Nat} (a : Nat) (v : Byte)
    (h : Memory.wfAbove lo m = true) (hlo : ∀ b, lo = some b → b < a) :
    Memory.wfAbove lo (Memory.write m a v) = true := by
  induction m generalizing lo with
  | nil =>
    by_cases hv : v = unlistedByte
    · simp [Memory.write, hv, Memory.wfAbove]
    · cases lo with
      | none => simp [Memory.write, hv, Memory.wfAbove]
      | some b => simp [Memory.write, hv, Memory.wfAbove, hlo b rfl]
  | cons e rest ih =>
    obtain ⟨k, w⟩ := e
    have h' := h
    simp only [Memory.wfAbove, Bool.and_eq_true] at h
    obtain ⟨⟨hk, hw⟩, hrest⟩ := h
    simp only [Memory.write]
    by_cases h1 : a < k
    · simp only [h1, if_true]
      by_cases hv : v = unlistedByte
      · simpa [hv] using h'
      · cases lo with
        | none => simp_all [Memory.wfAbove]
        | some b => simp_all [Memory.wfAbove]
    · simp only [h1, if_false]
      by_cases h2 : a = k
      · subst h2
        by_cases hv : v = unlistedByte
        · simp only [hv, beq_self_eq_true, if_true]
          exact Memory.wfAbove_mono hrest fun b hb => (hlo b hb).le
        · simp_all [Memory.wfAbove]
      · have h3 : (a == k) = false := by simp [h2]
        simp only [h3, Bool.false_eq_true, if_false, Memory.wfAbove, Bool.and_eq_true]
        exact ⟨⟨hk, hw⟩, ih hrest fun b hb => by
          have : k = b := by simpa using hb
          omega⟩

/-- A write keeps the canonical form. -/
theorem Memory.write_wf {m : Memory} (a : Nat) (v : Byte) (h : Memory.wf m = true) :
    Memory.wf (Memory.write m a v) = true :=
  Memory.write_wfAbove a v h fun _ hb => by simp at hb

/-- Writing many bytes keeps the canonical form. -/
theorem Memory.writeBytes_wf {m : Memory} (a : Nat) (vs : List Byte) (h : Memory.wf m = true) :
    Memory.wf (Memory.writeBytes m a vs) = true := by
  induction vs generalizing m a with
  | nil => exact h
  | cons v vs ih => exact ih (a + 1) (Memory.write_wf a v h)

/-- The byte read after a write, above a bound. -/
theorem Memory.read_write_above {m : Memory} {lo : Option Nat} (a : Nat) (v : Byte) (b : Nat)
    (h : Memory.wfAbove lo m = true) :
    Memory.read (Memory.write m a v) b = if b = a then v else Memory.read m b := by
  induction m generalizing lo with
  | nil =>
    by_cases hv : v = unlistedByte
    · simp [Memory.write, hv]
    · have e : Memory.write [] a v = [(a, v)] := by simp [Memory.write, hv]
      rw [e, Memory.read_cons]
      by_cases hb : b = a
      · rw [if_pos hb.symm, if_pos hb]
      · rw [if_neg (Ne.symm hb), if_neg hb]
  | cons e rest ih =>
    obtain ⟨k, w⟩ := e
    simp only [Memory.wfAbove, Bool.and_eq_true] at h
    obtain ⟨_, hrest⟩ := h
    simp only [Memory.write]
    by_cases h1 : a < k
    · simp only [h1, if_true]
      by_cases hv : v = unlistedByte
      · simp only [hv, beq_self_eq_true, if_true]
        by_cases hb : b = a
        · subst hb
          rw [if_pos rfl, Memory.read_cons, if_neg (by omega)]
          exact Memory.read_below hrest (by omega)
        · rw [if_neg hb]
      · simp only [beq_iff_eq, hv, if_false, Memory.read_cons]
        by_cases hb : b = a
        · rw [if_pos hb.symm, if_pos hb]
        · rw [if_neg (Ne.symm hb), if_neg hb]
    · simp only [h1, if_false]
      by_cases h2 : a = k
      · subst h2
        by_cases hv : v = unlistedByte
        · simp only [hv, beq_self_eq_true, if_true]
          by_cases hb : b = a
          · subst hb
            rw [if_pos rfl]
            exact Memory.read_below hrest le_rfl
          · rw [if_neg hb, Memory.read_cons, if_neg (Ne.symm hb)]
        · simp only [beq_self_eq_true, if_true, beq_iff_eq, hv, if_false, Memory.read_cons]
          by_cases hb : b = a
          · subst hb; simp
          · rw [if_neg (Ne.symm hb), if_neg hb, if_neg (Ne.symm hb)]
      · have h3 : (a == k) = false := by simp [h2]
        simp only [h3, Bool.false_eq_true, if_false, Memory.read_cons]
        by_cases hb : k = b
        · subst hb; rw [if_pos rfl, if_neg (Ne.symm h2), if_pos rfl]
        · rw [if_neg hb, ih hrest, if_neg hb]

/-- Read after write: the address written gives the value written, every other address is left alone. -/
theorem Memory.read_write {m : Memory} (h : Memory.wf m = true) (a : Nat) (v : Byte) (b : Nat) :
    Memory.read (Memory.write m a v) b = if b = a then v else Memory.read m b :=
  Memory.read_write_above a v b h

/-- Reading after writing many bytes: inside them the byte of the list, outside what stood there. -/
theorem Memory.read_writeBytes {m : Memory} (h : Memory.wf m = true) (a : Nat) (vs : List Byte)
    (b : Nat) :
    Memory.read (Memory.writeBytes m a vs) b =
      if hb : a ≤ b ∧ b < a + vs.length then vs[b - a]'(by omega) else Memory.read m b := by
  induction vs generalizing m a with
  | nil => simp [Memory.writeBytes]
  | cons v vs ih =>
    simp only [Memory.writeBytes, ih (Memory.write_wf a v h), Memory.read_write h, List.length_cons]
    by_cases h1 : b = a
    · subst h1; simp
    · by_cases h2 : a + 1 ≤ b ∧ b < a + 1 + vs.length
      · have h3 : a ≤ b ∧ b < a + (vs.length + 1) := by omega
        obtain ⟨d, rfl⟩ : ∃ d, b = a + 1 + d := ⟨b - (a + 1), by omega⟩
        have e1 : a + 1 + d - a = d + 1 := by omega
        have e2 : a + 1 + d - (a + 1) = d := by omega
        simp [h2, h3, e1, e2]
      · have h3 : ¬(a ≤ b ∧ b < a + (vs.length + 1)) := by omega
        rw [dif_neg h2, if_neg h1, dif_neg h3]

/-- The memory after reset is in canonical form. -/
theorem reset_mem_wf : Memory.wf State.reset.mem = true := rfl

/-- The program text after reset is in canonical form. -/
theorem reset_text_wf : Memory.wf State.reset.text = true := rfl

@[simp] theorem Memory.bytes_length (m : Memory) (a n : Nat) : (Memory.bytes m a n).length = n := by
  simp [Memory.bytes]

/-- `MEM_ACCESS` answers #AC only under the condition of R189. -/
theorem memAccess_ac {y : Sys} {t : AccessMap} {a n : Nat} (h : memAccess y t a n = some .ac) :
    acPossible y a n = true := by
  unfold memAccess at h
  split at h
  · simp at h
  · split at h <;> simp_all

/-- What can be read `MEM_ACCESS` answers ok. -/
theorem memAccess_of_readable {s : State} {a n : Nat} (h : readable s a n = true) :
    memAccess s.sys s.access a n = none := by
  simp only [readable, Bool.and_eq_true, Option.isNone_iff_eq_none] at h
  exact h.1.1

/-- What `MemRead` can do: it reads, when the bytes are readable; or it ends in the fault that
`MEM_ACCESS` answers, or in the refusal of bytes that do not exist or of a device. -/
theorem memRead_cases (s : State) (a n : Nat) :
    (readable s a n = true ∧ memRead s a n = .ok (readEvent s a n)) ∨
    (readable s a n = false ∧ ∃ e, memRead s a n = .error e ∧
      ((∃ f, memAccess s.sys s.access a n = some f ∧
          e = .fault (raise (AccessFault.exn f) s)) ∨
        (memAccess s.sys s.access a n = none ∧ addrSpace s.mode < a + n ∧
          e = .refusal .operandPastAddressSpace) ∨
        (memAccess s.sys s.access a n = none ∧ a + n ≤ addrSpace s.mode ∧
          e = .refusal .deviceRead))) := by
  cases hm : memAccess s.sys s.access a n with
  | some f =>
    exact .inr ⟨by simp [readable, hm], _, by simp [memRead, hm], .inl ⟨f, rfl, rfl⟩⟩
  | none =>
    by_cases hs : addrSpace s.mode < a + n
    · refine .inr ⟨?_, _, ?_, .inr (.inl ⟨rfl, hs, rfl⟩)⟩
      · simp [readable, hm]; omega
      · simp [memRead, hm, hs]
    · have hs' : a + n ≤ addrSpace s.mode := by omega
      cases hd : s.devices.any fun r => Region.touches r a n with
      | true =>
        refine .inr ⟨?_, _, ?_, .inr (.inr ⟨rfl, hs', rfl⟩)⟩
        · simp [readable, hd]
        · simp only [memRead, hm, hs, hd, if_true, if_false]
      | false =>
        refine .inl ⟨?_, ?_⟩
        · simp only [readable, hm, hd]; simpa using hs'
        · simp only [memRead, hm, hs, hd, if_false, Bool.false_eq_true]; rfl

end Sys2Proof.Machine
end

