-- ==== Sys2Proof/Laws/Run.lean ====
section
/-! SUPPORT. What the shared operations can do, said once: lanes of a vector, the flag unions, the read of
the second source, the procedure every form runs, and `exec` as that procedure on the instruction's
operands. -/

namespace Sys2Proof.Machine

/-! ## Lanes -/

/-- Lane `j` of the vector made of a list of lanes. -/
theorem lane_ofLanes (l : List Lane) (j : Nat) (hj : j < 8) : lane (ofLanes l) j = l.getD j 0 := by
  induction l generalizing j with
  | nil => simp [ofLanes, lane]
  | cons x xs ih =>
    cases j with
    | zero =>
      apply BitVec.eq_of_getLsbD_eq
      intro i hi
      simp [ofLanes, lane, show i < 512 by omega, hi]
    | succ j =>
      rw [List.getD_cons_succ, ← ih j (by omega)]
      apply BitVec.eq_of_getLsbD_eq
      intro i hi
      simp only [lane, ofLanes, BitVec.getLsbD_extractLsb', BitVec.getLsbD_or,
        BitVec.getLsbD_shiftLeft, BitVec.getLsbD_setWidth]
      have h1 : 64 * (j + 1) + i < 512 := by omega
      have h2 : ¬ 64 * (j + 1) + i < 64 := by omega
      have h3 : 64 * (j + 1) + i - 64 = 64 * j + i := by omega
      have h4 : x.getLsbD (64 * (j + 1) + i) = false := BitVec.getLsbD_of_ge _ _ (by omega)
      simp only [hi, h1, h2, h3, h4, decide_true, decide_false, Bool.not_false, Bool.true_and,
        Bool.and_false, Bool.or_false]

/-- Two vectors with the same eight lanes are equal. -/
theorem eq_of_lanes {v w : VReg} (h : ∀ j, j < 8 → lane v j = lane w j) : v = w := by
  apply BitVec.eq_of_getLsbD_eq
  intro i hi
  have hl := h (i / 64) (by omega)
  have := congrArg (fun x : Lane => x.getLsbD (i % 64)) hl
  simpa [lane, show i % 64 < 64 by omega, show 64 * (i / 64) + i % 64 = i by omega] using this

/-- The destination lanes a completed operation leaves. -/
theorem lane_newDst (o : Operation) (s : State) (src : Nat → Lane) (j : Nat) (hj : j < 8) :
    lane (o.newDst s src) j = o.newLane s src j := by
  rw [Operation.newDst, lane_ofLanes _ _ hj]
  simp [hj]

/-! ## Flag unions -/

/-- A flag of a union over a list is a flag of some member. -/
theorem getLsbD_foldr_or {α : Type} (l : List α) (f : α → BitVec 6) (k : Nat) :
    (l.foldr (fun j acc => f j ||| acc) 0).getLsbD k = true ↔ ∃ j ∈ l, (f j).getLsbD k = true := by
  induction l with
  | nil => simp
  | cons x xs ih =>
    rw [List.foldr_cons, BitVec.getLsbD_or, Bool.or_eq_true, ih]
    simp

/-- The active lanes of an operation. -/
theorem mem_activeLanes (o : Operation) (s : State) (j : Nat) :
    j ∈ o.activeLanes s ↔ j < lanesOf o.form ∧ o.active s j = true := by
  simp [Operation.activeLanes]

/-- A flag is signalled when an active lane signals it. -/
theorem getLsbD_signalled (o : Operation) (s : State) (src : Nat → Lane) (k : Nat) :
    (o.signalled s src).getLsbD k = true ↔
      ∃ j, j < lanesOf o.form ∧ o.active s j = true ∧
        (laneSignals s.mxcsr (o.laneResult s src j)).getLsbD k = true := by
  simp only [Operation.signalled, BitVec.getLsbD_or, Bool.or_eq_true, Operation.pre, Operation.post,
    getLsbD_foldr_or, mem_activeLanes, Operation.lanePost, laneSignals]
  constructor
  · rintro (⟨j, ⟨h1, h2⟩, h⟩ | ⟨j, ⟨h1, h2⟩, h⟩)
    · exact ⟨j, h1, h2, .inl (.inl h)⟩
    · exact ⟨j, h1, h2, h.elim (fun h => .inl (.inr h)) .inr⟩
  · rintro ⟨j, h1, h2, (h | h) | h⟩
    · exact .inl ⟨j, ⟨h1, h2⟩, h⟩
    · exact .inr ⟨j, ⟨h1, h2⟩, .inl h⟩
    · exact .inr ⟨j, ⟨h1, h2⟩, .inr h⟩

/-! ## The second source -/

/-- The lanes of the second source of an operation, whether or not the read succeeds. -/
def Operation.sourceLane (o : Operation) (s : State) : Nat → Lane :=
  match o.src2 with
  | .reg n => lane (s.readV n)
  | .full ea => fun j => Memory.lane s.mem (ea.toNat + 8 * j)
  | .bcst ea => fun _ => Memory.lane s.mem ea.toNat

/-- An event of the operand's read: some bytes memory holds, in an operand width. -/
def OperandEvent (s : State) (e : ReadEvent) : Prop :=
  ∃ a n, e = readEvent s a n ∧ n ∈ [8, 16, 32, 64]

/-- A stop of the operand's read leaves the state as it is and is no floating-point exception. -/
def SourceStop (s : State) (e : Stop) : Prop :=
  (∃ x, e = .fault (.raised x s) ∧ x ≠ .xm ∧ x ≠ .ud ∧ x ≠ .nm) ∨
    e = .refusal .operandPastAddressSpace ∨ e = .refusal .deviceRead

/-- A fault that `MEM_ACCESS` answers is a stop of the operand's read. -/
theorem sourceStop_access (s : State) (f : AccessFault) :
    SourceStop s (.fault (raise (AccessFault.exn f) s)) :=
  .inl ⟨_, rfl, by cases f <;> simp [AccessFault.exn]⟩

theorem memRead_error {s : State} {a n : Nat} {e : Stop} (h : memRead s a n = .error e) :
    SourceStop s e := by
  rcases memRead_cases s a n with ⟨_, h'⟩ | ⟨_, e', h', hc⟩
  · rw [h'] at h; cases h
  · rw [h'] at h
    cases h
    rcases hc with ⟨f, _, rfl⟩ | ⟨_, _, rfl⟩ | ⟨_, _, rfl⟩
    · exact sourceStop_access s f
    · exact .inr (.inl rfl)
    · exact .inr (.inr rfl)

theorem memRead_ok {s : State} {a n : Nat} {ev : ReadEvent} (h : memRead s a n = .ok ev) :
    readable s a n = true ∧ ev = readEvent s a n := by
  rcases memRead_cases s a n with ⟨hr, h'⟩ | ⟨_, e', h', _⟩
  · rw [h'] at h; cases h; exact ⟨hr, rfl⟩
  · rw [h'] at h; cases h

/-- What reading several places can do: every place is readable and the events are theirs; or it ends in a
fault that `MEM_ACCESS` answers for one of them; or `MEM_ACCESS` answers ok for all and it ends as the read of
one that cannot be read. -/
theorem readEach_cases (s : State) (places : List Nat) (n : Nat) :
    ((∀ a ∈ places, readable s a n = true) ∧
      readEach s places n = .ok (places.map fun a => readEvent s a n)) ∨
    (∃ a ∈ places, ∃ f, memAccess s.sys s.access a n = some f ∧
      readEach s places n = .error (.fault (raise (AccessFault.exn f) s))) ∨
    ((∀ a ∈ places, memAccess s.sys s.access a n = none) ∧
      ∃ a ∈ places, readable s a n = false ∧ ∃ e, memRead s a n = .error e ∧
        readEach s places n = .error e) := by
  set faults := places.filterMap fun a => memAccess s.sys s.access a n with hf
  cases hget : faults[Config.faultingLane s.draws % faults.length]? with
  | some f =>
    obtain ⟨a, ha, h⟩ := List.mem_filterMap.mp (List.mem_of_getElem? hget)
    exact .inr (.inl ⟨a, ha, f, h, by simp only [readEach, ← hf, hget]⟩)
  | none =>
    have hok : ∀ a ∈ places, memAccess s.sys s.access a n = none := by
      have hnil : faults = [] := by
        by_contra hne
        rw [List.getElem?_eq_getElem (Nat.mod_lt _ (List.length_pos_iff.mpr hne))] at hget
        cases hget
      simpa [hf, List.filterMap_eq_nil_iff] using hnil
    cases hstop : ((places.map fun a => memRead s a n).filterMap stopOf).head? with
    | some e =>
      obtain ⟨x, hx, h⟩ := List.mem_filterMap.mp (List.mem_of_head? hstop)
      obtain ⟨a, ha, rfl⟩ := List.mem_map.mp hx
      rcases memRead_cases s a n with ⟨_, h'⟩ | ⟨hr, e', h', _⟩ <;> rw [h'] at h <;> cases h
      exact .inr (.inr ⟨hok, a, ha, hr, e, h', by simp only [readEach, ← hf, hget, hstop]⟩)
    | none =>
      have hall : ∀ a ∈ places, memRead s a n = .ok (readEvent s a n) := by
        intro a ha
        rcases memRead_cases s a n with ⟨_, h'⟩ | ⟨_, e, h', _⟩
        · exact h'
        · have := List.filterMap_eq_nil_iff.mp (List.head?_eq_none_iff.mp hstop) _
            (List.mem_map_of_mem ha)
          rw [h'] at this
          cases this
      refine .inl ⟨fun a ha => (memRead_ok (hall a ha)).1, ?_⟩
      simp only [readEach, ← hf, hget, hstop]
      rw [List.map_congr_left hall]
      simp [List.filterMap_map, Function.comp_def, eventOf]

/-- A read of the second source that succeeds: the lanes are the operand's, and every event is one of
memory in an operand width. -/
theorem readSource2_ok {o : Operation} {s : State} {src : SourceRead}
    (h : readSource2 o s = .ok src) :
    src.lane = o.sourceLane s ∧ ∀ e ∈ src.events, OperandEvent s e := by
  have hw : 8 * lanesOf o.form ∈ [8, 16, 32, 64] := by cases o.form <;> decide
  cases hsrc : o.src2 with
  | reg n =>
    simp only [readSource2, hsrc] at h
    cases h
    simp [Operation.sourceLane, hsrc]
  | full ea =>
    have hl : o.sourceLane s = fun j => Memory.lane s.mem (ea.toNat + 8 * j) := by
      simp only [Operation.sourceLane, hsrc]
    simp only [readSource2, hsrc, readFull] at h
    split at h
    · cases h
    · split at h
      · rcases readEach_cases s ((o.activeLanes s).map fun j => ea.toNat + 8 * j) 8 with
          ⟨_, hr⟩ | ⟨_, _, f, _, hr⟩ | ⟨_, _, _, _, e, _, hr⟩ <;> rw [hr] at h <;> cases h
        refine ⟨hl.symm, fun e he => ?_⟩
        obtain ⟨a, _, rfl⟩ := List.mem_map.mp he
        exact ⟨a, 8, rfl, by simp⟩
      · cases hm : memRead s ea.toNat (8 * lanesOf o.form) with
        | error e => simp only [hm] at h; cases h
        | ok ev =>
          simp only [hm] at h
          cases h
          refine ⟨hl.symm, fun e he => ?_⟩
          rw [List.mem_singleton.mp he, (memRead_ok hm).2]
          exact ⟨_, _, rfl, hw⟩
  | bcst ea =>
    have hl : o.sourceLane s = fun _ => Memory.lane s.mem ea.toNat := by
      simp only [Operation.sourceLane, hsrc]
    simp only [readSource2, hsrc, readBcst] at h
    split at h
    · cases h; exact ⟨hl.symm, by simp⟩
    · cases hm : memRead s ea.toNat 8 with
      | error e => simp only [hm] at h; cases h
      | ok ev =>
        simp only [hm] at h
        cases h
        refine ⟨hl.symm, fun e he => ?_⟩
        rw [List.mem_singleton.mp he, (memRead_ok hm).2]
        exact ⟨_, 8, rfl, by simp⟩

/-- A read of the second source that stops leaves the state as it is. -/
theorem readSource2_error {o : Operation} {s : State} {e : Stop}
    (h : readSource2 o s = .error e) : SourceStop s e := by
  unfold readSource2 at h
  split at h
  · cases h
  · unfold readFull at h
    simp only at h
    split at h
    · cases h; exact .inl ⟨.gp, rfl, by simp⟩
    · split at h
      · rcases readEach_cases s ((o.activeLanes s).map fun j => _) 8 with
          ⟨_, hr⟩ | ⟨_, _, f, _, hr⟩ | ⟨_, _, _, _, e', he', hr⟩ <;> rw [hr] at h <;> cases h
        · exact sourceStop_access s f
        · exact memRead_error he'
      · split at h
        · rename_i he; cases h; exact memRead_error he
        · cases h
  · unfold readBcst at h
    simp only at h
    split at h
    · cases h
    · split at h
      · rename_i he; cases h; exact memRead_error he
      · cases h

/-! ## The flags after a trap -/

/-- A set of flags that is not empty holds a flag. -/
theorem exists_flag {v : BitVec 6} (h : v ≠ 0) : ∃ k, v.getLsbD k = true := by
  by_contra hn
  push Not at hn
  exact h (BitVec.eq_of_getLsbD_eq fun i _ => by simpa using hn i)

/-- The draw of R129 stays in its bounds and holds a trapping flag. -/
theorem trapFlags_spec (old sig trap draw : BitVec 6) (hne : trap ≠ 0)
    (hsub : ∀ k, trap.getLsbD k = true → sig.getLsbD k = true) :
    (∀ k, old.getLsbD k = true → (trapFlags old sig trap draw).getLsbD k = true) ∧
      (∀ k, (trapFlags old sig trap draw).getLsbD k = true →
        old.getLsbD k = true ∨ sig.getLsbD k = true) ∧
      ∃ k, (trapFlags old sig trap draw).getLsbD k = true ∧ trap.getLsbD k = true := by
  unfold trapFlags
  simp only
  split
  · refine ⟨fun k hk => by simp [hk], fun k hk => ?_, ?_⟩
    · simp only [BitVec.getLsbD_or, BitVec.getLsbD_and, Bool.or_eq_true, Bool.and_eq_true] at hk
      rcases hk with (hk | hk) | hk
      · exact .inl hk
      · exact .inr hk.1
      · exact .inr (hsub k hk)
    · obtain ⟨k, hk⟩ := exists_flag hne
      exact ⟨k, by simp [hk], hk⟩
  · rename_i hz
    refine ⟨fun k hk => by simp [hk], fun k hk => ?_, ?_⟩
    · simp only [BitVec.getLsbD_or, BitVec.getLsbD_and, Bool.or_eq_true, Bool.and_eq_true] at hk
      exact hk.imp id And.left
    · obtain ⟨k, hk⟩ := exists_flag (v := (old ||| sig &&& draw) &&& trap) (by simpa using hz)
      rw [BitVec.getLsbD_and, Bool.and_eq_true] at hk
      exact ⟨k, hk⟩

/-! ## The procedure of every form -/

/-- What an operation that answers a next state has done. -/
theorem run_next {o : Operation} {s t : State} (h : o.run s = .next t) :
    s.mode ≠ .other ∧ s.pc.toNat + o.len < addrSpace s.mode ∧ enableCheck o.form s = none ∧
      ∃ src m, readSource2 o s = .ok src ∧ fpOutcome o s src.lane = .done m ∧
        t = o.complete s src m := by
  unfold Operation.run at h
  split at h
  · cases h
  · rename_i hm
    split at h
    · cases h
    · rename_i hp
      split at h
      · cases h
      · rename_i he
        split at h
        · rename_i e _
          cases e <;> simp [Stop.outcome] at h
        · rename_i src hs
          split at h
          · cases h
          · rename_i m hf
            cases h
            exact ⟨by simpa using hm, by omega, he, src, m, hs, hf, rfl⟩

/-- What an operation that answers a fault has done: an enable check, the operand's read, or a
floating-point trap. -/
theorem run_fault {o : Operation} {s : State} {f : Fault} (h : o.run s = .fault f) :
    s.mode ≠ .other ∧ s.pc.toNat + o.len < addrSpace s.mode ∧
      ((∃ e, enableCheck o.form s = some e ∧ f = raise e s) ∨
        (enableCheck o.form s = none ∧ readSource2 o s = .error (.fault f)) ∨
        (enableCheck o.form s = none ∧ ∃ src m, readSource2 o s = .ok src ∧
          fpOutcome o s src.lane = .trap m ∧ f = raise (trapExn s) (trapState s src m))) := by
  unfold Operation.run at h
  split at h
  · cases h
  · rename_i hm
    split at h
    · cases h
    · rename_i hp
      refine ⟨by simpa using hm, by omega, ?_⟩
      split at h
      · rename_i e he
        cases h
        exact .inl ⟨e, he, rfl⟩
      · rename_i he
        split at h
        · rename_i e hs
          cases e <;> simp [Stop.outcome] at h
          subst h
          exact .inr (.inl ⟨he, hs⟩)
        · rename_i src hs
          split at h
          · rename_i m hf
            cases h
            exact .inr (.inr ⟨he, src, m, hs, hf, rfl⟩)
          · cases h

/-- An operation completes when every condition of R194 lets it pass. -/
theorem run_complete {o : Operation} {s : State} {src : SourceRead} {m : BitVec 32}
    (hm : s.mode ≠ .other) (hp : s.pc.toNat + o.len < addrSpace s.mode)
    (he : enableCheck o.form s = none) (hs : readSource2 o s = .ok src)
    (hf : fpOutcome o s src.lane = .done m) : o.run s = .next (o.complete s src m) := by
  have hm' : (s.mode == .other) = false := by simpa using hm
  have hp' : ¬addrSpace s.mode ≤ s.pc.toNat + o.len := by omega
  simp [Operation.run, hm', hp', he, hs, hf]

end Sys2Proof.Machine

namespace Sys2Proof

open Machine

/-! ## exec as the procedure on the instruction's operands -/

/-- The operation of an instruction, by its operands. -/
def Instr.operation (i : Instr) (s : State) : Operation :=
  { form := i.form
    dst := i.dstNum
    src1 := i.src1Num
    src2 :=
      if i.tail.modrm.isReg then .reg i.rmNum
      else if i.isBcst then .bcst (effAddr s i.extX i.extB i.tail i.length (dispScale i.form i.isBcst))
      else .full (effAddr s i.extX i.extB i.tail i.length (dispScale i.form i.isBcst))
    aaa := i.aaa
    z := i.zeroing
    er := i.er
    len := i.length }

/-- Every instruction is the shared procedure on its operands. -/
theorem exec_eq_run (i : Instr) (s : State) : exec i s = (i.operation s).run s := by
  cases i <;> rfl

/-- The second source's lanes of an instruction's operation. -/
theorem operation_sourceLane (i : Instr) (s : State) (j : Nat) :
    (i.operation s).sourceLane s j = i.second s j := by
  by_cases h : i.tail.modrm.mod = 3
  · simp [Operation.sourceLane, Instr.operation, Instr.second, ModRM.isReg, h]
  · cases hb : i.isBcst <;>
      simp only [Operation.sourceLane, Instr.operation, Instr.second, ModRM.isReg, h, hb, Instr.ea,
        beq_iff_eq, if_false, if_true, Bool.false_eq_true]

/-- A form's memory read succeeds when the bytes are readable. -/
theorem memRead_readable {s : State} {a n : Nat} (h : readable s a n = true) :
    memRead s a n = .ok (readEvent s a n) := by
  rcases memRead_cases s a n with ⟨_, h'⟩ | ⟨h', _⟩
  · exact h'
  · simp [h] at h'

/-- The second source of an instruction as an operand of its operation, when it is in memory. -/
theorem operation_src2_mem {i : Instr} {s : State} (hm : ¬i.tail.modrm.mod = 3) :
    (i.operation s).src2 =
      if i.isBcst then .bcst (effAddr s i.extX i.extB i.tail i.length (dispScale i.form i.isBcst))
      else .full (effAddr s i.extX i.extB i.tail i.length (dispScale i.form i.isBcst)) := by
  have h : i.tail.modrm.isReg = false := by simp only [ModRM.isReg, beq_eq_false_iff_ne]; exact hm
  simp [Instr.operation, h]

/-- When the second source can be read, its read gives its lanes and its events. -/
theorem readSource2_of_events {i : Instr} {s : State} {ev : List ReadEvent}
    (h : i.sourceEvents s = some ev) :
    readSource2 (i.operation s) s = .ok ⟨i.second s, ev⟩ := by
  suffices hh : ∃ src, readSource2 (i.operation s) s = .ok src ∧ src.events = ev by
    obtain ⟨src, h1, h2⟩ := hh
    have h3 := (readSource2_ok h1).1
    rw [funext (operation_sourceLane i s)] at h3
    rw [h1, ← h2, ← h3]
  unfold Instr.sourceEvents at h
  simp only at h
  by_cases hm : i.tail.modrm.mod = 3
  · simp only [hm, if_true, Option.some.injEq] at h
    exact ⟨⟨lane (s.readV i.rmNum), []⟩, by
      simp only [readSource2, Instr.operation, ModRM.isReg, hm, beq_self_eq_true, if_true], h⟩
  · simp only [hm, if_false] at h
    split at h
    · cases h
    · rename_i ha
      have hal : ((i.operation s).form == .f1 && (effAddr s i.extX i.extB i.tail i.length
          (dispScale i.form i.isBcst)).toNat % 16 != 0) = false := by
        rw [Bool.eq_false_iff]
        intro hc
        simp at hc
        exact ha hc
      cases hb : i.isBcst
      · rw [hb] at hal
        simp only [readSource2, operation_src2_mem hm, hb, if_false, Bool.false_eq_true, readFull, hal]
        cases hs : i.suppressed s
        · simp only [hb, hs, Bool.false_and, Bool.and_false, Bool.false_eq_true, if_false] at h
          split at h
          · rename_i hr
            have hw : i.operandWidth = 8 * lanesOf (i.operation s).form := by
              simp [Instr.operandWidth, hb, Instr.operation]
            rw [hw] at hr h
            have := memRead_readable hr
            rw [Instr.ea, hb] at this h
            have hs' : (s.faultSuppression && (i.operation s).aaa != 0) = false := hs
            rw [hs', this]
            exact ⟨_, rfl, by simpa using h⟩
          · cases h
        · simp only [hb, hs, Bool.and_false, Bool.false_and, Bool.false_eq_true, if_false,
            Bool.not_false, Bool.and_true, if_true] at h
          have hs' : (s.faultSuppression && (i.operation s).aaa != 0) = true := hs
          have hact : (i.operation s).activeLanes s = i.activeLanes s := rfl
          split at h
          · rename_i hall
            rw [hs', hact]
            simp only [if_true]
            rcases readEach_cases s ((i.activeLanes s).map fun j => (effAddr s i.extX i.extB i.tail
                i.length (dispScale i.form false)).toNat + 8 * j) 8 with
                ⟨_, h2⟩ | ⟨a, ha1, f, ha2, _⟩ | ⟨_, a, ha1, ha2, _⟩
            · rw [h2]
              refine ⟨_, rfl, ?_⟩
              rw [Instr.ea, hb] at h
              simpa [List.map_map, Function.comp_def] using h
            · obtain ⟨j, hj, rfl⟩ := List.mem_map.mp ha1
              have := memAccess_of_readable (List.all_eq_true.mp hall j hj)
              rw [Instr.ea, hb, ha2] at this
              cases this
            · obtain ⟨j, hj, rfl⟩ := List.mem_map.mp ha1
              have := List.all_eq_true.mp hall j hj
              rw [Instr.ea, hb, ha2] at this
              cases this
          · cases h
      · have hs' : (s.faultSuppression && (i.operation s).aaa != 0) = i.suppressed s := rfl
        have hact : (i.operation s).activeLanes s = i.activeLanes s := rfl
        simp only [readSource2, operation_src2_mem hm, hb, if_true, readBcst, hs', hact]
        simp only [hb, Bool.and_true, Bool.not_true, Bool.and_false, Bool.false_eq_true, if_false] at h
        split at h
        · rename_i hc
          rw [hc]
          exact ⟨_, rfl, by simpa using h⟩
        · rename_i hc
          rw [if_neg hc]
          split at h
          · rename_i hr
            have hw : i.operandWidth = 8 := by simp [Instr.operandWidth, hb]
            rw [hw] at hr h
            have := memRead_readable hr
            rw [Instr.ea, hb] at this h
            rw [this]
            exact ⟨_, rfl, by simpa using h⟩
          · cases h

/-! ## The flags of an instruction -/

/-- Setting flags sets those bits and no other. -/
theorem getLsbD_mxSetFlags (m : BitVec 32) (f : BitVec 6) (k : Nat) :
    (mxSetFlags m f).getLsbD k = (m.getLsbD k || f.getLsbD k) := by
  simp only [mxSetFlags, BitVec.getLsbD_or, BitVec.getLsbD_setWidth]
  by_cases hk : k < 32
  · simp [hk]
  · simp [hk, BitVec.getLsbD_of_ge f k (by omega)]

/-- Without embedded rounding the lanes of the operation are `L_j` of R129. -/
theorem operation_laneResult {i : Instr} (h : i.er = none) (s : State) (j : Nat) :
    (i.operation s).laneResult s (i.second s) j = i.laneSubOf s j := by
  simp [Operation.laneResult, Instr.laneSubOf, Operation.env, Instr.operation, h, mxEnv]

/-- No signalled flag traps exactly when no active lane signals an unmasked exception. -/
theorem trapping_eq_zero_iff {i : Instr} (h : i.er = none) (s : State) :
    trapping s.mxcsr ((i.operation s).signalled s (i.second s)) = 0 ↔ i.quiet s = true := by
  have hz : ∀ v : BitVec 6, v = 0 ↔ ∀ k, v.getLsbD k = false := fun v =>
    ⟨fun hv k => by simp [hv], fun hv => BitVec.eq_of_getLsbD_eq fun k _ => by simp [hv k]⟩
  simp only [trapping, Instr.quiet, List.all_eq_true, Instr.lanes, List.mem_range, Bool.or_eq_true,
    Bool.not_eq_true', beq_iff_eq, hz, BitVec.getLsbD_and, Bool.and_eq_false_iff]
  constructor
  · intro hh j hj
    refine or_iff_not_imp_left.mpr fun ha k => (hh k).imp_left fun h1 => ?_
    rw [Bool.eq_false_iff] at h1 ⊢
    have ha' : (i.operation s).active s j = true := by
      change i.laneActive s j = true
      simpa using ha
    exact fun h2 => h1 ((getLsbD_signalled _ _ _ _).mpr
      ⟨j, hj, ha', by rwa [operation_laneResult h]⟩)
  · intro hh k
    refine or_iff_not_imp_left.mpr fun h1 => ?_
    obtain ⟨j, hj, ha, h2⟩ := (getLsbD_signalled _ _ _ _).mp (by simpa using h1)
    rw [operation_laneResult h] at h2
    rcases hh j hj with h3 | h3
    · rw [show i.laneActive s j = true from ha] at h3; cases h3
    · exact (h3 k).resolve_left (by simp [h2])

/-! ## Runs -/

/-- A run of `k + 1` steps that answers a state steps once and runs on. -/
theorem core_run_succ {M : Host.Core} {k : Nat} {s t : M.State} (h : M.run (k + 1) s = .next t) :
    ∃ s', M.step s = .next s' ∧ M.run k s' = .next t := by
  rw [Host.Core.run] at h
  cases hs : M.step s with
  | next s' => rw [hs] at h; exact ⟨s', rfl, h⟩
  | fault r => rw [hs] at h; cases h
  | refused r => rw [hs] at h; cases h

end Sys2Proof
end

