-- ==== Sys2Proof/Certificates/Slice0/Obligations.lean ====
section
/-! DEFINITION. The statements for the provers. The terms they use are those of Sys2Proof/Safety.lean. -/

open Sys2Proof Sys2Proof.Machine

/-! ## Encoding -/

/-- R71 to R91: the decoder reads the encoding of every instruction that the mode admits, whatever bytes
follow, and gives that instruction back. -/
def Obligations.DecodeReadsEveryEncoding : Prop :=
  ∀ (m : Mode) (i : Instr) (rest : List Byte),
    i.wellFormed m = true → decode m (encode i ++ rest) = .instr i

/-- R96 against R71 to R91: bytes that decode to an instruction begin with its encoding, and the
instruction is one the mode admits: no bit of them is dropped. -/
def Obligations.DecodedBytesAreItsEncoding : Prop :=
  ∀ (m : Mode) (bs : List Byte) (i : Instr),
    decode m bs = .instr i → i.wellFormed m = true ∧ bs.take i.length = encode i

/-- R93: the length is the bytes up to the opcode, ModRM, SIB if present and the displacement, and lies in
the range of its kind of encoding. -/
def Obligations.InstructionLengths : Prop :=
  ∀ (m : Mode) (i : Instr), i.wellFormed m = true →
    (encode i).length = i.length ∧
    (∃ k, i.length = k + 1 + (if i.tail.sib.isSome then 1 else 0) + i.tail.disp.size ∧
      match i with
      | .subpd _ => k = 3 ∧ i.length ≤ 10
      | .subpdRex _ _ => k = 3 + 1 ∧ i.length ≤ 10
      | .vsubpdXmmVex2 _ _ => k = 2 + 1 ∧ i.length ≤ 9
      | .vsubpdYmmVex2 _ _ => k = 2 + 1 ∧ i.length ≤ 9
      | .vsubpdXmmVex3 _ _ => k = 3 + 1 ∧ i.length ≤ 10
      | .vsubpdYmmVex3 _ _ => k = 3 + 1 ∧ i.length ≤ 10
      | .vsubpdXmmEvex _ _ => k = 4 + 1 ∧ i.length ≤ 11
      | .vsubpdXmmEvexBcst _ _ => k = 4 + 1 ∧ i.length ≤ 11
      | .vsubpdXmmEvexBcstD32 _ _ => k = 4 + 1 ∧ i.length ≤ 11
      | .vsubpdYmmEvex _ _ => k = 4 + 1 ∧ i.length ≤ 11
      | .vsubpdYmmEvexBcst _ _ => k = 4 + 1 ∧ i.length ≤ 11
      | .vsubpdYmmEvexBcstD32 _ _ => k = 4 + 1 ∧ i.length ≤ 11
      | .vsubpdZmmEvex _ _ => k = 4 + 1 ∧ i.length ≤ 11
      | .vsubpdZmmEvexBcst _ _ => k = 4 + 1 ∧ i.length ≤ 11
      | .vsubpdZmmEvexBcstD32 _ _ => k = 4 + 1 ∧ i.length ≤ 11
      | .vsubpdZmmEvexEr _ _ _ => k = 4 + 1 ∧ i.length ≤ 11) ∧
    (i.tail.disp.size = 0 ∨ i.tail.disp.size = 1 ∨ i.tail.disp.size = 4)

/-- R184: the encodings that raise #UD do so, found while decoding, before any enable is looked at: LOCK
before any form; `66`, `F2`, `F3` or REX before VEX or EVEX; EVEX with `L'L = 11` and no embedded rounding;
EVEX with `z = 1` and `aaa = 000`, the last two also in `M32` where another form would be refused for an
extension bit (R96 step 4 before step 5). -/
def Obligations.InvalidEncodingsRaiseUd : Prop :=
  (∀ (s : State), beforeFetch s = none → decode s.mode (fetchBytes s) = .ud →
    step s = .fault (raise .ud s)) ∧
  (∀ (m : Mode) (i : Instr) (rest : List Byte), i.wellFormed m = true →
    decode m (0xF0 :: encode i ++ rest) = .ud ∧
    (i.form = .f1 → decode m (0x66 :: 0xF0 :: (encode i).tail ++ rest) = .ud)) ∧
  (∀ (m : Mode) (i : Instr) (v : Byte) (rest : List Byte), i.wellFormed m = true → i.form ≠ .f1 →
    (v = 0x66 ∨ v = 0xF2 ∨ v = 0xF3 ∨ (m = .m64 ∧ v.extractLsb' 4 4 = 4)) →
    decode m (v :: encode i ++ rest) = .ud) ∧
  (∀ (m : Mode) (p : Evex) (b : Bool) (t : Tail) (rest : List Byte),
    t.wf = true → m ≠ .other → (m = .m32 → p.r = false ∧ p.x = false) →
    ¬(b = true ∧ t.modrm.mod = 3) →
    decode m (p.bytes 3 b ++ [0x5C] ++ t.bytes ++ rest) = .ud) ∧
  (∀ (m : Mode) (p : Evex) (ll : BitVec 2) (b : Bool) (t : Tail) (rest : List Byte),
    t.wf = true → m ≠ .other → (m = .m32 → p.r = false ∧ p.x = false) → p.z = true → p.aaa = 0 →
    decode m (p.bytes ll b ++ [0x5C] ++ t.bytes ++ rest) = .ud)

/-- R73, R76, R79 to R82: words of the spec's worked encodings decode to the instructions they stand for:
`SUBPD xmm9, [rax]`, `VSUBPD ymm0, ymm1, ymm8`, `VSUBPD zmm17, zmm18, zmm19`,
`VSUBPD ymm0 (k1)(z), ymm1, [rax](1to4)`, `VSUBPD zmm0, zmm1, zmm2, (rd-sae)`. -/
def Obligations.WorkedEncodingsDecode : Prop :=
  decode .m64 [0x66, 0x44, 0x0F, 0x5C, 0x08] =
    .instr (.subpdRex ⟨false, true, false, false⟩ ⟨⟨0, 1, 0⟩, none, .none⟩) ∧
  decode .m64 [0xC4, 0xC1, 0x75, 0x5C, 0xC0] =
    .instr (.vsubpdYmmVex3 ⟨false, false, true, false, 1⟩ ⟨⟨3, 0, 0⟩, none, .none⟩) ∧
  decode .m64 [0x62, 0xA1, 0xED, 0x40, 0x5C, 0xCB] =
    .instr (.vsubpdZmmEvex ⟨false, true, false, true, true, 2, false, 0⟩ ⟨⟨3, 1, 3⟩, none, .none⟩) ∧
  decode .m64 [0x62, 0xF1, 0xF5, 0xB9, 0x5C, 0x00] =
    .instr (.vsubpdYmmEvexBcst ⟨false, false, false, false, false, 1, true, 1⟩
      ⟨⟨0, 0, 0⟩, none, .none⟩) ∧
  decode .m64 [0x62, 0xF1, 0xF5, 0x38, 0x5C, 0xC2] =
    .instr (.vsubpdZmmEvexEr ⟨false, false, false, false, false, 1, false, 0⟩ .rd
      ⟨⟨3, 0, 2⟩, none, .none⟩)

/-- R98: the neighbours at `0F 5C` without a mandatory prefix, with `F3` and with `F2` (SUBPS, SUBSS, SUBSD),
and those under VEX and EVEX with `pp` other than `01`, are refused: neither a form nor #UD. -/
def Obligations.NeighboursAreRefused : Prop :=
  ∀ (m : Mode) (rest : List Byte),
    (∃ r, decode m (0x0F :: 0x5C :: rest) = .reject r) ∧
    (∃ r, decode m (0xF3 :: 0x0F :: 0x5C :: rest) = .reject r) ∧
    (∃ r, decode m (0xF2 :: 0x0F :: 0x5C :: rest) = .reject r) ∧
    (∀ v : Byte, v.extractLsb' 0 2 ≠ 1 → ∃ r, decode m (0xC5 :: v :: 0x5C :: rest) = .reject r) ∧
    (∀ v w : Byte, w.extractLsb' 0 2 ≠ 1 →
      ∃ r, decode m (0xC4 :: v :: w :: 0x5C :: rest) = .reject r) ∧
    (∀ p0 p1 p2 : Byte, p1.extractLsb' 0 2 ≠ 1 →
      ∃ r, decode m (0x62 :: p0 :: p1 :: p2 :: 0x5C :: rest) = .reject r)

/-- R72: the prefix policy, one row of its table after the other, for a prefix before an encoded form. Form 1
needs its `66`, admits no second one, and is another instruction with `F2` or `F3`; before VEX or EVEX these
three and REX raise #UD; LOCK raises #UD; segment overrides and `67` are refused; so is a REX that does not
stand just before `0F`. -/
def Obligations.PrefixPolicy : Prop :=
  ∀ (m : Mode) (i : Instr) (rest : List Byte), i.wellFormed m = true →
    decode m (0xF0 :: encode i ++ rest) = .ud ∧
    (∀ v : Byte, v = 0x66 ∨ v = 0xF2 ∨ v = 0xF3 →
      (i.form = .f1 → ∃ r, decode m (v :: encode i ++ rest) = .reject r) ∧
      (i.form ≠ .f1 → decode m (v :: encode i ++ rest) = .ud)) ∧
    (i.form = .f1 → ∃ r, decode m ((encode i).tail ++ rest) = .reject r) ∧
    (∀ v : Byte, v = 0x2E ∨ v = 0x36 ∨ v = 0x3E ∨ v = 0x26 ∨ v = 0x64 ∨ v = 0x65 ∨ v = 0x67 →
      ∃ r, decode m (v :: encode i ++ rest) = .reject r) ∧
    (∀ v : Byte, m = .m64 → v.extractLsb' 4 4 = 4 →
      (i.form = .f1 → ∃ r, decode m (v :: encode i ++ rest) = .reject r) ∧
      (i.form ≠ .f1 → decode m (v :: encode i ++ rest) = .ud))

/-- R84: in `M32` there is no REX, `C4`, `C5` and `62` are prefixes only when bits 7:6 of the next byte are
`11`, and a form with an extension bit that names a register above 7 is refused. -/
def Obligations.Mode32Restrictions : Prop :=
  (∀ (v : Byte) (rest : List Byte), v.extractLsb' 6 2 ≠ 3 →
    ∃ r, decode .m32 (0xC4 :: v :: rest) = .reject r ∧ decode .m32 (0xC5 :: v :: rest) = .reject r ∧
      decode .m32 (0x62 :: v :: rest) = .reject r) ∧
  (∀ (v : Byte) (rest : List Byte), v.extractLsb' 4 4 = 4 →
    ∃ r, decode .m32 (0x66 :: v :: rest) = .reject r) ∧
  (∀ (i : Instr) (rest : List Byte), i.wellFormed .m64 = true →
    (i.m32Ok = true → decode .m32 (encode i ++ rest) = .instr i) ∧
    (i.m32Ok = false → ∃ r, decode .m32 (encode i ++ rest) = .reject r))

/-! ## Operands -/

/-- R73, R76, R80: register numbers, and general register numbers of R87 and R88. -/
def Obligations.RegisterNumbers : Prop :=
  (∀ (e : Bool) (n : BitVec 3), (regNum e n).toNat = e.toNat * 8 + n.toNat) ∧
  (∀ (e' e : Bool) (n : BitVec 3), (regNum5 e' e n).toNat = e'.toNat * 16 + e.toNat * 8 + n.toNat) ∧
  (∀ (v : BitVec 4), (vvvvNum v).toNat = v.toNat) ∧
  (∀ (e : Bool) (v : BitVec 4), (vvvvNum5 e v).toNat = e.toNat * 16 + v.toNat) ∧
  (∀ (e : Bool) (n : BitVec 3), (gprNum e n).toNat = e.toNat * 8 + n.toNat)

/-- R90, R91: an 8-bit displacement is sign-extended and, in forms 4 to 6, multiplied by `N`; a 32-bit one
is sign-extended and never scaled. -/
def Obligations.CompressedDisplacement : Prop :=
  (∀ (f : Form) (bcst : Bool) (v : BitVec 8),
    dispValue (dispScale f bcst) (.d8 v) = BitVec.ofInt 64 (v.toInt * (match f with
      | .f1 => 1
      | .f2 => 1
      | .f3 => 1
      | .f4 => if bcst then 8 else 16
      | .f5 => if bcst then 8 else 32
      | .f6 => if bcst then 8 else 64))) ∧
  (∀ (f : Form) (bcst : Bool) (v : BitVec 32),
    dispValue (dispScale f bcst) (.d32 v) = BitVec.ofInt 64 v.toInt)

/-- R88, R92: the effective address with a SIB byte, modulo `2^A`, and which displacement follows. -/
def Obligations.SibEffectiveAddress : Prop :=
  ∀ (s : State) (x b : Bool) (t : Tail) (sb : Sib) (len n : Nat),
    s.mode ≠ .other → t.sib = some sb →
    (t.wf = true → (t.disp.size = 4 ↔ t.modrm.mod = 2 ∨ (t.modrm.mod = 0 ∧ sb.base = 5)) ∧
      (t.disp.size = 1 ↔ t.modrm.mod = 1)) ∧
    ((effAddr s x b t len n).toNat : Int) =
      ((if sb.base = 5 ∧ t.modrm.mod = 0 then (0 : Int) else (s.readX (gprNum b sb.base)).toNat) +
        (if x.toNat * 8 + sb.index.toNat = 4 then (0 : Int)
          else (s.readX (gprNum x sb.index)).toNat * 2 ^ sb.scale.toNat) +
        (match t.disp with
          | .none => 0
          | .d8 v => v.toInt * n
          | .d32 v => v.toInt)) % (addrSpace s.mode : Int)

/-- R87, R89, R92: the effective address without a SIB byte, modulo `2^A`; with `mod = 00` and `rm = 101`
it is RIP-relative in `M64` and the displacement alone in `M32`; and which displacement follows. -/
def Obligations.PlainEffectiveAddress : Prop :=
  ∀ (s : State) (x b : Bool) (t : Tail) (len n : Nat),
    s.mode ≠ .other → t.sib = none →
    (t.wf = true → t.modrm.mod ≠ 3 → t.modrm.rm ≠ 4 ∧
      (t.disp.size = 4 ↔ t.modrm.mod = 2 ∨ (t.modrm.mod = 0 ∧ t.modrm.rm = 5)) ∧
      (t.disp.size = 1 ↔ t.modrm.mod = 1)) ∧
    ((effAddr s x b t len n).toNat : Int) =
      ((if t.modrm.mod = 0 ∧ t.modrm.rm = 5 then
          (if s.mode = .m64 then ((s.pc.toNat + len : Nat) : Int) else 0)
        else (s.readX (gprNum b t.modrm.rm)).toNat) +
        (match t.disp with
          | .none => 0
          | .d8 v => v.toInt * n
          | .d32 v => v.toInt)) % (addrSpace s.mode : Int)

/-! ## Memory -/

/-- R51, R53: byte `k` of lane `j` of a memory operand is the byte at `a + 8j + k`, and so stands in the
read's event; the lane is little-endian. -/
def Obligations.LittleEndianLanes : Prop :=
  ∀ (s : State) (a n j k : Nat), 8 * j + k < n → k < 8 →
    (Memory.lane s.mem (a + 8 * j)).extractLsb' (8 * k) 8 = Memory.read s.mem (a + 8 * j + k) ∧
    (readEvent s a n).bytes[8 * j + k]? = some (Memory.read s.mem (a + 8 * j + k))

/-- R189 with the model's reading of 'aligned' (log 3: to the size of the access): `MEM_ACCESS` answers #AC
only when `CR0_AM = 1`, `EFLAGS_AC = 1`, `CPL = 3` and the address is no multiple of the size, and under those
conditions it may; form 1 never raises it. -/
def Obligations.AlignmentCheckOnlyWhenEnabled : Prop :=
  (∀ (y : Sys) (t : AccessMap) (a n : Nat), memAccess y t a n = some .ac →
    y.cr0Am = true ∧ y.eflagsAc = true ∧ y.cpl = 3 ∧ a % n ≠ 0) ∧
  (∀ (i : Instr) (s s' : State), exec i s = .fault (.raised .ac s') →
    i.form ≠ .f1 ∧ s.sys.cr0Am = true ∧ s.sys.eflagsAc = true ∧ s.sys.cpl = 3) ∧
  (∀ (y : Sys) (a n : Nat), y.cr0Am = true → y.eflagsAc = true → y.cpl = 3 → a % n ≠ 0 →
    ∃ t : AccessMap, memAccess y t a n = some .ac)

/-- R55, R187 (a): form 1 with a misaligned memory operand raises #GP(0), before `MEM_ACCESS` is asked,
with nothing read or written; a #GP in any other form is an answer of `MEM_ACCESS`. -/
def Obligations.SseOperandMustBeAligned : Prop :=
  (∀ (i : Instr) (s : State), i.form = .f1 → ¬i.hasRegSource → i.runnable s = true →
    i.ea s % 16 ≠ 0 → exec i s = .fault (raise .gp s)) ∧
  (∀ (i : Instr) (s s' : State), i.form ≠ .f1 → exec i s = .fault (.raised .gp s') →
    ∃ a n, memAccess s.sys s.access a n = some .gp)

/-- R56, R58, R194 step 4: when `MEM_ACCESS` answers a fault for the operand, the form ends in that fault with
nothing changed, whatever its lanes would have signalled. Under fault suppression it ends so when the fault is
answered for an active lane, in the fault of one such lane (which one is free, log 4), or for a broadcast with
an active lane. -/
def Obligations.MemoryFaultIsReported : Prop :=
  ∀ (i : Instr) (s : State), ¬i.hasRegSource → i.runnable s = true →
    ¬(i.form = .f1 ∧ i.ea s % 16 ≠ 0) →
    (∀ f, i.suppressed s = false ∨ (i.isBcst = true ∧ i.activeLanes s ≠ []) →
      memAccess s.sys s.access (i.ea s) i.operandWidth = some f →
      exec i s = .fault (.raised (AccessFault.exn f) s)) ∧
    (i.suppressed s = true → i.isBcst = false →
      (∃ j ∈ i.activeLanes s, memAccess s.sys s.access (i.ea s + 8 * j) 8 ≠ none) →
      ∃ j ∈ i.activeLanes s, ∃ f, memAccess s.sys s.access (i.ea s + 8 * j) 8 = some f ∧
        exec i s = .fault (.raised (AccessFault.exn f) s))

/-- An operand that `MEM_ACCESS` answers ok is refused when its bytes run past the top of the address space
(R196; log 18) or touch a location whose reads have side effects (R54; log 19); under fault suppression, when
`MEM_ACCESS` answers ok for every active lane and the bytes of one cannot be read. -/
def Obligations.UnreadableOperandStops : Prop :=
  ∀ (i : Instr) (s : State), ¬i.hasRegSource → i.runnable s = true →
    ¬(i.form = .f1 ∧ i.ea s % 16 ≠ 0) →
    (i.suppressed s = false ∨ (i.isBcst = true ∧ i.activeLanes s ≠ []) →
      memAccess s.sys s.access (i.ea s) i.operandWidth = none →
      (addrSpace s.mode < i.ea s + i.operandWidth →
        exec i s = .refused .operandPastAddressSpace) ∧
      (i.ea s + i.operandWidth ≤ addrSpace s.mode →
        (s.devices.any fun r => Region.touches r (i.ea s) i.operandWidth) = true →
        exec i s = .refused .deviceRead)) ∧
    (i.suppressed s = true → i.isBcst = false →
      (∀ j ∈ i.activeLanes s, memAccess s.sys s.access (i.ea s + 8 * j) 8 = none) →
      (∃ j ∈ i.activeLanes s, readable s (i.ea s + 8 * j) 8 = false) →
      exec i s = .refused .operandPastAddressSpace ∨ exec i s = .refused .deviceRead)

/-! ## May the form execute -/

/-- R180: the vector numbers and error codes; the memory faults arise only with a memory operand, and form 6
with embedded rounding never raises #XM. -/
def Obligations.ExceptionTable : Prop :=
  (Exn.ud.vector = 6 ∧ Exn.nm.vector = 7 ∧ Exn.ss.vector = 12 ∧ Exn.gp.vector = 13 ∧
    (∀ c a, (Exn.pf c a).vector = 14) ∧ Exn.ac.vector = 17 ∧ Exn.xm.vector = 19) ∧
  (Exn.ud.errorCode = none ∧ Exn.nm.errorCode = none ∧ Exn.ss.errorCode = some 0 ∧
    Exn.gp.errorCode = some 0 ∧ (∀ c a, (Exn.pf c a).errorCode = some c) ∧
    Exn.ac.errorCode = some 0 ∧ Exn.xm.errorCode = none) ∧
  (∀ (i : Instr) (s s' : State) (e : Exn), exec i s = .fault (.raised e s') →
    (i.hasRegSource → e = .ud ∨ e = .nm ∨ e = .xm) ∧ (i.er.isSome = true → e ≠ .xm) ∧
    (∀ c a, e = .pf c a → ∃ b n, memAccess s.sys s.access b n = some (.pf c a)))

/-- R181, R182, R183: the conditions under which each form raises #UD; a VEX form does not consult `CR0_EM`
and `CR4_OSFXSR`; in a mode other than `M64` and `M32` it is refused. -/
def Obligations.DisabledFormsRaiseUd : Prop :=
  ∀ (i : Instr) (s : State),
    (i.inSpace s = true → i.form = .f1 →
      s.sys.cr0Em = true ∨ s.sys.cr4Osfxsr = false ∨ s.features.hasSse2 = false →
      exec i s = .fault (raise .ud s)) ∧
    (i.inSpace s = true → i.form = .f2 ∨ i.form = .f3 →
      s.sys.cr4Osxsave = false ∨ s.sys.xcr0Sse = false ∨ s.sys.xcr0Avx = false ∨
        s.features.hasAvx = false →
      exec i s = .fault (raise .ud s)) ∧
    (i.form = .f2 ∨ i.form = .f3 → ∀ em fx : Bool,
      enableCheck i.form { s with sys := { s.sys with cr0Em := em, cr4Osfxsr := fx } } =
        enableCheck i.form s) ∧
    (i.form = .f2 ∨ i.form = .f3 → s.mode = .other → exec i s = .refused .modeNotModelled) ∧
    (i.inSpace s = true → i.form = .f4 ∨ i.form = .f5 ∨ i.form = .f6 →
      s.sys.cr4Osxsave = false ∨ s.sys.xcr0Sse = false ∨ s.sys.xcr0Avx = false ∨
        s.sys.xcr0Opmask = false ∨ s.sys.xcr0ZmmHi256 = false ∨ s.sys.xcr0Hi16Zmm = false ∨
        s.features.hasAvx512f = false ∨ (i.form ≠ .f6 ∧ s.features.hasAvx512vl = false) →
      exec i s = .fault (raise .ud s))

/-- R185: every form raises #NM when `CR0_TS = 1` and none of the #UD conditions holds. -/
def Obligations.TaskSwitchedRaisesNm : Prop :=
  ∀ (i : Instr) (s : State), i.inSpace s = true → s.sys.cr0Ts = true →
    enabled i.form { s with sys := { s.sys with cr0Ts := false } } = true →
    exec i s = .fault (raise .nm s)

/-- R217: `Enabled(form)` holds exactly when none of the #UD and #NM conditions does; under it a form with
a register source completes or raises #XM (or #UD by R191); with all six masks set, or with embedded
rounding, it completes. -/
def Obligations.EnabledFormsCompleteOrTrap : Prop :=
  ∀ (i : Instr) (s : State), i.inSpace s = true →
    (enabled i.form s = true ↔ enableCheck i.form s = none) ∧
    (enabled i.form s = true → i.hasRegSource →
      ((∃ t, exec i s = .next t) ∨
        (s.sys.cr4Osxmmexcpt = true ∧ ∃ s', exec i s = .fault (.raised .xm s')) ∨
        (s.sys.cr4Osxmmexcpt = false ∧ ∃ s', exec i s = .fault (.raised .ud s'))) ∧
      (mxMasks s.mxcsr = 0x3F ∨ i.er.isSome = true → ∃ t, exec i s = .next t))

/-- The model refuses a form in a mode that is neither `M64` nor `M32` (D2), and one whose `pc + len`
exceeds the top of the address space (R30; log 17). -/
def Obligations.OutsideTheSpaceIsRefused : Prop :=
  ∀ (i : Instr) (s : State),
    (s.mode = .other → exec i s = .refused .modeNotModelled) ∧
    (s.mode ≠ .other → addrSpace s.mode ≤ s.pc.toNat + i.length →
      exec i s = .refused .pastAddressSpace)

/-! ## What each form computes -/

/-- R140, register source: SUBPD without and with REX completes; lanes 0 and 1 are the differences, bits
511:128 and everything else keep their values, nothing is read. -/
def Obligations.SseRegisterResult : Prop :=
  ∀ (i : Instr) (s : State), i.form = .f1 → i.hasRegSource → i.runnable s = true →
    i.quiet s = true → i.CompletesNormally s []

/-- R140, memory source: SUBPD without and with REX, with an aligned and readable operand, reads exactly
16 bytes at the effective address and completes. -/
def Obligations.SseMemoryResult : Prop :=
  ∀ (i : Instr) (s : State), i.form = .f1 → ¬i.hasRegSource → i.runnable s = true →
    i.ea s % 16 = 0 → readable s (i.ea s) 16 = true → i.quiet s = true →
    i.CompletesNormally s [readEvent s (i.ea s) 16]

/-- R150, R151, register source: the four VEX rows complete, with 2 or 4 lanes and zeros above. -/
def Obligations.VexRegisterResult : Prop :=
  ∀ (i : Instr) (s : State), i.form = .f2 ∨ i.form = .f3 → i.hasRegSource → i.runnable s = true →
    i.quiet s = true → i.CompletesNormally s []

/-- R150, R151, memory source: the four VEX rows read 16 or 32 bytes at any alignment and complete. -/
def Obligations.VexMemoryResult : Prop :=
  ∀ (i : Instr) (s : State), i.form = .f2 ∨ i.form = .f3 → ¬i.hasRegSource → i.runnable s = true →
    readable s (i.ea s) (if i.form = .f2 then 16 else 32) = true → i.quiet s = true →
    i.CompletesNormally s [readEvent s (i.ea s) (if i.form = .f2 then 16 else 32)]

/-- R164 to R166, register source, without embedded rounding: the three EVEX rows with `b = 0` complete;
active lanes are the differences, the others merged or zeroed, bits above the vector length zero. -/
def Obligations.EvexRegisterResult : Prop :=
  ∀ (i : Instr) (s : State), i.form = .f4 ∨ i.form = .f5 ∨ i.form = .f6 → i.isBcst = false →
    i.er = none → i.hasRegSource → i.runnable s = true → i.quiet s = true →
    i.CompletesNormally s []

/-- R164 to R166, full-width memory source, no fault suppression: the three EVEX rows with `b = 0` read
16, 32 or 64 bytes, whatever the mask, and complete. -/
def Obligations.EvexMemoryResult : Prop :=
  ∀ (i : Instr) (s : State), i.form = .f4 ∨ i.form = .f5 ∨ i.form = .f6 → i.isBcst = false →
    i.er = none → ¬i.hasRegSource → i.runnable s = true → i.suppressed s = false →
    readable s (i.ea s) (match i.form with | .f4 => 16 | .f5 => 32 | _ => 64) = true →
    i.quiet s = true →
    i.CompletesNormally s [readEvent s (i.ea s) (match i.form with | .f4 => 16 | .f5 => 32 | _ => 64)]

/-- R162, R164 to R166, broadcast source, no fault suppression: the six EVEX rows with `b = 1` and a
memory source read exactly 8 bytes, use them in every lane, and complete. -/
def Obligations.EvexBroadcastResult : Prop :=
  ∀ (i : Instr) (s : State), i.isBcst = true → ¬i.hasRegSource → i.runnable s = true →
    i.suppressed s = false → readable s (i.ea s) 8 = true → i.quiet s = true →
    i.CompletesNormally s [readEvent s (i.ea s) 8] ∧
    ∀ j, i.second s j = Memory.lane s.mem (i.ea s)

/-- R58 with `FAULT_SUPPRESSION` true: a form with a writemask asks only for its active lanes, a broadcast
only when some lane is active; when those can be read it completes, whatever the other bytes. The history lists
the lanes' reads in ascending lane order, which is the model's choice (log 27). -/
def Obligations.FaultSuppressionResult : Prop :=
  ∀ (i : Instr) (s : State), i.er = none → ¬i.hasRegSource → i.runnable s = true →
    i.suppressed s = true → i.quiet s = true →
    (i.isBcst = false → (∀ j ∈ i.activeLanes s, readable s (i.ea s + 8 * j) 8 = true) →
      i.CompletesNormally s ((i.activeLanes s).map fun j => readEvent s (i.ea s + 8 * j) 8)) ∧
    (i.isBcst = true → i.activeLanes s = [] → i.CompletesNormally s []) ∧
    (i.isBcst = true → i.activeLanes s ≠ [] → readable s (i.ea s) 8 = true →
      i.CompletesNormally s [readEvent s (i.ea s) 8])

/-- R167, R130: form 6 with embedded rounding completes whatever the masks; active lanes are the
differences under `EVEX.RC` with the flush taken as masked, but where `UM = 0`, `FTZ = 1` and the result is
tiny the lane is that or the exact denormal; MXCSR is not changed at all. -/
def Obligations.EmbeddedRoundingResult : Prop :=
  ∀ (p : Evex) (rc : RoundMode) (tl : Tail) (s : State), tl.modrm.mod = 3 →
    (Instr.vsubpdZmmEvexEr p rc tl).runnable s = true →
    ∃ t, exec (.vsubpdZmmEvexEr p rc tl) s = .next t ∧
      t.mxcsr = s.mxcsr ∧ t.pc = s.pc + BitVec.ofNat 64 (Instr.vsubpdZmmEvexEr p rc tl).length ∧
      t.reads = s.reads ∧ Unchanged (Instr.vsubpdZmmEvexEr p rc tl).dstNum s t ∧
      ∃ v : Nat → Lane,
        (∀ j, j < 8 → lane (t.readV (Instr.vsubpdZmmEvexEr p rc tl).dstNum) j =
          (Instr.vsubpdZmmEvexEr p rc tl).destLane s v j) ∧
        ∀ j, j < 8 →
          let l := (Instr.vsubpdZmmEvexEr p rc tl).erLaneSubOf rc s j
          v j = l.r ∨
            (mxUm s.mxcsr = false ∧ mxFtz s.mxcsr = true ∧ l.tiny = true ∧
              v j = (laneSub { rc := rc, daz := mxDaz s.mxcsr, ftz := true, um := false }
                (lane (s.readV (Instr.vsubpdZmmEvexEr p rc tl).src1Num) j)
                ((Instr.vsubpdZmmEvexEr p rc tl).second s j)).r)

/-- R161, R164 corner (b): with a writemask whose `KL` low bits are 0 a form with a register source
completes whatever MXCSR and the sources hold; no flag is set; every lane of the vector length is merged
or zeroed and the bits above are zero. -/
def Obligations.FullyMaskedFormSignalsNothing : Prop :=
  ∀ (i : Instr) (s : State), i.hasRegSource → i.runnable s = true → i.aaa ≠ 0 →
    (∀ j, j < lanesOf i.form → (s.readK i.aaa).getLsbD j = false) →
    ∃ t, exec i s = .next t ∧ t.mxcsr = s.mxcsr ∧
      ∀ j, j < 8 → lane (t.readV i.dstNum) j =
        if j < lanesOf i.form ∧ i.zeroing = false then lane (s.readV i.dstNum) j else 0

/-- R141: form 1 and form 2 with the same operands, `SUBPD xmm1, xmm2/m128` and
`VSUBPD xmm1, xmm1, xmm2/m128`, without extension bits (no REX, two-byte VEX) and with the same ones (REX,
three-byte VEX): they compute the same two lanes and the same flags; form 1 leaves bits 511:128 unmodified
where form 2 zeroes them; form 1 needs the memory operand aligned where form 2 does not; they need different
enables. -/
def Obligations.SseAndVexDifferOnlyAsStated : Prop :=
  ∀ (i1 i2 : Instr) (s : State),
    ((∃ tl, i1 = .subpd tl ∧
        i2 = .vsubpdXmmVex2 { r := false, vvvv := (0 : BitVec 1) ++ tl.modrm.reg } tl) ∨
      (∃ (p : Rex) (w : Bool) (tl : Tail), i1 = .subpdRex p tl ∧
        i2 = .vsubpdXmmVex3 { r := p.r, x := p.x, b := p.b, w := w,
                              vvvv := BitVec.ofBool p.r ++ tl.modrm.reg } tl)) →
    (∀ t1 t2, exec i1 s = .next t1 → exec i2 s = .next t2 →
      (∀ j, j < 2 → lane (t1.readV i1.dstNum) j = lane (t2.readV i1.dstNum) j) ∧
      (∀ j, 2 ≤ j → j < 8 → lane (t1.readV i1.dstNum) j = lane (s.readV i1.dstNum) j) ∧
      (∀ j, 2 ≤ j → j < 8 → lane (t2.readV i1.dstNum) j = 0) ∧
      t1 = { t2 with vec := t1.vec } ∧ (∀ n, n ≠ i1.dstNum → t1.readV n = t2.readV n)) ∧
    (enabled .f1 s = true → enabled .f2 s = true → i1.hasRegSource ∨ i1.ea s % 16 = 0 →
      ((∃ t1, exec i1 s = .next t1) ↔ ∃ t2, exec i2 s = .next t2) ∧
      ∀ f, exec i1 s = .fault f ↔ exec i2 s = .fault f) ∧
    (enabled .f1 s = true → i1.inSpace s = true → ¬i1.hasRegSource → i1.ea s % 16 ≠ 0 →
      exec i1 s = .fault (raise .gp s)) ∧
    (enabled .f2 s = true → exec i2 s = .fault (.raised .gp s) →
      ∃ a n, memAccess s.sys s.access a n = some .gp) ∧
    (enabled .f1 s = (s.features.hasSse2 && !s.sys.cr0Em && s.sys.cr4Osfxsr && !s.sys.cr0Ts)) ∧
    (enabled .f2 s = (s.features.hasAvx && s.sys.cr4Osxsave && s.sys.xcr0Sse && s.sys.xcr0Avx &&
      !s.sys.cr0Ts))

/-- R168: lane `j` of the result depends only on lane `j` of the two sources, bit `j` of the mask, lane `j`
of the old destination and the MXCSR control fields (and with embedded rounding on the draw of R130). -/
def Obligations.LanesDoNotInteract : Prop :=
  ∀ (i : Instr) (s1 s2 t1 t2 : State) (j : Nat), j < 8 →
    exec i s1 = .next t1 → exec i s2 = .next t2 →
    mxDaz s1.mxcsr = mxDaz s2.mxcsr → mxFtz s1.mxcsr = mxFtz s2.mxcsr →
    mxRc s1.mxcsr = mxRc s2.mxcsr → mxUm s1.mxcsr = mxUm s2.mxcsr →
    (i.er.isSome = true → s1.draws = s2.draws) →
    i.laneActive s1 j = i.laneActive s2 j →
    (i.laneActive s1 j = true → lane (s1.readV i.src1Num) j = lane (s2.readV i.src1Num) j ∧
      i.second s1 j = i.second s2 j) →
    lane (s1.readV i.dstNum) j = lane (s2.readV i.dstNum) j →
    lane (t1.readV i.dstNum) j = lane (t2.readV i.dstNum) j

/-- R24, R25: opmask bits at and above `KL`, and all of `K[0]`, have no effect: changing them changes
nothing of what the instruction does, be it that it completes, faults or is refused. -/
def Obligations.UnusedMaskBitsHaveNoEffect : Prop :=
  ∀ (i : Instr) (s : State) (k : Vector KReg 8) (t : State),
    (∀ n : BitVec 3, n ≠ 0 → ∀ j, j < lanesOf i.form →
      (State.readK { s with opmask := k } n).getLsbD j = (s.readK n).getLsbD j) →
    (exec i s = .next t → exec i { s with opmask := k } = .next { t with opmask := k }) ∧
    (∀ e, exec i s = .fault (.raised e t) →
      exec i { s with opmask := k } = .fault (.raised e { t with opmask := k })) ∧
    (∀ r, exec i s = .refused r → exec i { s with opmask := k } = .refused r)

/-! ## Floating-point traps and frames -/

/-- R190, R191: when an active lane signals an unmasked exception the form ends in #XM, or in #UD when
`CR4_OSXMMEXCPT = 0`, with the same flags either way, if the
operand's reads are the same under both (R56): the destination and `pc` as before, the flags between
the old ones and the old ones with all signalled, holding one that trapped; the operand's reads stand in the
event history, as log 14 has it; embedded rounding never raises #XM. -/
def Obligations.UnmaskedExceptionTraps : Prop :=
  (∀ (i : Instr) (s : State) (ev : List ReadEvent), i.er = none → i.runnable s = true →
    i.sourceEvents s = some ev → i.quiet s = false →
    ∃ s', exec i s = .fault (.raised (if s.sys.cr4Osxmmexcpt then .xm else .ud) s') ∧
      s' = { s with mxcsr := s'.mxcsr, reads := s.reads ++ ev } ∧
      (∀ k, 6 ≤ k → s'.mxcsr.getLsbD k = s.mxcsr.getLsbD k) ∧
      (∀ k, k < 6 → s.mxcsr.getLsbD k = true → s'.mxcsr.getLsbD k = true) ∧
      (∀ k, k < 6 → s'.mxcsr.getLsbD k = true → s.mxcsr.getLsbD k = true ∨
        ∃ j ∈ i.activeLanes s, (laneSignals s.mxcsr (i.laneSubOf s j)).getLsbD k = true) ∧
      (∃ k, k < 6 ∧ s'.mxcsr.getLsbD k = true ∧ (mxMasks s.mxcsr).getLsbD k = false ∧
        ∃ j ∈ i.activeLanes s, (laneSignals s.mxcsr (i.laneSubOf s j)).getLsbD k = true) ∧
      (i.sourceEvents { s with sys := { s.sys with cr4Osxmmexcpt := !s.sys.cr4Osxmmexcpt } } = some ev →
        ∃ u, exec i { s with sys := { s.sys with cr4Osxmmexcpt := !s.sys.cr4Osxmmexcpt } } =
          .fault (.raised (if s.sys.cr4Osxmmexcpt then .ud else .xm) u) ∧ u.mxcsr = s'.mxcsr)) ∧
  Exn.xm.errorCode = none ∧
  (∀ (i : Instr) (s s' : State), i.er.isSome = true → exec i s ≠ .fault (.raised .xm s'))

/-- R36, R30, R195: a form that completes writes its destination, sets flags (never ZE) and advances `pc`
by its length, and nothing else; #XM (and #UD by R191) may set flags and writes nothing else; any other
fault writes nothing. The event history and the draw counter are the model's own (logs 12, 14). -/
def Obligations.WhatAFormWrites : Prop :=
  ∀ (i : Instr) (s : State),
    (∀ t, exec i s = .next t → Unchanged i.dstNum s t ∧
      (∀ k, s.mxcsr.getLsbD k = true → t.mxcsr.getLsbD k = true) ∧
      t.mxcsr.getLsbD 2 = s.mxcsr.getLsbD 2 ∧ t.pc.toNat = s.pc.toNat + i.length) ∧
    (∀ f, exec i s = .fault f →
      f.state = { s with mxcsr := f.state.mxcsr, reads := f.state.reads } ∧
      (∀ k, 6 ≤ k → f.state.mxcsr.getLsbD k = s.mxcsr.getLsbD k) ∧
      (∀ k, s.mxcsr.getLsbD k = true → f.state.mxcsr.getLsbD k = true) ∧
      f.state.mxcsr.getLsbD 2 = s.mxcsr.getLsbD 2 ∧
      (f.state = s ∨ f = .raised .xm f.state ∨
        (f = .raised .ud f.state ∧ s.sys.cr4Osxmmexcpt = false)))

/-- R140, R150, R151, R160: above the vector length form 1 keeps the destination and every other form
leaves zeros, whatever the mask. -/
def Obligations.UpperBitsOfTheDestination : Prop :=
  ∀ (i : Instr) (s t : State) (j : Nat), exec i s = .next t → lanesOf i.form ≤ j → j < 8 →
    lane (t.readV i.dstNum) j = if i.form = .f1 then lane (s.readV i.dstNum) j else 0

/-! ## The step -/

/-- A step runs the decoded instruction: when the run is not at its end (R216) and MXCSR is one of the
machine (U1), and the bytes fetched decode to an instruction, the step is `exec` of it. -/
def Obligations.StepRunsTheDecodedInstruction : Prop :=
  ∀ (s : State) (i : Instr), s.stop ≠ some s.pc → s.mxcsr.extractLsb' 16 16 = 0 →
    decode s.mode (fetchBytes s) = .instr i → step s = exec i s

/-- R64, R96: when the program text at `pc` holds the encoding of an instruction the mode admits, below
the top of the address space, the step runs that instruction, also when `END` stands inside its bytes, which is
the model's choice (log 28). -/
def Obligations.StepRunsTheEncodedInstruction : Prop :=
  ∀ (s : State) (i : Instr), s.stop ≠ some s.pc → s.mxcsr.extractLsb' 16 16 = 0 →
    i.wellFormed s.mode = true → s.pc.toNat + i.length ≤ addrSpace s.mode →
    (∀ k (h : k < (encode i).length), Memory.read s.text (s.pc.toNat + k) = (encode i)[k]) →
    step s = exec i s

/-- The program text that stands for a word of the opcode table is fetched and run by the very next step
(log 6). -/
def Obligations.FetchWordIsRunNext : Prop :=
  ∀ (s : State) (nbits w : Nat) (i : Instr), Memory.wf s.text = true →
    s.mxcsr.extractLsb' 16 16 = 0 → s.pc.toNat + fetchLength ≤ 2 ^ 64 →
    decodeTableWord nbits w = some i →
    step (s.withFetchWord nbits w) = exec i (s.withFetchWord nbits w)

/-- R216, U1: at `END` nothing is fetched and the run is over, which the model answers as the refusal
runCompleted (log 5); a state whose MXCSR has a reserved bit set is refused, before the fetch and after `END`
is looked at (log 20). -/
def Obligations.StepStopsBeforeTheFetch : Prop :=
  ∀ (s : State),
    (s.stop = some s.pc → step s = .refused .runCompleted) ∧
    (s.stop ≠ some s.pc → s.mxcsr.extractLsb' 16 16 ≠ 0 → step s = .refused .mxcsrReserved)

/-! ## Reset, invariants, runs -/

/-- R38: the reset column of the table for the vector registers, the opmask registers, MXCSR, `SYS`, `MODE`
and the general registers but RDX, the INIT column for the same, and the consequence: with `SYS` as reset
leaves it every form raises #UD. (RDX and `pc` after reset are the model's values, logs 8 and 9.) -/
def Obligations.ResetAndInitValues : Prop :=
  (∀ n, State.reset.readV n = 0) ∧ (∀ n, State.reset.readK n = 0) ∧
  State.reset.mxcsr = 0x1F80#32 ∧
  State.reset.sys =
    { cr0Em := false, cr0Ts := false, cr0Am := false, cr4Osfxsr := false, cr4Osxmmexcpt := false,
      cr4Osxsave := false, xcr0Sse := false, xcr0Avx := false, xcr0Opmask := false,
      xcr0ZmmHi256 := false, xcr0Hi16Zmm := false, eflagsAc := false, cpl := 0 } ∧
  State.reset.mode = .other ∧ (∀ n : Fin 16, n ≠ 2 → State.reset.gpr[n] = 0) ∧
  (∀ s : State,
    (∀ n, (afterInit s).readV n = s.readV n) ∧ (∀ n, (afterInit s).readK n = s.readK n) ∧
    (afterInit s).mxcsr = s.mxcsr ∧ (afterInit s).mode = .other ∧
    (afterInit s).gpr = State.reset.gpr ∧ (afterInit s).pc = State.reset.pc ∧
    (afterInit s).sys = { s.sys with
      cr0Em := false, cr0Ts := false, cr0Am := false, cr4Osfxsr := false, cr4Osxmmexcpt := false,
      cr4Osxsave := false, eflagsAc := false, cpl := 0 }) ∧
  ∀ (i : Instr) (s : State), s.sys = State.reset.sys → i.inSpace s = true →
    exec i s = .fault (raise .ud s)

/-- The state after reset is a state of the machine. -/
def Obligations.ResetIsAMachineState : Prop := StateInv State.reset

/-- Every step keeps the invariant: memory and text in canonical form, MXCSR bits 31:16 zero (R26), `pc` in
the address space (R29, R30), every recorded read true of memory and of an operand width (R52, R62). -/
def Obligations.StepKeepsTheInvariant : Prop :=
  ∀ s t : State, StateInv s → step s = .next t → StateInv t

/-- R61, R26, R33, R36: along a run of any length memory, program text, the general registers, the opmask
registers, `SYS`, the mode and every other parameter of the run never change, no MXCSR flag is ever cleared, no
MXCSR bit above 5 changes, the event history only grows (log 14), the model's draw counter never falls (log
12), and `pc` rises by 4 to 11 a step (R30, R93). -/
def Obligations.RunNeverWritesMemory : Prop :=
  ∀ (k : Nat) (s t : State), Host.Core.run core k s = .next t →
    (∀ a, Memory.read t.mem a = Memory.read s.mem a) ∧
    (∀ a, Memory.read t.text a = Memory.read s.text a) ∧
    t.gpr = s.gpr ∧ t.opmask = s.opmask ∧ t.sys = s.sys ∧ t.mode = s.mode ∧
    (∀ b, s.mxcsr.getLsbD b = true → t.mxcsr.getLsbD b = true) ∧
    (∀ b, 6 ≤ b → t.mxcsr.getLsbD b = s.mxcsr.getLsbD b) ∧
    t.mxcsr.getLsbD 2 = s.mxcsr.getLsbD 2 ∧ s.reads <+: t.reads ∧
    t.features = s.features ∧ t.faultSuppression = s.faultSuppression ∧ t.stop = s.stop ∧
    t.access = s.access ∧ t.devices = s.devices ∧ s.draws ≤ t.draws ∧
    s.pc.toNat + 4 * k ≤ t.pc.toNat ∧ t.pc.toNat ≤ s.pc.toNat + 11 * k

/-! ## The subtraction of one lane -/

/-- R114, R115, R116: the answers for NaN operands and for infinity minus infinity. -/
def Obligations.LaneSubSpecialOperands : Prop :=
  ∀ (env : FpEnv) (a b : Lane),
    (isSNaN a = true ∨ isSNaN b = true →
      laneSub env a b = { r := if isNaN a then quiet a else quiet b, pre := flagIE, post := 0,
                          tiny := false }) ∧
    (isSNaN b = false → isQNaN a = true →
      laneSub env a b = { r := a, pre := 0, post := 0, tiny := false }) ∧
    (isNaN a = false → isQNaN b = true →
      laneSub env a b = { r := b, pre := 0, post := 0, tiny := false }) ∧
    (isInf a = true → isInf b = true → signBit a = signBit b →
      laneSub env a b = { r := 0xFFF8000000000000#64, pre := flagIE, post := 0, tiny := false })

/-- R131 `P_nan`: with a NaN operand the result is a quiet NaN, and invalid is signalled exactly for a
signaling one. -/
def Obligations.NaNOperandsGiveQuietNaN : Prop :=
  ∀ (env : FpEnv) (a b : Lane), isNaN a = true ∨ isNaN b = true →
    isQNaN (laneSub env a b).r = true ∧
    ((laneSub env a b).pre = flagIE ↔ isSNaN a = true ∨ isSNaN b = true)

/-- R131 `P_self`: a finite value minus itself is `+0`, and `-0` when rounding down. -/
def Obligations.SelfDifferenceIsZero : Prop :=
  ∀ (env : FpEnv) (a : Lane), isFinite a = true →
    (laneSub env a a).r = if env.rc = .rd then 0x8000000000000000#64 else 0

/-- R131 `P_exact`: two operands that are finite and not denormal, and whose exact difference is a normal
value `v`, give `v`, with no exception, in every rounding mode. -/
def Obligations.ExactDifferenceIsExact : Prop :=
  ∀ (env : FpEnv) (a b v : Lane), isFinite a = true → isFinite b = true →
    isDenormal a = false → isDenormal b = false → isNormal v = true →
    scaledValue a - scaledValue b = scaledValue v →
    laneSub env a b = { r := v, pre := 0, post := 0, tiny := false }

/-- R131 `P_no_ze`, R113: `pre` is within IE and DE, `post` within OE, UE and PE; divide by zero is never
signalled; overflow and underflow come with precision. -/
def Obligations.SignalledFlagSets : Prop :=
  ∀ (env : FpEnv) (a b : Lane),
    (laneSub env a b).pre &&& ~~~(flagIE ||| flagDE) = 0 ∧
    (laneSub env a b).post &&& ~~~(flagOE ||| flagUE ||| flagPE) = 0 ∧
    ((laneSub env a b).pre ||| (laneSub env a b).post) &&& flagZE = 0 ∧
    ((laneSub env a b).post &&& (flagOE ||| flagUE) ≠ 0 → (laneSub env a b).post &&& flagPE ≠ 0)

/-- R131 `P_sign`: swapping the operands, with RD and RU swapped, changes only the sign of the result, when
neither is a NaN, they are not two like-signed infinities, and the exact difference is not zero (or one is
an infinity). -/
def Obligations.SwappingOperandsNegates : Prop :=
  ∀ (env : FpEnv) (a b : Lane), isNaN a = false → isNaN b = false →
    ¬(isInf a = true ∧ isInf b = true ∧ signBit a = signBit b) →
    (isInf a = true ∨ isInf b = true ∨
      scaledValue (dazOperand env.daz a) ≠ scaledValue (dazOperand env.daz b)) →
    (laneSub { env with rc := match env.rc with
        | .rn => .rn
        | .rd => .ru
        | .ru => .rd
        | .rz => .rz } b a).r = (laneSub env a b).r ^^^ 0x8000000000000000#64

/-- R27 RN with R121: a finite result that was not flushed is a nearest finite value to the exact
difference, and the even one of two. -/
def Obligations.NearestRoundingIsNearest : Prop :=
  ∀ (daz ftz um : Bool) (a b : Lane), isFinite a = true → isFinite b = true →
    let l := laneSub { rc := .rn, daz := daz, ftz := ftz, um := um } a b
    let d := exactDifference daz a b
    isFinite l.r = true → l.post &&& flagUE = 0 →
    ∀ w : Lane, isFinite w = true →
      (scaledValue l.r - d).natAbs ≤ (scaledValue w - d).natAbs ∧
      ((scaledValue l.r - d).natAbs = (scaledValue w - d).natAbs → scaledValue w ≠ scaledValue l.r →
        fracField l.r % 2 = 0)

/-- R27 RD, RU, RZ with R121, R122: a finite result that was not flushed is the closest finite value on its
side: the largest one not above the exact difference (RD), the smallest not below it (RU), the largest in
magnitude not beyond it (RZ). -/
def Obligations.DirectedRoundingIsClosest : Prop :=
  ∀ (env : FpEnv) (a b : Lane), isFinite a = true → isFinite b = true →
    let l := laneSub env a b
    let d := exactDifference env.daz a b
    isFinite l.r = true → l.post &&& flagUE = 0 →
    (env.rc = .rd → scaledValue l.r ≤ d ∧
      ∀ w : Lane, isFinite w = true → scaledValue w ≤ d → scaledValue w ≤ scaledValue l.r) ∧
    (env.rc = .ru → d ≤ scaledValue l.r ∧
      ∀ w : Lane, isFinite w = true → d ≤ scaledValue w → scaledValue l.r ≤ scaledValue w) ∧
    (env.rc = .rz → magnitude l.r ≤ d.natAbs ∧ (d ≠ 0 → signBit l.r = decide (d < 0)) ∧
      ∀ w : Lane, isFinite w = true → magnitude w ≤ d.natAbs → magnitude w ≤ magnitude l.r)

/-- R121, R122, R125: for finite operands and no flush, precision is signalled exactly when the result is
an infinity or differs from the exact difference. -/
def Obligations.PrecisionMeansInexact : Prop :=
  ∀ (env : FpEnv) (a b : Lane), isFinite a = true → isFinite b = true →
    let l := laneSub env a b
    l.post &&& flagUE = 0 →
    (l.post &&& flagPE ≠ 0 ↔
      isFinite l.r = false ∨ scaledValue l.r ≠ exactDifference env.daz a b)

/-- R122: a difference overflows, in units of 2^-1074, when it rounds past `MAXF = (2^53 - 1) * 2^2045`: to
nearest from `2^2098 - 2^2044` on, away from zero from just above `MAXF` on, toward zero from `2^2098` on.
Then OE and PE are signalled, and the result is that of R122's table; otherwise OE is not signalled. -/
def Obligations.OverflowResults : Prop :=
  ∀ (env : FpEnv) (a b : Lane), isFinite a = true → isFinite b = true →
    let d := exactDifference env.daz a b
    let tooBig : Prop :=
      match env.rc, decide (d < 0) with
      | .rn, _ => 2 ^ 2098 - 2 ^ 2044 ≤ d.natAbs
      | .rd, true => (2 ^ 53 - 1) * 2 ^ 2045 < d.natAbs
      | .ru, false => (2 ^ 53 - 1) * 2 ^ 2045 < d.natAbs
      | .rd, false => 2 ^ 2098 ≤ d.natAbs
      | .ru, true => 2 ^ 2098 ≤ d.natAbs
      | .rz, _ => 2 ^ 2098 ≤ d.natAbs
    (¬tooBig → (laneSub env a b).post &&& flagOE = 0) ∧
    (tooBig → (laneSub env a b).post = flagOE ||| flagPE ∧ (laneSub env a b).tiny = false ∧
    (laneSub env a b).r =
      match env.rc, decide (d < 0) with
      | .rn, false => 0x7FF0000000000000#64
      | .rn, true => 0xFFF0000000000000#64
      | .rd, false => 0x7FEFFFFFFFFFFFFF#64
      | .rd, true => 0xFFF0000000000000#64
      | .ru, false => 0x7FF0000000000000#64
      | .ru, true => 0xFFEFFFFFFFFFFFFF#64
      | .rz, false => 0x7FEFFFFFFFFFFFFF#64
      | .rz, true => 0xFFEFFFFFFFFFFFFF#64)

/-- R123, R124: a result is tiny exactly when the exact difference is nonzero and below 2^-1022 in
magnitude; it is then exact with no post-computation flag, unless FTZ and UM make it the zero of its sign with UE and PE,
the only way UE is signalled. -/
def Obligations.TinyResultsAreExactOrFlushed : Prop :=
  ∀ (env : FpEnv) (a b : Lane), isFinite a = true → isFinite b = true →
    let l := laneSub env a b
    let d := exactDifference env.daz a b
    (l.tiny = true ↔ d ≠ 0 ∧ d.natAbs < 2 ^ 52) ∧
    (l.post &&& flagUE ≠ 0 → l.tiny = true ∧ env.ftz = true ∧ env.um = true) ∧
    (l.tiny = true →
      (env.ftz = true ∧ env.um = true →
        l.r = (if d < 0 then 0x8000000000000000#64 else 0) ∧ l.post = flagUE ||| flagPE) ∧
      (¬(env.ftz = true ∧ env.um = true) →
        scaledValue l.r = d ∧ isDenormal l.r = true ∧ l.post = 0))

/-- R117, R118: denormal operands and one infinity, when no operand is a NaN. Under DAZ each denormal
operand counts as the zero of its sign; DE is signalled exactly when DAZ is off and an operand is a denormal;
an infinite minuend is the result, an infinite subtrahend its negation. -/
def Obligations.DenormalAndInfiniteOperands : Prop :=
  ∀ (env : FpEnv) (a b : Lane), isNaN a = false → isNaN b = false →
    ¬(isInf a = true ∧ isInf b = true ∧ signBit a = signBit b) →
    (env.daz = true → laneSub env a b = laneSub env
      (if isDenormal a = true then (if signBit a then 0x8000000000000000#64 else 0) else a)
      (if isDenormal b = true then (if signBit b then 0x8000000000000000#64 else 0) else b)) ∧
    (laneSub env a b).pre =
      (if env.daz = false ∧ (isDenormal a = true ∨ isDenormal b = true) then flagDE else 0) ∧
    (isInf a = true → (laneSub env a b).r = a ∧ (laneSub env a b).post = 0 ∧
      (laneSub env a b).tiny = false) ∧
    (isInf a = false → isInf b = true →
      (laneSub env a b).r = b ^^^ 0x8000000000000000#64 ∧ (laneSub env a b).post = 0 ∧
      (laneSub env a b).tiny = false)

/-- R120: an exact zero difference is `+0`, or `-0` when rounding down, but for `(+0) - (-0) = +0` and
`(-0) - (+0) = -0`. -/
def Obligations.ExactZeroDifference : Prop :=
  ∀ (env : FpEnv) (a b : Lane), isFinite a = true → isFinite b = true →
    exactDifference env.daz a b = 0 →
    (laneSub env a b).post = 0 ∧ (laneSub env a b).tiny = false ∧
    (laneSub env a b).r =
      if signBit a = signBit b then (if env.rc = .rd then 0x8000000000000000#64 else 0)
      else if signBit a then 0x8000000000000000#64 else 0
end

