-- ==== Sys2Proof/Laws/PerInstr.lean ====
section
/-! SUPPORT. Facts about the instruction as syntax, one lemma per constructor: the encoding of an
instruction has the length R93 gives it. -/

namespace Sys2Proof.Laws.EncodeLength

/-- The encoding has as many bytes as the instruction is long (R93), when ModRM says whether a SIB
byte and how many displacement bytes follow. -/
def Statement (i : Instr) : Prop := (encode i).length = i.length

/-- The bytes of a tail. -/
theorem tail_bytes_length (t : Tail) : t.bytes.length = t.length := by
  obtain ⟨m, sib, d⟩ := t
  cases sib <;> cases d <;> rfl

theorem subpd (t : Tail) : Statement (.subpd t) := by
  simp [Statement, encode, Instr.length, tail_bytes_length]; omega

theorem subpdRex (p : Rex) (t : Tail) : Statement (.subpdRex p t) := by
  simp [Statement, encode, Instr.length, tail_bytes_length]; omega

theorem vsubpdXmmVex2 (p : Vex2) (t : Tail) : Statement (.vsubpdXmmVex2 p t) := by
  simp [Statement, encode, Instr.length, tail_bytes_length, Vex2.bytes]; omega

theorem vsubpdXmmVex3 (p : Vex3) (t : Tail) : Statement (.vsubpdXmmVex3 p t) := by
  simp [Statement, encode, Instr.length, tail_bytes_length, Vex3.bytes]; omega

theorem vsubpdYmmVex2 (p : Vex2) (t : Tail) : Statement (.vsubpdYmmVex2 p t) := by
  simp [Statement, encode, Instr.length, tail_bytes_length, Vex2.bytes]; omega

theorem vsubpdYmmVex3 (p : Vex3) (t : Tail) : Statement (.vsubpdYmmVex3 p t) := by
  simp [Statement, encode, Instr.length, tail_bytes_length, Vex3.bytes]; omega

theorem vsubpdXmmEvex (p : Evex) (t : Tail) : Statement (.vsubpdXmmEvex p t) := by
  simp [Statement, encode, Instr.length, tail_bytes_length, Evex.bytes]; omega

theorem vsubpdXmmEvexBcst (p : Evex) (t : Tail) : Statement (.vsubpdXmmEvexBcst p t) := by
  simp [Statement, encode, Instr.length, tail_bytes_length, Evex.bytes]; omega

theorem vsubpdXmmEvexBcstD32 (p : Evex) (t : Tail) : Statement (.vsubpdXmmEvexBcstD32 p t) := by
  simp [Statement, encode, Instr.length, tail_bytes_length, Evex.bytes]; omega

theorem vsubpdYmmEvex (p : Evex) (t : Tail) : Statement (.vsubpdYmmEvex p t) := by
  simp [Statement, encode, Instr.length, tail_bytes_length, Evex.bytes]; omega

theorem vsubpdYmmEvexBcst (p : Evex) (t : Tail) : Statement (.vsubpdYmmEvexBcst p t) := by
  simp [Statement, encode, Instr.length, tail_bytes_length, Evex.bytes]; omega

theorem vsubpdYmmEvexBcstD32 (p : Evex) (t : Tail) : Statement (.vsubpdYmmEvexBcstD32 p t) := by
  simp [Statement, encode, Instr.length, tail_bytes_length, Evex.bytes]; omega

theorem vsubpdZmmEvex (p : Evex) (t : Tail) : Statement (.vsubpdZmmEvex p t) := by
  simp [Statement, encode, Instr.length, tail_bytes_length, Evex.bytes]; omega

theorem vsubpdZmmEvexBcst (p : Evex) (t : Tail) : Statement (.vsubpdZmmEvexBcst p t) := by
  simp [Statement, encode, Instr.length, tail_bytes_length, Evex.bytes]; omega

theorem vsubpdZmmEvexBcstD32 (p : Evex) (t : Tail) : Statement (.vsubpdZmmEvexBcstD32 p t) := by
  simp [Statement, encode, Instr.length, tail_bytes_length, Evex.bytes]; omega

theorem vsubpdZmmEvexEr (p : Evex) (rc : RoundMode) (t : Tail) : Statement (.vsubpdZmmEvexEr p rc t) := by
  simp [Statement, encode, Instr.length, tail_bytes_length, Evex.bytes]; omega

end Sys2Proof.Laws.EncodeLength
end

