-- ==== Sys2Proof/Tests/Slice0.lean ====
section
/-! SUPPORT. The model's own tests. Expected results are the spec's: the vectors T, E and V of
95_test_vectors.md and the worked examples of 30_encoding.md, or are worked out by hand from the rules
named. After them, one witness for the hypotheses of every statement that has some. -/

namespace Sys2Proof.Tests

open Machine

set_option Elab.async false

/-! ## Helpers -/

def nextOf : Result → Option State
  | .next t => some t
  | .fault _ => none
  | .refused _ => none

def faultOf : Result → Option Fault
  | .next _ => none
  | .fault f => some f
  | .refused _ => none

def refusalOf : Result → Option Refusal
  | .next _ => none
  | .fault _ => none
  | .refused r => some r

theorem exists_next {r : Result} (h : (nextOf r).isSome = true) : ∃ t, r = .next t := by
  cases r with
  | next t => exact ⟨t, rfl⟩
  | fault f => cases h
  | refused f => cases h

theorem eq_fault {r : Result} {f : Fault} (h : faultOf r = some f) : r = .fault f := by
  cases r with
  | next t => cases h
  | fault g => cases h; rfl
  | refused g => cases h

/-- `SYS` with every enable set (R212), CPL 0, no alignment checking. -/
def on : Sys :=
  { cr0Em := false, cr0Ts := false, cr0Am := false, cr4Osfxsr := true, cr4Osxmmexcpt := true,
    cr4Osxsave := true, xcr0Sse := true, xcr0Avx := true, xcr0Opmask := true,
    xcr0ZmmHi256 := true, xcr0Hi16Zmm := true, eflagsAc := false, cpl := 0 }

/-- The launch state of 95_test_vectors.md: `M64`, everything enabled, MXCSR `0x1F80`, `pc = 0x1000`. -/
def base : State := { State.reset with mode := .m64, pc := 0x1000, sys := on }

/-- `base` with a program at `0x1000`. -/
def prog (bs : List Byte) : State := { base with text := Memory.writeBytes [] 0x1000 bs }

/-- A state with the listed lanes, lane 0 first, in `V[n]`. -/
def setV (n : BitVec 5) (l : List Lane) (s : State) : State := s.writeV n (ofLanes l)

/-- A state with a value in `x[n]`. -/
def setX (n : Fin 16) (v : Addr) (s : State) : State := { s with gpr := s.gpr.set n v }

/-- A state with a value in `K[n]`. -/
def setK (n : Fin 8) (v : KReg) (s : State) : State := { s with opmask := s.opmask.set n v }

/-- A state with bytes in memory. -/
def setM (a : Nat) (bs : List Byte) (s : State) : State :=
  { s with mem := Memory.writeBytes s.mem a bs }

/-- The first `k` lanes of `V[n]` after one step, `pc` and MXCSR. -/
def after (n : BitVec 5) (k : Nat) (s : State) : Option (List Lane × Addr × BitVec 32) :=
  (nextOf (step s)).map fun t => ((List.range k).map fun j => lane (t.readV n) j, t.pc, t.mxcsr)

def ones : Lane := 0xFFFFFFFFFFFFFFFF
def n1 : Lane := 0x3FF0000000000000
def n2 : Lane := 0x4000000000000000
def n3 : Lane := 0x4008000000000000
def n5 : Lane := 0x4014000000000000
/-- 1.0 in memory. -/
def m1 : List Byte := [0, 0, 0, 0, 0, 0, 0xF0, 0x3F]
/-- 2.0 in memory. -/
def m2 : List Byte := [0, 0, 0, 0, 0, 0, 0, 0x40]
/-- 1.0 to 8.0. -/
def oneToEight : List Lane :=
  [n1, n2, n3, 0x4010000000000000, n5, 0x4018000000000000, 0x401C000000000000, 0x4020000000000000]
/-- 0.0 to 7.0. -/
def zeroToSeven : List Lane := 0 :: oneToEight.take 7

/-! ## WellFormed: each check refuses an ill-formed term -/

def regTail : Tail := ⟨⟨3, 0, 2⟩, none, .none⟩
def memTail : Tail := ⟨⟨0, 0, 0⟩, none, .none⟩
def mem32Tail : Tail := ⟨⟨2, 0, 0⟩, none, .d32 0x100⟩
def ev0 : Evex := ⟨false, false, false, false, false, 1, false, 0⟩

theorem test_wf_accepts :
    (Instr.subpd memTail).wellFormed .m64 = true ∧ (Instr.subpd memTail).wellFormed .m32 = true ∧
    (Instr.vsubpdZmmEvexEr ev0 .ru regTail).wellFormed .m32 = true := by decide

theorem test_wf_sib_absent : (Instr.subpd ⟨⟨0, 0, 4⟩, none, .none⟩).wellFormed .m64 = false := by decide
theorem test_wf_sib_present :
    (Instr.subpd ⟨⟨0, 0, 0⟩, some ⟨0, 0, 0⟩, .none⟩).wellFormed .m64 = false := by decide
theorem test_wf_disp_missing : (Instr.subpd ⟨⟨1, 0, 0⟩, none, .none⟩).wellFormed .m64 = false := by decide
theorem test_wf_disp_wrong : (Instr.subpd ⟨⟨0, 0, 5⟩, none, .d8 0⟩).wellFormed .m64 = false := by decide
theorem test_wf_sib_base5 :
    (Instr.subpd ⟨⟨0, 0, 4⟩, some ⟨0, 0, 5⟩, .none⟩).wellFormed .m64 = false := by decide
theorem test_wf_zeroing_without_mask :
    (Instr.vsubpdXmmEvex ⟨false, false, false, false, false, 1, true, 0⟩ regTail).wellFormed .m64 = false := by
  decide
theorem test_wf_broadcast_register : (Instr.vsubpdXmmEvexBcst ev0 regTail).wellFormed .m64 = false := by decide
theorem test_wf_broadcast_long : (Instr.vsubpdYmmEvexBcst ev0 mem32Tail).wellFormed .m64 = false := by decide
theorem test_wf_broadcast_short : (Instr.vsubpdZmmEvexBcstD32 ev0 memTail).wellFormed .m64 = false := by decide
theorem test_wf_rounding_memory : (Instr.vsubpdZmmEvexEr ev0 .rn memTail).wellFormed .m64 = false := by decide
theorem test_wf_m32_rex :
    (Instr.subpdRex ⟨false, false, false, false⟩ memTail).wellFormed .m32 = false := by decide
theorem test_wf_m32_vex2 : (Instr.vsubpdXmmVex2 ⟨true, 1⟩ regTail).wellFormed .m32 = false := by decide
theorem test_wf_m32_vex3 :
    (Instr.vsubpdXmmVex3 ⟨false, false, true, false, 1⟩ regTail).wellFormed .m32 = false := by decide
theorem test_wf_m32_evex :
    (Instr.vsubpdXmmEvex ⟨false, false, false, true, false, 1, false, 0⟩ regTail).wellFormed .m32 = false := by
  decide
theorem test_wf_other_mode : (Instr.subpd memTail).wellFormed .other = false := by decide

/-! ## Decoding: words written out from the spec's encodings -/

/-- E1, E4, E5 and E3 of 95_test_vectors.md: form 1. -/
theorem test_decode_form1 :
    decode .m64 [0x66, 0x0F, 0x5C, 0xC1] = .instr (.subpd ⟨⟨3, 0, 1⟩, none, .none⟩) ∧
    decode .m64 [0x66, 0x0F, 0x5C, 0x44, 0x24, 0x10] =
      .instr (.subpd ⟨⟨1, 0, 4⟩, some ⟨0, 4, 4⟩, .d8 0x10⟩) ∧
    decode .m32 [0x66, 0x0F, 0x5C, 0x05, 0, 1, 0, 0] = .instr (.subpd ⟨⟨0, 0, 5⟩, none, .d32 0x100⟩) ∧
    decode .m64 [0x66, 0x44, 0x0F, 0x5C, 0x08] =
      .instr (.subpdRex ⟨false, true, false, false⟩ ⟨⟨0, 1, 0⟩, none, .none⟩) := by decide

/-- E7, E8, E9, E12, E10: forms 2 and 3. -/
theorem test_decode_vex :
    decode .m32 [0xC5, 0xF1, 0x5C, 0xC2] = .instr (.vsubpdXmmVex2 ⟨false, 1⟩ regTail) ∧
    decode .m64 [0xC5, 0xF5, 0x5C, 0xC2] = .instr (.vsubpdYmmVex2 ⟨false, 1⟩ regTail) ∧
    decode .m64 [0xC5, 0xDD, 0x5C, 0x1B] =
      .instr (.vsubpdYmmVex2 ⟨false, 4⟩ ⟨⟨0, 3, 3⟩, none, .none⟩) ∧
    decode .m64 [0xC4, 0xE1, 0xF1, 0x5C, 0xC2] =
      .instr (.vsubpdXmmVex3 ⟨false, false, false, true, 1⟩ regTail) ∧
    decode .m64 [0xC4, 0xC1, 0x75, 0x5C, 0xC0] =
      .instr (.vsubpdYmmVex3 ⟨false, false, true, false, 1⟩ ⟨⟨3, 0, 0⟩, none, .none⟩) := by decide

/-- E15, E16 and, with `mod = 10` by R81 and R87, the second broadcast row: form 4. -/
theorem test_decode_evex128 :
    decode .m64 [0x62, 0xF1, 0xF5, 0x0A, 0x5C, 0x40, 0x01] =
      .instr (.vsubpdXmmEvex ⟨false, false, false, false, false, 1, false, 2⟩ ⟨⟨1, 0, 0⟩, none, .d8 1⟩) ∧
    decode .m64 [0x62, 0xF1, 0xF5, 0x1A, 0x5C, 0x40, 0x01] =
      .instr (.vsubpdXmmEvexBcst ⟨false, false, false, false, false, 1, false, 2⟩
        ⟨⟨1, 0, 0⟩, none, .d8 1⟩) ∧
    decode .m64 [0x62, 0xF1, 0xF5, 0x18, 0x5C, 0x80, 0, 1, 0, 0] =
      .instr (.vsubpdXmmEvexBcstD32 ev0 mem32Tail) := by decide

/-- E17 and, by R81, `L'L = 01` with `b = 0` and with `mod = 10`: form 5. -/
theorem test_decode_evex256 :
    decode .m64 [0x62, 0xF1, 0xF5, 0x28, 0x5C, 0xC2] = .instr (.vsubpdYmmEvex ev0 regTail) ∧
    decode .m64 [0x62, 0xF1, 0xF5, 0xB9, 0x5C, 0x00] =
      .instr (.vsubpdYmmEvexBcst ⟨false, false, false, false, false, 1, true, 1⟩ memTail) ∧
    decode .m64 [0x62, 0xF1, 0xF5, 0x38, 0x5C, 0x80, 0, 1, 0, 0] =
      .instr (.vsubpdYmmEvexBcstD32 ev0 mem32Tail) := by decide

/-- E18, E27, E20, E23 to E26 and, by R81, the second broadcast row: form 6. -/
theorem test_decode_evex512 :
    decode .m32 [0x62, 0xF1, 0xF5, 0x48, 0x5C, 0xC2] = .instr (.vsubpdZmmEvex ev0 regTail) ∧
    decode .m64 [0x62, 0xA1, 0xED, 0x40, 0x5C, 0xCB] =
      .instr (.vsubpdZmmEvex ⟨false, true, false, true, true, 2, false, 0⟩ ⟨⟨3, 1, 3⟩, none, .none⟩) ∧
    decode .m64 [0x62, 0xF1, 0xF5, 0x58, 0x5C, 0x00] = .instr (.vsubpdZmmEvexBcst ev0 memTail) ∧
    decode .m64 [0x62, 0xF1, 0xF5, 0x58, 0x5C, 0x80, 0, 1, 0, 0] =
      .instr (.vsubpdZmmEvexBcstD32 ev0 mem32Tail) ∧
    decode .m64 [0x62, 0xF1, 0xF5, 0x18, 0x5C, 0xC2] = .instr (.vsubpdZmmEvexEr ev0 .rn regTail) ∧
    decode .m64 [0x62, 0xF1, 0xF5, 0x38, 0x5C, 0xC2] = .instr (.vsubpdZmmEvexEr ev0 .rd regTail) ∧
    decode .m64 [0x62, 0xF1, 0xF5, 0x58, 0x5C, 0xC2] = .instr (.vsubpdZmmEvexEr ev0 .ru regTail) ∧
    decode .m64 [0x62, 0xF1, 0xF5, 0x78, 0x5C, 0xC2] = .instr (.vsubpdZmmEvexEr ev0 .rz regTail) := by
  decide

/-- E29 to E34 and, by R184, REX before VEX: #UD. -/
theorem test_decode_ud :
    [[0x62, 0xF1, 0xF5, 0x88, 0x5C, 0xC2], [0x62, 0xF1, 0xF5, 0x68, 0x5C, 0x00],
      [0x62, 0xF1, 0xF5, 0x78, 0x5C, 0x00], [0x62, 0xF1, 0xF5, 0x68, 0x5C, 0xC2],
      [0xF0, 0x66, 0x0F, 0x5C, 0x08], [0x66, 0xC5, 0xF1, 0x5C, 0xC2],
      [0x48, 0xC5, 0xF1, 0x5C, 0xC2]].all (fun bs => decode .m64 bs == .ud) = true := by decide

/-- E35 to E37, E11, E28: refused, each by its name. -/
theorem test_decode_refused :
    decode .m64 [0x0F, 0x5C, 0xC1] = .reject .otherInstruction ∧
    decode .m64 [0xF3, 0x0F, 0x5C, 0xC1] = .reject .otherInstruction ∧
    decode .m64 [0xF2, 0x0F, 0x5C, 0xC1] = .reject .otherInstruction ∧
    decode .m64 [0x62, 0xF1, 0x75, 0x48, 0x5C, 0xC2] = .reject .evexReserved ∧
    decode .m64 [0x67, 0x66, 0x0F, 0x5C, 0x08] = .reject .prefixNotAdmitted ∧
    decode .m64 [0x66, 0x66, 0x0F, 0x5C, 0xC1] = .reject .prefixNotAdmitted ∧
    decode .m64 [0x66, 0x2E, 0x0F, 0x5C, 0x08] = .reject .prefixNotAdmitted ∧
    decode .m32 [0xC4, 0xC1, 0x75, 0x5C, 0xC0] = .reject .m32Extension ∧
    decode .m32 [0x62, 0xA1, 0xED, 0x40, 0x5C, 0xCB] = .reject .m32OtherOpcode ∧
    decode .m64 [0x66, 0x0F, 0x5C] = .reject .bytesRunOut ∧
    decode .other [0x66, 0x0F, 0x5C, 0xC1] = .reject .modeNotModelled := by decide

/-- `C5 F1 5C C2` as a word of the opcode table. -/
theorem test_table_word : decodeTableWord 32 0xC25CF1C5 = some (.vsubpdXmmVex2 ⟨false, 1⟩ regTail) := by
  decide

/-- The word placed for the next step is fetched; straight after reset the form is #UD (R38). -/
theorem test_fetch_word :
    faultOf (step (State.reset.withFetchWord 32 0xC25CF1C5)) =
      some (.raised .ud (State.reset.withFetchWord 32 0xC25CF1C5)) := by decide +kernel

/-! ## One lane: vectors of 95_test_vectors.md section 2.1 -/

def laneRow (rc : RoundMode) (daz ftz um : Bool) (a b r : Lane) (pre post : BitVec 6) (tiny : Bool) : Bool :=
  laneSub ⟨rc, daz, ftz, um⟩ a b == ⟨r, pre, post, tiny⟩

/-- T2, T4, T5, T7 to T12, T14, T16: zeros and infinities. -/
theorem test_lane_zeros_infinities :
    (laneRow .ru false false true n1 n3 0xC000000000000000 0 0 false &&
    laneRow .rd false false true n1 n1 0x8000000000000000 0 0 false &&
    laneRow .rn false false true 0 0 0 0 0 false &&
    laneRow .rd false false true 0 0x8000000000000000 0 0 0 false &&
    laneRow .rn false false true 0x8000000000000000 0 0x8000000000000000 0 0 false &&
    laneRow .rz false false true 0x8000000000000000 0x8000000000000000 0 0 0 false &&
    laneRow .rd false false true 0x8000000000000000 0x8000000000000000 0x8000000000000000 0 0 false &&
    laneRow .rn false false true 0x7FF0000000000000 0x7FF0000000000000 0xFFF8000000000000 1 0 false &&
    laneRow .rn false false true 0xFFF0000000000000 0xFFF0000000000000 0xFFF8000000000000 1 0 false &&
    laneRow .rn false false true 0xFFF0000000000000 0x7FF0000000000000 0xFFF0000000000000 0 0 false &&
    laneRow .rn false false true n1 0x7FF0000000000000 0xFFF0000000000000 0 0 false) = true := by
  decide +kernel

/-- T18 to T26: NaN operands. -/
theorem test_lane_nans :
    (laneRow .rn false false true 0x7FF0000000000001 n1 0x7FF8000000000001 1 0 false &&
    laneRow .rn false false true n1 0xFFF0000000000001 0xFFF8000000000001 1 0 false &&
    laneRow .rn false false true 0x7FF8000000000123 0x7FF0000000000456 0x7FF8000000000123 1 0 false &&
    laneRow .rn false false true n1 0xFFF8000000000ABC 0xFFF8000000000ABC 0 0 false &&
    laneRow .rn false false true 0xFFF4000000000000 0x7FF8000000000001 0xFFFC000000000000 1 0 false &&
    laneRow .rn false false true 0x7FF8000000000001 0xFFF8000000000002 0x7FF8000000000001 0 0 false &&
    laneRow .rn false false true 0x7FF8000000000000 1 0x7FF8000000000000 0 0 false &&
    laneRow .rn false false true 0x7FF4000000000000 1 0x7FFC000000000000 1 0 false) = true := by
  decide +kernel

/-- T27 to T34: overflow. -/
theorem test_lane_overflow :
    (laneRow .rn false false true 0x7FEFFFFFFFFFFFFF 0xFFEFFFFFFFFFFFFF 0x7FF0000000000000 0 40 false &&
    laneRow .rz false false true 0x7FEFFFFFFFFFFFFF 0xFFEFFFFFFFFFFFFF 0x7FEFFFFFFFFFFFFF 0 40 false &&
    laneRow .rd false false true 0xFFEFFFFFFFFFFFFF 0x7FEFFFFFFFFFFFFF 0xFFF0000000000000 0 40 false &&
    laneRow .ru false false true 0xFFEFFFFFFFFFFFFF 0x7FEFFFFFFFFFFFFF 0xFFEFFFFFFFFFFFFF 0 40 false &&
    laneRow .rn false false true 0x7FEFFFFFFFFFFFFF 0xFC90000000000000 0x7FF0000000000000 0 40 false &&
    laneRow .rd false false true 0x7FEFFFFFFFFFFFFF 0xFC90000000000000 0x7FEFFFFFFFFFFFFF 0 32 false &&
    laneRow .rn false false true 0x7FEFFFFFFFFFFFFF 0xFC80000000000000 0x7FEFFFFFFFFFFFFF 0 32 false &&
    laneRow .ru false false true 0x7FEFFFFFFFFFFFFF 0xFC80000000000000 0x7FF0000000000000 0 40 false) =
      true := by decide +kernel

/-- T35 to T45: rounding. -/
theorem test_lane_rounding :
    (laneRow .rn false false true n1 0x3C90000000000000 n1 0 32 false &&
    laneRow .rz false false true n1 0x3C90000000000000 0x3FEFFFFFFFFFFFFF 0 32 false &&
    laneRow .rn false false true n1 0x3CA0000000000000 0x3FEFFFFFFFFFFFFF 0 0 false &&
    laneRow .rd false false true 0xBFF0000000000000 0x3C90000000000000 0xBFF0000000000001 0 32 false &&
    laneRow .ru false false true 0xBFF0000000000000 0x3C90000000000000 0xBFF0000000000000 0 32 false &&
    laneRow .rn false false true 0x4340000000000001 n1 0x4340000000000000 0 32 false &&
    laneRow .ru false false true 0x4340000000000001 n1 0x4340000000000001 0 32 false &&
    laneRow .rn false false true 0x4341C37937E08000 n1 0x4341C37937E08000 0 32 false &&
    laneRow .rd false false true 0x4341C37937E08000 n1 0x4341C37937E07FFF 0 32 false &&
    laneRow .rn false false true 0x3FB999999999999A 0x3FD3333333333333 0xBFC9999999999999 0 0 false) =
      true := by decide +kernel

/-- T46 to T51, T54 to T60: denormals, DAZ, FTZ, UM. -/
theorem test_lane_denormals :
    (laneRow .rn false false true 0x0010000000000000 0x0008000000000000 0x0008000000000000 2 0 true &&
    laneRow .rn true false true 0x0010000000000000 0x0008000000000000 0x0010000000000000 0 0 false &&
    laneRow .rn false true true 0x0010000000000000 0x0008000000000000 0 2 48 true &&
    laneRow .rn false false true 0x0018000000000000 0x0010000000000000 0x0008000000000000 0 0 true &&
    laneRow .rn false true true 0x0018000000000000 0x0010000000000000 0 0 48 true &&
    laneRow .rn false true false 0x0018000000000000 0x0010000000000000 0x0008000000000000 0 0 true &&
    laneRow .rd false false true 5 5 0x8000000000000000 2 0 false &&
    laneRow .rn false false true 5 7 0x8000000000000002 2 0 true &&
    laneRow .rd true false true 5 7 0x8000000000000000 0 0 false &&
    laneRow .rn true false true 0x8000000000000005 0 0x8000000000000000 0 0 false &&
    laneRow .rn false false true 0x7FF0000000000000 1 0x7FF0000000000000 2 0 false &&
    laneRow .rn true false true 0x7FF0000000000000 1 0x7FF0000000000000 0 0 false) = true := by
  decide +kernel

/-! ## Steps: at most two for each constructor -/

/-- V1: the upper bits of the destination stay. -/
theorem test_subpd_register :
    after 0 3 (setV 1 [n1, n2] (setV 0 [n3, n5, ones] (prog [0x66, 0x0F, 0x5C, 0xC1]))) =
      some ([n2, n3, ones], 0x1004, 0x1F80) := by decide +kernel

def v3 : State :=
  setX 0 0x3000 (setM 0x3000 (m1 ++ m2) (setV 1 [n3, 0x4010000000000000]
    (prog [0x66, 0x0F, 0x5C, 0x08])))

/-- V3: the memory operand's two lanes, and the one read of 16 bytes. -/
theorem test_subpd_memory :
    after 1 2 v3 = some ([n2, n2], 0x1004, 0x1F80) ∧
    (nextOf (step v3)).map (·.reads) = some [⟨0x3000, 16, m1 ++ m2⟩] := by decide +kernel

/-- E3 with `REX.R`: the destination is `V[9]` (values by R140). -/
theorem test_subpdRex :
    after 9 2 (setX 0 0x3000 (setM 0x3000 (m1 ++ m2) (setV 9 [n3, n5]
      (prog [0x66, 0x44, 0x0F, 0x5C, 0x08])))) = some ([n2, n3], 0x1005, 0x1F80) := by decide +kernel

/-- `66 43 0F 5C 04 A0`: `REX.X = REX.B = 1`, base `x[8]`, index `x[12] * 4` (R88). -/
theorem test_subpdRex_index :
    after 0 2 (setX 8 0x3000 (setX 12 0x10 (setM 0x3040 (m1 ++ m2) (setV 0 [n3, n5]
      (prog [0x66, 0x43, 0x0F, 0x5C, 0x04, 0xA0]))))) = some ([n2, n3], 0x1006, 0x1F80) := by
  decide +kernel

/-- V10: the bits above 127 become zero. -/
theorem test_vsubpdXmmVex2 :
    after 0 3 (setV 1 [n1, 0x4024000000000000] (setV 2 [n1, 0x401C000000000000] (setV 0 [ones, ones, ones]
      (prog [0xC5, 0xF1, 0x5C, 0xC2])))) = some ([0, n3, 0], 0x1004, 0x1F80) := by decide +kernel

/-- V11: the destination is also the second source. -/
theorem test_vsubpdXmmVex2_alias :
    after 0 3 (setV 1 [n1, n1] (setV 0 [0x3FE0000000000000, 0x3FD0000000000000, ones]
      (prog [0xC5, 0xF1, 0x5C, 0xC0]))) =
      some ([0x3FE0000000000000, 0x3FE8000000000000, 0], 0x1004, 0x1F80) := by decide +kernel

/-- E12 with V10's values: `W = 1` is ignored, length 5. -/
theorem test_vsubpdXmmVex3 :
    after 0 3 (setV 1 [n1, 0x4024000000000000] (setV 2 [n1, 0x401C000000000000] (setV 0 [ones, ones, ones]
      (prog [0xC4, 0xE1, 0xF1, 0x5C, 0xC2])))) = some ([0, n3, 0], 0x1005, 0x1F80) := by decide +kernel

/-- V12: four lanes, zeros above. -/
theorem test_vsubpdYmmVex2 :
    after 0 5 (setV 1 [n2, 0x4010000000000000, 0x4018000000000000, 0x4020000000000000]
      (setV 2 (List.replicate 4 0x3FE0000000000000) (setV 0 (List.replicate 8 ones)
        (prog [0xC5, 0xF5, 0x5C, 0xC2])))) =
      some ([0x3FF8000000000000, 0x400C000000000000, 0x4016000000000000, 0x401E000000000000, 0],
        0x1004, 0x1F80) := by decide +kernel

/-- V13: an unaligned 32-byte operand is read (lane 0 = 3.0 - 1.0, lane 1 = 5.0 - 2.0). -/
theorem test_vsubpdYmmVex2_unaligned :
    after 3 2 (setX 3 0x2004 (setM 0x2004 (m1 ++ m2) (setV 4 [n3, n5]
      (prog [0xC5, 0xDD, 0x5C, 0x1B])))) = some ([n2, n3], 0x1004, 0x1F80) := by decide +kernel

/-- E10: the second source is `V[8]`. -/
theorem test_vsubpdYmmVex3 :
    after 0 4 (setV 1 [n3, n3, n3, n5] (setV 8 [n1, n2, n3, n2] (prog [0xC4, 0xC1, 0x75, 0x5C, 0xC0]))) =
      some ([n2, n1, 0, n3], 0x1005, 0x1F80) := by decide +kernel

/-- V16 with V16d's mask: a masked-off SNaN lane is merged and signals nothing. -/
theorem test_vsubpdXmmEvex :
    after 0 3 (setK 2 0xFFFFFFFFFFFFFF01 (setV 0 [0x2222222222222222, 0x1111111111111111, ones]
      (setV 1 [n3, n5] (setV 2 [n1, 0x7FF0000000000001] (prog [0x62, 0xF1, 0xF5, 0x0A, 0x5C, 0xC2]))))) =
      some ([n2, 0x1111111111111111, 0], 0x1006, 0x1F80) := by decide +kernel

/-- E15: `disp8` is scaled by 16. -/
theorem test_vsubpdXmmEvex_disp8 :
    after 0 2 (setK 2 3 (setX 0 0x3000 (setM 0x3010 (m1 ++ m2) (setV 1 [n3, n5]
      (prog [0x62, 0xF1, 0xF5, 0x0A, 0x5C, 0x40, 0x01]))))) = some ([n2, n3], 0x1007, 0x1F80) := by
  decide +kernel

/-- E16: `disp8` is scaled by 8 and one value serves both lanes. -/
theorem test_vsubpdXmmEvexBcst :
    after 0 2 (setK 2 3 (setX 0 0x3000 (setM 0x3008 m2 (setV 1 [n3, n5]
      (prog [0x62, 0xF1, 0xF5, 0x1A, 0x5C, 0x40, 0x01]))))) = some ([n1, n3], 0x1007, 0x1F80) := by
  decide +kernel

/-- R91: a 32-bit displacement is not scaled (lane 0 = 3.0 - 2.0, lane 1 = 5.0 - 2.0). -/
theorem test_vsubpdXmmEvexBcstD32 :
    after 0 2 (setX 0 0x3000 (setM 0x3100 m2 (setV 1 [n3, n5]
      (prog [0x62, 0xF1, 0xF5, 0x18, 0x5C, 0x80, 0, 1, 0, 0])))) = some ([n1, n3], 0x100A, 0x1F80) := by
  decide +kernel

/-- R165 without a mask: four lanes, zeros above. -/
theorem test_vsubpdYmmEvex :
    after 0 5 (setV 1 [n3, n3, n3, n5] (setV 2 [n1, n2, n3, n2] (setV 0 (List.replicate 8 ones)
      (prog [0x62, 0xF1, 0xF5, 0x28, 0x5C, 0xC2])))) = some ([n2, n1, 0, n3, 0], 0x1006, 0x1F80) := by
  decide +kernel

/-- V17: zeroing-masking with broadcast. -/
theorem test_vsubpdYmmEvexBcst :
    after 0 5 (setK 1 5 (setX 0 0x3000 (setM 0x3000 [0, 0, 0, 0, 0, 0, 0xE0, 0x3F]
      (setV 1 oneToEight (setV 0 (List.replicate 8 ones) (prog [0x62, 0xF1, 0xF5, 0xB9, 0x5C, 0x00])))))) =
      some ([0x3FE0000000000000, 0, 0x4004000000000000, 0, 0], 0x1006, 0x1F80) := by decide +kernel

/-- R165, R91: broadcast of 1.0 from `x[0] + 0x100`. -/
theorem test_vsubpdYmmEvexBcstD32 :
    after 0 5 (setX 0 0x3000 (setM 0x3100 m1 (setV 1 oneToEight
      (prog [0x62, 0xF1, 0xF5, 0x38, 0x5C, 0x80, 0, 1, 0, 0])))) =
      some (zeroToSeven.take 4 ++ [0], 0x100A, 0x1F80) := by decide +kernel

/-- V18. -/
theorem test_vsubpdZmmEvex :
    after 0 8 (setV 1 oneToEight (setV 2 (List.replicate 8 n1) (prog [0x62, 0xF1, 0xF5, 0x48, 0x5C, 0xC2]))) =
      some (zeroToSeven, 0x1006, 0x1F80) := by decide +kernel

/-- E27 with V18's values in `V[18]` and `V[19]`: registers above 15. -/
theorem test_vsubpdZmmEvex_high :
    after 17 8 (setV 18 oneToEight (setV 19 (List.replicate 8 n1)
      (prog [0x62, 0xA1, 0xED, 0x40, 0x5C, 0xCB]))) = some (zeroToSeven, 0x1006, 0x1F80) := by
  decide +kernel

/-- V25. -/
theorem test_vsubpdZmmEvexBcst :
    after 0 8 (setX 0 0x4000 (setM 0x4008 m1 (setV 1 oneToEight
      (prog [0x62, 0xF1, 0xF5, 0x58, 0x5C, 0x40, 0x01])))) = some (zeroToSeven, 0x1007, 0x1F80) := by
  decide +kernel

/-- R166, R91: broadcast of 1.0 from `x[0] + 0x100`. -/
theorem test_vsubpdZmmEvexBcstD32 :
    after 0 8 (setX 0 0x3000 (setM 0x3100 m1 (setV 1 oneToEight
      (prog [0x62, 0xF1, 0xF5, 0x58, 0x5C, 0x80, 0, 1, 0, 0])))) = some (zeroToSeven, 0x100A, 0x1F80) := by
  decide +kernel

/-- V19: rounding down gives `-0` and MXCSR stays `0`. -/
theorem test_vsubpdZmmEvexEr :
    after 0 8 { setV 1 (List.replicate 8 n1) (setV 2 (List.replicate 8 n1)
      (prog [0x62, 0xF1, 0xF5, 0x38, 0x5C, 0xC2])) with mxcsr := 0 } =
      some (List.replicate 8 0x8000000000000000, 0x1006, 0) := by decide +kernel

/-- V22: infinity minus infinity in every lane, everything unmasked, no trap. -/
theorem test_vsubpdZmmEvexEr_invalid :
    after 0 8 { setV 1 (List.replicate 8 0x7FF0000000000000) (setV 2 (List.replicate 8 0x7FF0000000000000)
      (prog [0x62, 0xF1, 0xF5, 0x18, 0x5C, 0xC2])) with mxcsr := 0 } =
      some (List.replicate 8 0xFFF8000000000000, 0x1006, 0) := by decide +kernel

/-! ## Faults -/

/-- The exception a step ends in. -/
def exnOf (s : State) : Option Exn :=
  match step s with
  | .next _ => none
  | .fault (.raised e _) => some e
  | .refused _ => none

def v1 : State := setV 1 [n1, n2] (setV 0 [n3, n5, ones] (prog [0x66, 0x0F, 0x5C, 0xC1]))

/-- V5a to V5e: the enables of form 1 and their order. -/
theorem test_form1_enables :
    exnOf { v1 with sys := { on with cr0Em := true } } = some .ud ∧
    exnOf { v1 with sys := { on with cr4Osfxsr := false } } = some .ud ∧
    exnOf { v1 with sys := { on with cr0Ts := true } } = some .nm ∧
    exnOf { v1 with sys := { on with cr0Em := true, cr0Ts := true } } = some .ud ∧
    exnOf { v1 with features := { v1.features with hasSse2 := false } } = some .ud := by decide +kernel

/-- V4: a misaligned operand of form 1. -/
theorem test_form1_misaligned :
    faultOf (step (setX 0 0x3008 v3)) = some (.raised .gp (setX 0 0x3008 v3)) := by decide +kernel

def v7 : State :=
  setV 1 [0x3C90000000000000, n1] (setV 0 [n1, n3] { prog [0x66, 0x0F, 0x5C, 0xC1] with mxcsr := 0x0F80 })

/-- V7a, V7b, V15, V16c: unmasked precision and invalid. -/
theorem test_traps :
    exnOf v7 = some .xm ∧ exnOf { v7 with sys := { on with cr4Osxmmexcpt := false } } = some .ud ∧
    exnOf (setV 1 [n1, 0x7FF0000000000000] (setV 2 [n1, 0x7FF0000000000000]
      { prog [0xC5, 0xF1, 0x5C, 0xC2] with mxcsr := 0x1F00 })) = some .xm ∧
    exnOf (setK 2 3 (setV 1 [n3, n5] (setV 2 [n1, 0x7FF0000000000001]
      { prog [0x62, 0xF1, 0xF5, 0x0A, 0x5C, 0xC2] with mxcsr := 0x1F00 }))) = some .xm := by
  decide +kernel

/-- V7a: when one flag is signalled and traps, the flags after the trap are that flag whatever is drawn. -/
theorem test_trap_flags : ∀ draw : BitVec 6, trapFlags 0 32 32 draw = 32 := by decide

def p4 : State := prog [0x62, 0xF1, 0xF5, 0x08, 0x5C, 0xC2]
def p6 : State := prog [0x62, 0xF1, 0xF5, 0x48, 0x5C, 0xC2]
def noVl : Features := { hasSse2 := true, hasAvx := true, hasAvx512f := true, hasAvx512vl := false }

/-- V23a, V23b, V24: the enables of forms 4 to 6. -/
theorem test_evex_enables :
    exnOf { p4 with features := noVl } = some .ud ∧
    exnOf { p4 with sys := { on with xcr0Hi16Zmm := false } } = some .ud ∧
    (nextOf (step { p6 with features := noVl })).isSome = true := by decide +kernel

def pf64 : AccessMap := [⟨on, 0x3000, 64, .pf 4 0x3000⟩]

/-- V27, V28: a page fault, and its suppression under an empty writemask. -/
theorem test_page_fault :
    exnOf (setX 0 0x3000 { prog [0x62, 0xF1, 0xF5, 0x48, 0x5C, 0x00] with access := pf64 }) =
      some (.pf 4 0x3000) ∧
    exnOf (setX 0 0x3000 { prog [0x62, 0xF1, 0xF5, 0xC9, 0x5C, 0x00] with access := pf64 }) =
      some (.pf 4 0x3000) ∧
    after 0 2 (setX 0 0x3000 { prog [0x62, 0xF1, 0xF5, 0xC9, 0x5C, 0x00] with
      access := pf64, faultSuppression := true }) = some ([0, 0], 0x1006, 0x1F80) := by decide +kernel

/-- R200: a page that the user may not read and the supervisor may. -/
theorem test_privilege_of_access :
    (let s := setX 0 0x3000 { prog [0xC5, 0xF1, 0x5C, 0x00] with
      access := [⟨{ on with cpl := 3 }, 0x3000, 16, .pf 5 0x3000⟩] }
    exnOf s = none ∧ exnOf { s with sys := { on with cpl := 3 } } = some (.pf 5 0x3000)) := by
  decide +kernel

/-- R216: at `END` nothing runs. -/
theorem test_end : refusalOf (step { v1 with stop := some 0x1000 }) = some .runCompleted := by decide +kernel

/-- R38: after reset the mode is refused. -/
theorem test_reset_step : refusalOf (step State.reset) = some (.undecoded .modeNotModelled) := by
  decide +kernel

/-! ## Witnesses: concrete operands and states that meet the hypotheses of each statement -/

theorem exists_fault {r : Result} {e : Exn} (h : (faultOf r).map (fun (.raised e _) => e) = some e) : ∃ s', r = .fault (.raised e s') := by
  cases r with
  | next t => cases h
  | fault f =>
    cases f with
    | raised e' s' => cases h; exact ⟨s', rfl⟩
  | refused g => cases h

/-- The longest tail: SIB with index 4 and base 5, and a 32-bit displacement. -/
def sibTail : Tail := ⟨⟨0, 0, 4⟩, some ⟨3, 4, 5⟩, .d32 0x80000000⟩
def ripTail : Tail := ⟨⟨0, 0, 5⟩, none, .d32 0x100⟩
def d8Tail : Tail := ⟨⟨1, 0, 0⟩, none, .d8 0x80⟩
def sibD8Tail : Tail := ⟨⟨1, 0, 4⟩, some ⟨0, 4, 5⟩, .d8 0x7F⟩
def rex0 : Rex := ⟨false, false, false, false⟩
def vex30 : Vex3 := ⟨false, false, false, false, 1⟩
/-- Writemask `k1`, merging. -/
def evk : Evex := ⟨false, false, false, false, false, 1, false, 1⟩
/-- Writemask `k1`, zeroing. -/
def evz : Evex := ⟨false, false, false, false, false, 1, true, 1⟩

theorem witness_DecodeReadsEveryEncoding :
    (Instr.subpd regTail).wellFormed .m32 = true ∧ (Instr.subpdRex rex0 sibTail).wellFormed .m64 = true ∧
    (Instr.vsubpdXmmVex2 ⟨false, 7⟩ sibTail).wellFormed .m32 = true ∧
    (Instr.vsubpdZmmEvexEr evz .rz regTail).wellFormed .m64 = true := by decide

theorem witness_DecodedBytesAreItsEncoding :
    decode .m64 [0x62, 0xF1, 0xF5, 0xC9, 0x5C, 0x04, 0xE5, 0, 0, 0, 0x80, 0x66] =
      .instr (.vsubpdZmmEvex evz sibTail) ∧
    decode .m32 [0x66, 0x0F, 0x5C, 0xC2] = .instr (.subpd regTail) := by decide

/-- Shortest and longest of each kind of encoding. -/
theorem witness_InstructionLengths :
    (Instr.subpd regTail).wellFormed .m64 = true ∧ (Instr.subpdRex rex0 sibTail).wellFormed .m64 = true ∧
    (Instr.vsubpdXmmVex2 ⟨false, 1⟩ sibTail).wellFormed .m64 = true ∧
    (Instr.vsubpdYmmVex3 vex30 sibTail).wellFormed .m64 = true ∧
    (Instr.vsubpdZmmEvex evz sibTail).wellFormed .m64 = true ∧
    (Instr.vsubpdZmmEvexEr ev0 .rn regTail).wellFormed .m64 = true := by decide

theorem witness_InvalidEncodingsRaiseUd :
    (beforeFetch (prog [0xF0, 0x66, 0x0F, 0x5C, 0x08]) = none ∧
      decode .m64 (fetchBytes (prog [0xF0, 0x66, 0x0F, 0x5C, 0x08])) = .ud) ∧
    (Instr.subpd memTail).wellFormed .m64 = true ∧
    ((Instr.vsubpdXmmVex2 ⟨false, 1⟩ regTail).wellFormed .m64 = true ∧
      (Instr.vsubpdXmmVex2 ⟨false, 1⟩ regTail).form ≠ .f1 ∧
      (0x40 : Byte).extractLsb' 4 4 = 4 ∧ (0x4F : Byte).extractLsb' 4 4 = 4) ∧
    (regTail.wf = true ∧ (ev0.r = false ∧ ev0.x = false) ∧ ¬(false = true ∧ regTail.modrm.mod = 3)) ∧
    (memTail.wf = true ∧ ¬(true = true ∧ memTail.modrm.mod = 3)) ∧
    (regTail.wf = true ∧ (⟨false, false, true, true, true, 9, true, 0⟩ : Evex).m32Ok = false ∧
      decode .m32 ((⟨false, false, true, true, true, 9, true, 0⟩ : Evex).bytes 2 false ++ [0x5C] ++
        regTail.bytes) = .ud) ∧
    ((Instr.subpd memTail).form = .f1 ∧ decode .m64 [0x66, 0xF0, 0x0F, 0x5C, 0x00] = .ud) := by
  decide +kernel

/-- `pp` at each other value. -/
theorem witness_NeighboursAreRefused :
    (0xF0 : Byte).extractLsb' 0 2 ≠ 1 ∧ (0xF2 : Byte).extractLsb' 0 2 ≠ 1 ∧
    (0xF3 : Byte).extractLsb' 0 2 ≠ 1 := by decide

theorem witness_PrefixPolicy :
    ((Instr.subpd regTail).wellFormed .m32 = true ∧ (Instr.subpd regTail).form = .f1) ∧
    ((Instr.subpdRex rex0 memTail).wellFormed .m64 = true ∧ (Instr.subpdRex rex0 memTail).form = .f1) ∧
    ((Instr.vsubpdZmmEvex ev0 regTail).wellFormed .m64 = true ∧
      (Instr.vsubpdZmmEvex ev0 regTail).form ≠ .f1) ∧
    (0x40 : Byte).extractLsb' 4 4 = 4 ∧ (0x4F : Byte).extractLsb' 4 4 = 4 := by decide

theorem witness_Mode32Restrictions :
    (0xBF : Byte).extractLsb' 6 2 ≠ 3 ∧ (0x40 : Byte).extractLsb' 4 4 = 4 ∧
    ((Instr.vsubpdXmmVex2 ⟨false, 7⟩ regTail).wellFormed .m64 = true ∧
      (Instr.vsubpdXmmVex2 ⟨false, 7⟩ regTail).m32Ok = true) ∧
    ((Instr.vsubpdXmmVex2 ⟨false, 8⟩ regTail).wellFormed .m64 = true ∧
      (Instr.vsubpdXmmVex2 ⟨false, 8⟩ regTail).m32Ok = false) ∧
    ((Instr.subpdRex rex0 memTail).wellFormed .m64 = true ∧
      (Instr.subpdRex rex0 memTail).m32Ok = false) := by decide

/-- Index 4 with `X = 0` and `X = 1`, base 5 with `mod` = 00 and 01. -/
theorem witness_SibEffectiveAddress :
    base.mode ≠ .other ∧ sibTail.wf = true ∧ sibTail.sib = some ⟨3, 4, 5⟩ ∧ sibTail.modrm.mod = 0 ∧
    sibD8Tail.wf = true ∧ sibD8Tail.sib = some ⟨0, 4, 5⟩ ∧ sibD8Tail.modrm.mod = 1 := by decide

theorem witness_PlainEffectiveAddress :
    base.mode ≠ .other ∧ ({ base with mode := .m32 } : State).mode ≠ .other ∧
    (ripTail.wf = true ∧ ripTail.modrm.mod ≠ 3 ∧ ripTail.sib = none) ∧
    (d8Tail.wf = true ∧ d8Tail.modrm.mod ≠ 3 ∧ d8Tail.sib = none) ∧
    (memTail.wf = true ∧ memTail.modrm.mod ≠ 3 ∧ memTail.sib = none) := by decide

theorem witness_LittleEndianLanes : 8 * 0 + 0 < 8 ∧ 8 * 7 + 7 < 64 ∧ 7 < 8 := by decide

def acSys : Sys := { on with cr0Am := true, eflagsAc := true, cpl := 3 }
def acMap : AccessMap := [⟨acSys, 0x3001, 16, .ac⟩]
def acState : State := setX 0 0x3001 { base with sys := acSys, access := acMap }

theorem witness_AlignmentCheckOnlyWhenEnabled :
    memAccess acSys acMap 0x3001 16 = some .ac ∧
    (∃ s', exec (.vsubpdXmmVex2 ⟨false, 1⟩ memTail) acState = .fault (.raised .ac s')) ∧
    (acSys.cr0Am = true ∧ acSys.eflagsAc = true ∧ acSys.cpl = 3 ∧ 0x3001 % 16 ≠ 0) :=
  ⟨by decide +kernel, exists_fault (by decide +kernel), by decide +kernel⟩

/-- Addresses 1 and 15 past a multiple of 16. -/
theorem witness_SseOperandMustBeAligned :
    ((Instr.subpd memTail).form = .f1 ∧ ¬(Instr.subpd memTail).hasRegSource ∧
      (Instr.subpd memTail).runnable (setX 0 0x3001 base) = true ∧
      (Instr.subpd memTail).ea (setX 0 0x3001 base) % 16 ≠ 0 ∧
      (Instr.subpd memTail).runnable (setX 0 0x300F base) = true ∧
      (Instr.subpd memTail).ea (setX 0 0x300F base) % 16 ≠ 0) ∧
    (Instr.vsubpdXmmVex2 ⟨false, 1⟩ memTail).form ≠ .f1 ∧
    ∃ s', exec (.vsubpdXmmVex2 ⟨false, 1⟩ memTail)
      (setX 0 0x3001 { base with access := [⟨on, 0x3001, 16, .gp⟩] }) = .fault (.raised .gp s') :=
  ⟨by decide +kernel, by decide, exists_fault (by decide +kernel)⟩

def pfState : State := setX 0 0x3000 { base with access := pf64 }

/-- Fault suppression with lane 0 readable and lane 1 not. -/
def suppressState (k : KReg) : State :=
  setK 1 k (setX 0 0x3000 { base with faultSuppression := true, access := [⟨on, 0x3008, 8, .pf 4 0x3008⟩] })

/-- The full operand; under suppression lane 1 of two active lanes, and a broadcast with an active lane. -/
theorem witness_MemoryFaultIsReported :
    (¬(Instr.vsubpdZmmEvex evk memTail).hasRegSource ∧
      (Instr.vsubpdZmmEvex evk memTail).runnable pfState = true ∧
      ¬((Instr.vsubpdZmmEvex evk memTail).form = .f1 ∧
        (Instr.vsubpdZmmEvex evk memTail).ea pfState % 16 ≠ 0) ∧
      (Instr.vsubpdZmmEvex evk memTail).suppressed pfState = false ∧
      memAccess on pf64 ((Instr.vsubpdZmmEvex evk memTail).ea pfState)
        (Instr.vsubpdZmmEvex evk memTail).operandWidth = some (.pf 4 0x3000)) ∧
    ((Instr.vsubpdXmmEvex evk memTail).runnable (suppressState 3) = true ∧
      (Instr.vsubpdXmmEvex evk memTail).suppressed (suppressState 3) = true ∧
      ∃ j ∈ (Instr.vsubpdXmmEvex evk memTail).activeLanes (suppressState 3),
        memAccess on (suppressState 3).access
          ((Instr.vsubpdXmmEvex evk memTail).ea (suppressState 3) + 8 * j) 8 ≠ none) ∧
    ((Instr.vsubpdXmmEvexBcst evk memTail).runnable (setX 0 0x3008 (suppressState 2)) = true ∧
      (Instr.vsubpdXmmEvexBcst evk memTail).activeLanes (setX 0 0x3008 (suppressState 2)) ≠ [] ∧
      memAccess on (suppressState 2).access
        ((Instr.vsubpdXmmEvexBcst evk memTail).ea (setX 0 0x3008 (suppressState 2))) 8 =
        some (.pf 4 0x3008)) := by
  refine ⟨by decide +kernel, ⟨by decide +kernel, by decide +kernel, 1, ?_⟩, ?_⟩ <;> decide +kernel

def topState : State := setX 0 0xFFFFFFFFFFFFFFF0 base
def deviceState : State := setX 0 0xFFFFFFFFFFFFFFE0 { base with devices := [⟨0xFFFFFFFFFFFFFFFF, 1⟩] }

/-- 32 bytes from 16 below the top, lane 2 active, with fault suppression. -/
def topSuppressed : State := setK 1 4 { topState with faultSuppression := true }

/-- 32 bytes from 16 below the top, the last 32 bytes with a device at the very last one, and a lane past the
top under fault suppression. -/
theorem witness_UnreadableOperandStops :
    ¬(Instr.vsubpdYmmVex2 ⟨false, 1⟩ memTail).hasRegSource ∧
    ((Instr.vsubpdYmmVex2 ⟨false, 1⟩ memTail).runnable topState = true ∧
      (Instr.vsubpdYmmVex2 ⟨false, 1⟩ memTail).suppressed topState = false ∧
      memAccess on [] 0xFFFFFFFFFFFFFFF0 32 = none ∧
      addrSpace .m64 < (Instr.vsubpdYmmVex2 ⟨false, 1⟩ memTail).ea topState + 32) ∧
    ((Instr.vsubpdYmmVex2 ⟨false, 1⟩ memTail).runnable deviceState = true ∧
      (Instr.vsubpdYmmVex2 ⟨false, 1⟩ memTail).suppressed deviceState = false ∧
      (Instr.vsubpdYmmVex2 ⟨false, 1⟩ memTail).ea deviceState + 32 ≤ addrSpace .m64 ∧
      (deviceState.devices.any fun r =>
        Region.touches r ((Instr.vsubpdYmmVex2 ⟨false, 1⟩ memTail).ea deviceState) 32) = true) ∧
    ((Instr.vsubpdYmmEvex evk memTail).runnable topSuppressed = true ∧
      (Instr.vsubpdYmmEvex evk memTail).suppressed topSuppressed = true ∧
      (∀ j ∈ (Instr.vsubpdYmmEvex evk memTail).activeLanes topSuppressed,
        memAccess on [] ((Instr.vsubpdYmmEvex evk memTail).ea topSuppressed + 8 * j) 8 = none) ∧
      ∃ j ∈ (Instr.vsubpdYmmEvex evk memTail).activeLanes topSuppressed,
        readable topSuppressed ((Instr.vsubpdYmmEvex evk memTail).ea topSuppressed + 8 * j) 8 = false) := by
  refine ⟨by decide +kernel, by decide +kernel, by decide +kernel, by decide +kernel, by decide +kernel,
    by decide +kernel, 2, ?_⟩
  decide +kernel

theorem witness_ExceptionTable :
    (∃ s', exec (.subpd regTail) { base with sys := { on with cr0Ts := true } } = .fault (.raised .nm s')) ∧
    (∃ s', exec (.vsubpdZmmEvexEr ev0 .rn regTail) { base with sys := Sys.reset } =
      .fault (.raised .ud s')) ∧
    (∃ s', exec (.vsubpdZmmEvex ev0 memTail) (setX 0 0x3000 { base with access := pf64 }) =
      .fault (.raised (.pf 4 0x3000) s')) :=
  ⟨exists_fault (by decide +kernel), exists_fault (by decide +kernel), exists_fault (by decide +kernel)⟩

theorem witness_DisabledFormsRaiseUd :
    ((Instr.subpd regTail).inSpace { base with sys := { on with cr0Em := true } } = true ∧
      (Instr.subpd regTail).form = .f1) ∧
    ((Instr.vsubpdYmmVex3 vex30 regTail).inSpace { base with sys := { on with xcr0Avx := false } } = true ∧
      (Instr.vsubpdYmmVex3 vex30 regTail).form = .f3 ∧ State.reset.mode = .other) ∧
    ((Instr.vsubpdXmmEvex ev0 regTail).inSpace { base with features := noVl } = true ∧
      (Instr.vsubpdXmmEvex ev0 regTail).form = .f4 ∧ (Instr.vsubpdXmmEvex ev0 regTail).form ≠ .f6) := by
  decide +kernel

theorem witness_TaskSwitchedRaisesNm :
    (Instr.subpd regTail).inSpace { base with sys := { on with cr0Ts := true } } = true ∧
    enabled .f1 base = true := by decide +kernel

theorem witness_EnabledFormsCompleteOrTrap :
    (Instr.subpd regTail).inSpace base = true ∧ enabled (Instr.subpd regTail).form base = true ∧
    (Instr.subpd regTail).hasRegSource ∧ mxMasks base.mxcsr = 0x3F ∧
    (Instr.vsubpdZmmEvexEr ev0 .rn regTail).inSpace base = true ∧
    enabled (Instr.vsubpdZmmEvexEr ev0 .rn regTail).form base = true ∧
    (Instr.vsubpdZmmEvexEr ev0 .rn regTail).er.isSome = true := by decide +kernel

/-- The last byte of the instruction just at the top, in both modes. -/
theorem witness_OutsideTheSpaceIsRefused :
    State.reset.mode = .other ∧
    addrSpace .m64 ≤ (0xFFFFFFFFFFFFFFFC#64).toNat + (Instr.subpd regTail).length ∧
    addrSpace .m32 ≤ (0xFFFFFFFC#64).toNat + (Instr.subpd regTail).length := by decide

theorem witness_SseRegisterResult :
    (Instr.subpd regTail).form = .f1 ∧ (Instr.subpd regTail).hasRegSource ∧
    (Instr.subpd regTail).runnable base = true ∧ (Instr.subpd regTail).quiet base = true ∧
    (Instr.subpdRex rex0 regTail).runnable base = true ∧
    (Instr.subpdRex rex0 regTail).quiet base = true := by decide +kernel

theorem witness_SseMemoryResult :
    ¬(Instr.subpd memTail).hasRegSource ∧ (Instr.subpd memTail).runnable topState = true ∧
    (Instr.subpd memTail).ea topState % 16 = 0 ∧
    readable topState ((Instr.subpd memTail).ea topState) 16 = true ∧
    (Instr.subpd memTail).quiet topState = true ∧
    (Instr.subpdRex rex0 memTail).runnable topState = true ∧
    (Instr.subpdRex rex0 memTail).quiet topState = true := by decide +kernel

theorem witness_VexRegisterResult :
    (Instr.vsubpdXmmVex2 ⟨true, 15⟩ regTail).runnable base = true ∧
    (Instr.vsubpdXmmVex2 ⟨true, 15⟩ regTail).quiet base = true ∧
    (Instr.vsubpdXmmVex3 vex30 regTail).quiet base = true ∧
    (Instr.vsubpdYmmVex2 ⟨true, 15⟩ regTail).quiet base = true ∧
    (Instr.vsubpdYmmVex3 vex30 regTail).runnable base = true ∧
    (Instr.vsubpdYmmVex3 vex30 regTail).quiet base = true ∧
    (Instr.vsubpdYmmVex3 vex30 regTail).hasRegSource := by decide +kernel

/-- The very last bytes of the space for form 2; an odd address for form 3. -/
theorem witness_VexMemoryResult :
    ¬(Instr.vsubpdXmmVex2 ⟨false, 1⟩ memTail).hasRegSource ∧
    (Instr.vsubpdXmmVex2 ⟨false, 1⟩ memTail).runnable topState = true ∧
    readable topState ((Instr.vsubpdXmmVex2 ⟨false, 1⟩ memTail).ea topState) 16 = true ∧
    (Instr.vsubpdXmmVex2 ⟨false, 1⟩ memTail).quiet topState = true ∧
    (Instr.vsubpdYmmVex3 vex30 memTail).runnable (setX 0 0x3001 base) = true ∧
    readable (setX 0 0x3001 base) ((Instr.vsubpdYmmVex3 vex30 memTail).ea (setX 0 0x3001 base)) 32 = true ∧
    (Instr.vsubpdYmmVex3 vex30 memTail).quiet (setX 0 0x3001 base) = true := by decide +kernel

theorem witness_EvexRegisterResult :
    (Instr.vsubpdXmmEvex evk regTail).runnable base = true ∧
    (Instr.vsubpdXmmEvex evk regTail).quiet base = true ∧
    (Instr.vsubpdYmmEvex evz regTail).runnable base = true ∧
    (Instr.vsubpdYmmEvex evz regTail).quiet base = true ∧
    (Instr.vsubpdZmmEvex ev0 regTail).runnable base = true ∧
    (Instr.vsubpdZmmEvex ev0 regTail).quiet base = true ∧
    (Instr.vsubpdZmmEvex ev0 regTail).hasRegSource ∧ (Instr.vsubpdZmmEvex ev0 regTail).er = none ∧
    (Instr.vsubpdZmmEvex ev0 regTail).isBcst = false := by decide +kernel

theorem witness_EvexMemoryResult :
    ¬(Instr.vsubpdZmmEvex ev0 memTail).hasRegSource ∧
    (Instr.vsubpdXmmEvex evk memTail).runnable topState = true ∧
    (Instr.vsubpdXmmEvex evk memTail).suppressed topState = false ∧
    readable topState ((Instr.vsubpdXmmEvex evk memTail).ea topState) 16 = true ∧
    (Instr.vsubpdXmmEvex evk memTail).quiet topState = true ∧
    (Instr.vsubpdYmmEvex evz memTail).runnable base = true ∧
    readable base ((Instr.vsubpdYmmEvex evz memTail).ea base) 32 = true ∧
    (Instr.vsubpdYmmEvex evz memTail).quiet base = true ∧
    (Instr.vsubpdZmmEvex ev0 memTail).runnable base = true ∧
    readable base ((Instr.vsubpdZmmEvex ev0 memTail).ea base) 64 = true ∧
    (Instr.vsubpdZmmEvex ev0 memTail).quiet base = true := by decide +kernel

theorem witness_EvexBroadcastResult :
    (Instr.vsubpdXmmEvexBcst evk memTail).isBcst = true ∧
    ¬(Instr.vsubpdXmmEvexBcst evk memTail).hasRegSource ∧
    (Instr.vsubpdXmmEvexBcst evk memTail).runnable topState = true ∧
    (Instr.vsubpdXmmEvexBcst evk memTail).suppressed topState = false ∧
    readable topState ((Instr.vsubpdXmmEvexBcst evk memTail).ea topState) 8 = true ∧
    (Instr.vsubpdXmmEvexBcst evk memTail).quiet topState = true ∧
    (Instr.vsubpdXmmEvexBcstD32 ev0 mem32Tail).runnable base = true ∧
    (Instr.vsubpdYmmEvexBcst evz memTail).runnable base = true ∧
    (Instr.vsubpdYmmEvexBcstD32 ev0 mem32Tail).runnable base = true ∧
    (Instr.vsubpdZmmEvexBcst ev0 memTail).runnable base = true ∧
    (Instr.vsubpdZmmEvexBcstD32 ev0 mem32Tail).runnable base = true ∧
    (Instr.vsubpdZmmEvexBcstD32 ev0 mem32Tail).quiet base = true ∧
    readable base ((Instr.vsubpdZmmEvexBcstD32 ev0 mem32Tail).ea base) 8 = true := by decide +kernel

/-- Fault suppression with the mask bit of lane 0 alone, with an empty mask, and with that of lane 1 alone. -/
theorem witness_FaultSuppressionResult :
    ((Instr.vsubpdXmmEvex evk memTail).er = none ∧ ¬(Instr.vsubpdXmmEvex evk memTail).hasRegSource ∧
      (Instr.vsubpdXmmEvex evk memTail).runnable (suppressState 1) = true ∧
      (Instr.vsubpdXmmEvex evk memTail).suppressed (suppressState 1) = true ∧
      (Instr.vsubpdXmmEvex evk memTail).quiet (suppressState 1) = true ∧
      (∀ j ∈ (Instr.vsubpdXmmEvex evk memTail).activeLanes (suppressState 1),
        readable (suppressState 1)
          ((Instr.vsubpdXmmEvex evk memTail).ea (suppressState 1) + 8 * j) 8 = true)) ∧
    ((Instr.vsubpdXmmEvexBcst evk memTail).suppressed (suppressState 0) = true ∧
      (Instr.vsubpdXmmEvexBcst evk memTail).runnable (suppressState 0) = true ∧
      (Instr.vsubpdXmmEvexBcst evk memTail).quiet (suppressState 0) = true ∧
      (Instr.vsubpdXmmEvexBcst evk memTail).activeLanes (suppressState 0) = []) ∧
    ((Instr.vsubpdXmmEvexBcst evk memTail).suppressed (suppressState 2) = true ∧
      (Instr.vsubpdXmmEvexBcst evk memTail).runnable (suppressState 2) = true ∧
      (Instr.vsubpdXmmEvexBcst evk memTail).quiet (suppressState 2) = true ∧
      (Instr.vsubpdXmmEvexBcst evk memTail).activeLanes (suppressState 2) ≠ [] ∧
      readable (suppressState 2) ((Instr.vsubpdXmmEvexBcst evk memTail).ea (suppressState 2)) 8 = true) := by
  decide +kernel

theorem witness_EmbeddedRoundingResult :
    regTail.modrm.mod = 3 ∧ (Instr.vsubpdZmmEvexEr ev0 .rd regTail).runnable base = true := by
  decide +kernel

/-- Mask bits from `KL` up set, those below clear. -/
theorem witness_FullyMaskedFormSignalsNothing :
    (Instr.vsubpdXmmEvex evk regTail).hasRegSource ∧
    (Instr.vsubpdXmmEvex evk regTail).runnable (setK 1 0xFFFFFFFFFFFFFFFC base) = true ∧
    (Instr.vsubpdXmmEvex evk regTail).aaa ≠ 0 ∧
    (∀ j, j < lanesOf (Instr.vsubpdXmmEvex evk regTail).form →
      ((setK 1 0xFFFFFFFFFFFFFFFC base).readK (Instr.vsubpdXmmEvex evk regTail).aaa).getLsbD j = false) := by
  decide +kernel

def rexRxb : Rex := ⟨false, true, true, true⟩

theorem witness_SseAndVexDifferOnlyAsStated :
    ((∃ t, exec (.subpd regTail) base = .next t) ∧
      ∃ t, exec (.vsubpdXmmVex2 ⟨false, (0 : BitVec 1) ++ regTail.modrm.reg⟩ regTail) base = .next t) ∧
    ((∃ t, exec (.subpdRex rexRxb regTail) base = .next t) ∧
      ∃ t, exec (.vsubpdXmmVex3 ⟨true, true, true, false, BitVec.ofBool true ++ regTail.modrm.reg⟩ regTail)
        base = .next t) ∧
    (enabled .f1 base = true ∧ enabled .f2 base = true) ∧
    ((Instr.subpd memTail).inSpace (setX 0 0x3008 base) = true ∧ memTail.modrm.mod ≠ 3 ∧
      (Instr.subpd memTail).ea (setX 0 0x3008 base) % 16 ≠ 0) ∧
    exec (.vsubpdXmmVex2 ⟨false, (0 : BitVec 1) ++ memTail.modrm.reg⟩ memTail)
        (setX 0 0x3001 { base with access := [⟨on, 0x3001, 16, .gp⟩] }) =
      .fault (.raised .gp (setX 0 0x3001 { base with access := [⟨on, 0x3001, 16, .gp⟩] })) :=
  ⟨⟨exists_next (by decide +kernel), exists_next (by decide +kernel)⟩,
    ⟨exists_next (by decide +kernel), exists_next (by decide +kernel)⟩, by decide +kernel,
    by decide +kernel, eq_fault (by decide +kernel)⟩

theorem witness_LanesDoNotInteract :
    (∃ t, exec (.vsubpdZmmEvex evk regTail) base = .next t) ∧
    (∃ t, exec (.vsubpdZmmEvex evk regTail) (setV 1 [0, n1] base) = .next t) ∧
    (Instr.vsubpdZmmEvex evk regTail).laneActive base 0 =
      (Instr.vsubpdZmmEvex evk regTail).laneActive (setV 1 [0, n1] base) 0 ∧
    lane (base.readV 1) 0 = lane ((setV 1 [0, n1] base).readV 1) 0 :=
  ⟨exists_next (by decide +kernel), exists_next (by decide +kernel), by decide +kernel, by decide +kernel⟩

theorem witness_UnusedMaskBitsHaveNoEffect :
    (∀ n : BitVec 3, n ≠ 0 → ∀ j, j < lanesOf (Instr.vsubpdXmmEvex evk regTail).form →
      (State.readK { base with opmask := (Vector.replicate 8 0xFFFFFFFFFFFFFFFC#64) } n).getLsbD j =
        (base.readK n).getLsbD j) ∧
    (∃ t, exec (.vsubpdXmmEvex evk regTail) base = .next t) ∧
    (∃ t, exec (.vsubpdXmmEvex evk regTail) { base with sys := Sys.reset } = .fault (.raised .ud t)) ∧
    exec (.vsubpdXmmEvex evk regTail) { base with mode := .other } = .refused .modeNotModelled :=
  ⟨by decide +kernel, exists_next (by decide +kernel), exists_fault (by decide +kernel), rfl⟩

theorem witness_UnmaskedExceptionTraps :
    ((Instr.subpd ⟨⟨3, 0, 1⟩, none, .none⟩).er = none ∧
      (Instr.subpd ⟨⟨3, 0, 1⟩, none, .none⟩).runnable v7 = true ∧
      (Instr.subpd ⟨⟨3, 0, 1⟩, none, .none⟩).sourceEvents v7 = some [] ∧
      (Instr.subpd ⟨⟨3, 0, 1⟩, none, .none⟩).sourceEvents
        { v7 with sys := { v7.sys with cr4Osxmmexcpt := !v7.sys.cr4Osxmmexcpt } } = some [] ∧
      (Instr.subpd ⟨⟨3, 0, 1⟩, none, .none⟩).quiet v7 = false) ∧
    (Instr.vsubpdZmmEvexEr ev0 .rn regTail).er.isSome = true := by decide +kernel

theorem witness_WhatAFormWrites :
    (∃ t, exec (.subpd regTail) base = .next t) ∧
    (∃ f, exec (.subpd regTail) { base with sys := Sys.reset } = .fault (.raised .ud f)) ∧
    ∃ f, exec (.subpd ⟨⟨3, 0, 1⟩, none, .none⟩) v7 = .fault (.raised .xm f) :=
  ⟨exists_next (by decide +kernel), exists_fault (by decide +kernel), exists_fault (by decide +kernel)⟩

/-- Lane 2 of a two-lane form, and lane 7. -/
theorem witness_UpperBitsOfTheDestination :
    (∃ t, exec (.subpd regTail) base = .next t) ∧ lanesOf (Instr.subpd regTail).form ≤ 2 ∧
    (∃ t, exec (.vsubpdYmmEvex evk regTail) base = .next t) ∧
    lanesOf (Instr.vsubpdYmmEvex evk regTail).form ≤ 7 :=
  ⟨exists_next (by decide +kernel), by decide, exists_next (by decide +kernel), by decide⟩

theorem witness_StepRunsTheDecodedInstruction :
    v1.stop ≠ some v1.pc ∧ v1.mxcsr.extractLsb' 16 16 = 0 ∧
    decode v1.mode (fetchBytes v1) = .instr (.subpd ⟨⟨3, 0, 1⟩, none, .none⟩) := by decide +kernel

/-- A program whose last byte is the last byte of the address space. -/
def topProg : State :=
  { base with pc := 0xFFFFFFFFFFFFFFFC,
              text := Memory.writeBytes [] 0xFFFFFFFFFFFFFFFC [0x66, 0x0F, 0x5C, 0xC1] }

theorem witness_StepRunsTheEncodedInstruction :
    topProg.stop ≠ some topProg.pc ∧ topProg.mxcsr.extractLsb' 16 16 = 0 ∧
    (Instr.subpd ⟨⟨3, 0, 1⟩, none, .none⟩).wellFormed topProg.mode = true ∧
    topProg.pc.toNat + (Instr.subpd ⟨⟨3, 0, 1⟩, none, .none⟩).length ≤ addrSpace topProg.mode ∧
    (∀ k (h : k < (encode (Instr.subpd ⟨⟨3, 0, 1⟩, none, .none⟩)).length),
      Memory.read topProg.text (topProg.pc.toNat + k) =
        (encode (Instr.subpd ⟨⟨3, 0, 1⟩, none, .none⟩))[k]) := by decide +kernel

theorem witness_FetchWordIsRunNext :
    Memory.wf State.reset.text = true ∧ State.reset.mxcsr.extractLsb' 16 16 = 0 ∧
    State.reset.pc.toNat + fetchLength ≤ 2 ^ 64 ∧ (0xFFFFFFFFFFFFFFF1#64).toNat + fetchLength ≤ 2 ^ 64 ∧
    decodeTableWord 32 0xC25CF1C5 = some (.vsubpdXmmVex2 ⟨false, 1⟩ regTail) := by decide +kernel

theorem witness_StepStopsBeforeTheFetch :
    ({ v1 with stop := some v1.pc } : State).stop = some v1.pc ∧ v1.stop ≠ some v1.pc ∧
    (0x00011F80#32).extractLsb' 16 16 ≠ 0 := by decide +kernel

theorem witness_ResetAndInitValues :
    ({ base with sys := State.reset.sys } : State).sys = State.reset.sys ∧
    (Instr.subpd regTail).inSpace { base with sys := State.reset.sys } = true ∧ (3 : Fin 16) ≠ 2 := by
  decide +kernel

theorem witness_StepKeepsTheInvariant : StateInv v3 ∧ ∃ t, step v3 = .next t :=
  ⟨⟨by decide +kernel, by decide +kernel, by decide +kernel, by decide +kernel, by
    intro e he; cases he⟩, exists_next (by decide +kernel)⟩

/-- P1 of 95_test_vectors.md: two steps. -/
def program1 : State :=
  setX 3 0x2000 (setM 0x2000 [0, 0, 0, 0, 0, 0, 0xD0, 0x3F, 0, 0, 0, 0, 0, 0, 0xE0, 0x3F]
    (setV 0 [n3, n5] (setV 1 [n1, n2] (prog [0x66, 0x0F, 0x5C, 0xC1, 0x66, 0x0F, 0x5C, 0x03]))))

theorem witness_RunNeverWritesMemory : ∃ t, Host.Core.run core 2 program1 = .next t :=
  exists_next (r := Host.Core.run core 2 program1) (by decide +kernel)

/-- P1's end state: lanes 1.75 and 2.5. -/
theorem test_program1 :
    (nextOf (Host.Core.run core 2 program1)).map (fun t => (lane (t.readV 0) 0, lane (t.readV 0) 1, t.pc)) =
      some (0x3FFC000000000000, 0x4004000000000000, 0x1008) := by decide +kernel

def snan : Lane := 0x7FF0000000000001
def qnan : Lane := 0x7FF8000000000000
def inf : Lane := 0x7FF0000000000000

theorem witness_LaneSubSpecialOperands :
    isSNaN snan = true ∧ isSNaN 0xFFF7FFFFFFFFFFFF = true ∧ (isSNaN n1 = false ∧ isQNaN qnan = true) ∧
    (isNaN n1 = false ∧ isQNaN 0xFFFFFFFFFFFFFFFF = true) ∧ isInf inf = true ∧
    signBit inf = signBit inf := by decide

theorem witness_NaNOperandsGiveQuietNaN : isNaN snan = true ∧ isNaN qnan = true := by decide

theorem witness_SelfDifferenceIsZero : isFinite 0x7FEFFFFFFFFFFFFF = true ∧ isFinite 1 = true := by decide

/-- 3.0 - 1.0 = 2.0, and the smallest normal as a difference. -/
theorem witness_ExactDifferenceIsExact :
    (isFinite n3 = true ∧ isFinite n1 = true ∧ isDenormal n3 = false ∧ isDenormal n1 = false ∧
      isNormal n2 = true ∧ scaledValue n3 - scaledValue n1 = scaledValue n2) ∧
    (isNormal 0x0010000000000000 = true ∧
      scaledValue 0x0020000000000000 - scaledValue 0x0010000000000000 =
        scaledValue 0x0010000000000000) := by decide +kernel

/-- Overflow, and underflow by a flush. -/
theorem witness_SignalledFlagSets :
    (laneSub { rc := .rn, daz := false, ftz := false, um := true }
      0x7FEFFFFFFFFFFFFF 0xFFEFFFFFFFFFFFFF).post &&& (flagOE ||| flagUE) ≠ 0 ∧
    (laneSub { rc := .rn, daz := false, ftz := true, um := true }
      0x0018000000000000 0x0010000000000000).post &&& (flagOE ||| flagUE) ≠ 0 := by decide +kernel

theorem witness_SwappingOperandsNegates :
    (isNaN n1 = false ∧ isNaN 0x3C90000000000000 = false ∧
      ¬(isInf n1 = true ∧ isInf 0x3C90000000000000 = true ∧ signBit n1 = signBit 0x3C90000000000000) ∧
      scaledValue (dazOperand false n1) ≠ scaledValue (dazOperand false 0x3C90000000000000)) ∧
    (isNaN inf = false ∧ isInf inf = true ∧ ¬(isInf inf = true ∧ isInf n1 = true ∧
      signBit inf = signBit n1)) := by decide +kernel

/-- A tie: `(2^53 + 2) - 1`. -/
theorem witness_NearestRoundingIsNearest :
    isFinite 0x4340000000000001 = true ∧ isFinite n1 = true ∧
    isFinite (laneSub ⟨.rn, false, false, true⟩ 0x4340000000000001 n1).r = true ∧
    (laneSub ⟨.rn, false, false, true⟩ 0x4340000000000001 n1).post &&& flagUE = 0 := by decide +kernel

theorem witness_DirectedRoundingIsClosest :
    isFinite n1 = true ∧ isFinite 0x3C90000000000000 = true ∧
    isFinite (laneSub ⟨.rd, false, false, true⟩ n1 0x3C90000000000000).r = true ∧
    (laneSub ⟨.rd, false, false, true⟩ n1 0x3C90000000000000).post &&& flagUE = 0 ∧
    isFinite (laneSub ⟨.ru, false, false, true⟩ n1 0x3C90000000000000).r = true ∧
    (laneSub ⟨.ru, false, false, true⟩ n1 0x3C90000000000000).post &&& flagUE = 0 ∧
    isFinite (laneSub ⟨.rz, false, false, true⟩ n1 0x3C90000000000000).r = true ∧
    (laneSub ⟨.rz, false, false, true⟩ n1 0x3C90000000000000).post &&& flagUE = 0 := by decide +kernel

theorem witness_PrecisionMeansInexact :
    isFinite n1 = true ∧ isFinite 0x3C90000000000000 = true ∧
    (laneSub ⟨.rn, false, false, true⟩ n1 0x3C90000000000000).post &&& flagUE = 0 := by decide +kernel

def maxF : Lane := 0x7FEFFFFFFFFFFFFF

/-- T31 to T34 at the thresholds: `MAXF + 2^970` overflows to nearest and not toward zero, `MAXF + 2^969`
only away from zero. -/
theorem witness_OverflowResults :
    isFinite maxF = true ∧ isFinite 0xFC90000000000000 = true ∧
    2 ^ 2098 - 2 ^ 2044 ≤ (exactDifference false maxF 0xFC90000000000000).natAbs ∧
    ¬(2 ^ 2098 ≤ (exactDifference false maxF 0xFC90000000000000).natAbs) ∧
    ¬(2 ^ 2098 - 2 ^ 2044 ≤ (exactDifference false maxF 0xFC80000000000000).natAbs) ∧
    (2 ^ 53 - 1) * 2 ^ 2045 < (exactDifference false maxF 0xFC80000000000000).natAbs ∧
    2 ^ 2098 ≤ (exactDifference false maxF 0xFFEFFFFFFFFFFFFF).natAbs := by decide +kernel

theorem witness_TinyResultsAreExactOrFlushed :
    isFinite 0x0018000000000000 = true ∧ isFinite 0x0010000000000000 = true ∧
    (laneSub ⟨.rn, false, false, true⟩ 0x0018000000000000 0x0010000000000000).tiny = true ∧
    (laneSub ⟨.rn, false, true, true⟩ 0x0018000000000000 0x0010000000000000).post &&& flagUE ≠ 0 := by
  decide +kernel

theorem witness_DenormalAndInfiniteOperands :
    (isNaN inf = false ∧ isNaN 1 = false ∧ ¬(isInf inf = true ∧ isInf 1 = true ∧ signBit inf = signBit 1) ∧
      isInf inf = true ∧ isDenormal 1 = true) ∧
    (isInf n1 = false ∧ isInf 0xFFF0000000000000 = true) := by decide

/-- Like and unlike signed zeros, and equal numbers. -/
theorem witness_ExactZeroDifference :
    (isFinite 0 = true ∧ isFinite 0x8000000000000000 = true ∧
      exactDifference false 0 0x8000000000000000 = 0 ∧ signBit 0 ≠ signBit 0x8000000000000000) ∧
    (exactDifference false n1 n1 = 0 ∧ signBit n1 = signBit n1) ∧
    exactDifference true 5 0x8000000000000007 = 0 := by decide +kernel

end Sys2Proof.Tests
end

section
/-! SUPPORT. What a form writes (10_state.md R36, R30; 60_exceptions.md R195): the flags a lane can signal,
what an instruction may do to MXCSR, and the frame of completion and of every fault. -/

namespace Sys2Proof.Machine

/-! ## The flags of one lane (R113) -/

@[simp] theorem roundDifference_pre (env : FpEnv) (pre : BitVec 6) (d : Int) :
    (roundDifference env pre d).pre = pre := by
  unfold roundDifference
  dsimp only
  split_ifs <;> rfl

theorem roundDifference_post_mem (env : FpEnv) (pre : BitVec 6) (d : Int) :
    (roundDifference env pre d).post ∈ [0, flagPE, flagOE ||| flagPE, flagUE ||| flagPE] := by
  unfold roundDifference
  dsimp only
  split_ifs <;> simp

@[simp] theorem subtractNumbers_pre (env : FpEnv) (pre : BitVec 6) (a b : Lane) :
    (subtractNumbers env pre a b).pre = pre := by
  unfold subtractNumbers
  dsimp only
  split_ifs <;> simp

theorem subtractNumbers_post_mem (env : FpEnv) (pre : BitVec 6) (a b : Lane) :
    (subtractNumbers env pre a b).post ∈ [0, flagPE, flagOE ||| flagPE, flagUE ||| flagPE] := by
  unfold subtractNumbers
  dsimp only
  iterate 3 (split; · exact List.mem_cons_self)
  exact roundDifference_post_mem ..

/-- Before rounding a lane signals nothing, an invalid operation or a denormal operand. -/
theorem laneSub_pre_mem (env : FpEnv) (a b : Lane) :
    (laneSub env a b).pre ∈ [0, flagIE, flagDE] := by
  unfold laneSub
  dsimp only
  split_ifs <;> simp

/-- After rounding a lane signals nothing, precision, or precision with overflow or underflow. -/
theorem laneSub_post_mem (env : FpEnv) (a b : Lane) :
    (laneSub env a b).post ∈ [0, flagPE, flagOE ||| flagPE, flagUE ||| flagPE] := by
  unfold laneSub
  dsimp only
  iterate 4 (split; · exact List.mem_cons_self)
  exact subtractNumbers_post_mem ..

/-- No lane signals ZE, bit 2 (R36: a subtraction never divides by zero). -/
theorem laneSignals_laneSub_ze (m : BitVec 32) (env : FpEnv) (a b : Lane) :
    (laneSignals m (laneSub env a b)).getLsbD 2 = false := by
  have noZE_pre : ∀ v ∈ [0, flagIE, flagDE], v.getLsbD 2 = false := by decide
  have noZE_post : ∀ v ∈ [0, flagPE, flagOE ||| flagPE, flagUE ||| flagPE],
      v.getLsbD 2 = false := by decide
  have noZE_tiny : ∀ c : Bool, (if c then flagUE else 0).getLsbD 2 = false := by decide
  simp only [laneSignals, BitVec.getLsbD_or, noZE_pre _ (laneSub_pre_mem env a b),
    noZE_post _ (laneSub_post_mem env a b), noZE_tiny, Bool.or_self]

/-- No instruction signals ZE. -/
theorem not_signalled_ze (o : Operation) (s : State) (src : Nat → Lane) :
    ¬(o.signalled s src).getLsbD 2 = true := by
  intro h
  obtain ⟨j, _, _, hj⟩ := (getLsbD_signalled o s src 2).mp h
  rw [Operation.laneResult, laneSignals_laneSub_ze] at hj
  cases hj

/-! ## MXCSR over an instruction -/

/-- What an instruction may do to MXCSR, from `m` to `m'`: set flags other than ZE (R36, R26). -/
structure OnlySetsFlags (m m' : BitVec 32) : Prop where
  control : ∀ k, 6 ≤ k → m'.getLsbD k = m.getLsbD k
  sticky : ∀ k, m.getLsbD k = true → m'.getLsbD k = true
  ze : m'.getLsbD 2 = m.getLsbD 2

theorem OnlySetsFlags.refl (m : BitVec 32) : OnlySetsFlags m m :=
  ⟨fun _ _ => rfl, fun _ h => h, rfl⟩

/-- Setting flags writes flags only; ZE stays when the set holds it only where MXCSR does. -/
theorem onlySetsFlags_mxSetFlags {m : BitVec 32} {f : BitVec 6}
    (hze : f.getLsbD 2 = true → m.getLsbD 2 = true) : OnlySetsFlags m (mxSetFlags m f) where
  control k hk := by
    rw [getLsbD_mxSetFlags, BitVec.getLsbD_of_ge f k hk, Bool.or_false]
  sticky k hk := by rw [getLsbD_mxSetFlags, hk, Bool.true_or]
  ze := by
    rw [getLsbD_mxSetFlags]
    exact Bool.or_eq_left_iff_imp.mpr hze

/-- Completion only sets flags: those signalled, or with embedded rounding none (R129, R130). -/
theorem fpOutcome_done_onlySetsFlags {o : Operation} {s : State} {src : Nat → Lane} {m : BitVec 32}
    (h : fpOutcome o s src = .done m) : OnlySetsFlags s.mxcsr m := by
  unfold fpOutcome at h
  split at h
  · cases h
    exact .refl _
  · dsimp only at h
    split at h
    · cases h
      exact onlySetsFlags_mxSetFlags fun hze => absurd hze (not_signalled_ze o s src)
    · cases h

/-- A trap only sets flags: whatever the draw of R129, they are old or signalled ones. -/
theorem fpOutcome_trap_onlySetsFlags {o : Operation} {s : State} {src : Nat → Lane} {m : BitVec 32}
    (h : fpOutcome o s src = .trap m) : OnlySetsFlags s.mxcsr m := by
  unfold fpOutcome at h
  split at h
  · cases h
  · dsimp only at h
    split at h
    · cases h
    · rename_i htrap
      cases h
      obtain ⟨_, old_or_signalled, _⟩ :=
        trapFlags_spec (mxFlags s.mxcsr) (o.signalled s src) (trapping s.mxcsr (o.signalled s src))
          (Config.trapFlags s.draws) (by simpa using htrap) (fun k hk => by
            rw [trapping, BitVec.getLsbD_and, Bool.and_eq_true] at hk
            exact hk.1)
      refine onlySetsFlags_mxSetFlags fun hze => ?_
      have old_ze := (old_or_signalled 2 hze).resolve_right (not_signalled_ze o s src)
      simpa [mxFlags] using old_ze

/-! ## Completion -/

/-- A completed operation writes its destination alone among the vector registers. -/
theorem readV_complete_other (o : Operation) (s : State) (src : SourceRead) (m : BitVec 32)
    {n : BitVec 5} (h : n ≠ o.dst) : (o.complete s src m).readV n = s.readV n := by
  rw [readV_congr (complete_vec o s src m), readV_writeV_other s _ _ _ h]

/-- A completed operation leaves all that R36 names as it was. -/
theorem unchanged_complete (o : Operation) {s : State} (src : SourceRead) {m : BitVec 32}
    (h : OnlySetsFlags s.mxcsr m) : Unchanged o.dst s (o.complete s src m) :=
  ⟨fun _ hn => readV_complete_other o s src m hn, rfl, rfl, rfl, h.control, fun _ => rfl,
    fun _ => rfl, rfl, rfl, rfl, rfl, rfl, rfl⟩

/-- Below the top of the address space `pc` advances by the length without wrapping (R30). -/
theorem toNat_complete_pc {o : Operation} {s : State} (src : SourceRead) (m : BitVec 32)
    (h : s.pc.toNat + o.len < addrSpace s.mode) :
    (o.complete s src m).pc.toNat = s.pc.toNat + o.len := by
  have hle : addrSpace s.mode ≤ 2 ^ 64 := by cases s.mode <;> decide
  rw [complete_pc, BitVec.toNat_add, BitVec.toNat_ofNat]
  omega

/-! ## Faults -/

/-- What a fault leaves (R195): the state as it was, or after a floating-point trap (R190, R191) that state
with flags set and the reads recorded. -/
theorem run_fault_state {o : Operation} {s : State} {f : Fault} (h : o.run s = .fault f) :
    f.state = s ∨ ∃ src m, OnlySetsFlags s.mxcsr m ∧ f = .raised (trapExn s) (trapState s src m) := by
  obtain ⟨_, _, ⟨e, _, rfl⟩ | ⟨_, hread⟩ | ⟨_, src, m, _, htrap, rfl⟩⟩ := run_fault h
  · exact .inl rfl
  · rcases readSource2_error hread with ⟨x, hx, _⟩ | hx | hx <;> cases hx
    exact .inl rfl
  · exact .inr ⟨src, m, fpOutcome_trap_onlySetsFlags htrap, rfl⟩

/-- A floating-point trap is #XM, or #UD where `CR4_OSXMMEXCPT = 0` (R190, R191). -/
theorem trapExn_cases (s : State) :
    trapExn s = .xm ∨ (trapExn s = .ud ∧ s.sys.cr4Osxmmexcpt = false) := by
  cases h : s.sys.cr4Osxmmexcpt <;> simp [trapExn, h]

end Sys2Proof.Machine

namespace Sys2Proof

open Machine

/-- Settles O37: completion by the frame of `Operation.complete`, faults by what `run_fault_state` says each
leaves. -/
theorem whatAFormWrites : Obligations.WhatAFormWrites := by
  intro i s
  rw [exec_eq_run]
  refine ⟨fun t hnext => ?completes, fun f hfault => ?faults⟩
  case completes =>
    obtain ⟨_, hspace, _, src, m, _, hdone, rfl⟩ := run_next hnext
    have hflags := fpOutcome_done_onlySetsFlags hdone
    exact ⟨unchanged_complete (i.operation s) src hflags, hflags.sticky, hflags.ze,
      toNat_complete_pc src m hspace⟩
  case faults =>
    rcases run_fault_state hfault with hsame | ⟨src, m, hflags, rfl⟩
    · rw [hsame]
      exact ⟨rfl, fun _ _ => rfl, fun _ hk => hk, rfl, .inl rfl⟩
    · refine ⟨rfl, hflags.control, hflags.sticky, hflags.ze, .inr ?_⟩
      rcases trapExn_cases s with hxm | ⟨hud, hos⟩
      · exact .inl (by rw [hxm]; rfl)
      · exact .inr ⟨by rw [hud]; rfl, hos⟩

end Sys2Proof
end

section
/-! SUPPORT. When a form completes: the conditions of R217 and R129 under which the shared procedure lets it
pass, what it then leaves (R140, R150, R163), and the reads of a memory source under fault suppression
(20_memory.md R58). -/

namespace Sys2Proof.Machine

/-- A form is enabled (R217) when neither its #UD condition (R181 to R183) nor that of #NM (R185) holds. -/
theorem enabled_eq (f : Form) (s : State) :
    enabled f s = (!formUndefined f s.sys s.features && !s.sys.cr0Ts) := by
  cases f <;> simp only [enabled, formUndefined, Bool.not_or, Bool.not_not] <;> ac_rfl

/-- The checks of R181 to R185 let a form pass exactly when it is enabled (R217). -/
theorem enableCheck_eq_none_iff (f : Form) (s : State) :
    enableCheck f s = none ↔ enabled f s = true := by
  rw [enabled_eq, enableCheck]
  split_ifs with hud hnm
  · simp [hud]
  · simp [hnm]
  · simp [hud, hnm]

/-- The destination register of a completed operation. -/
theorem readV_complete_dst (o : Operation) (s : State) (src : SourceRead) (m : BitVec 32) :
    (o.complete s src m).readV o.dst = o.newDst s src.lane := by
  rw [readV_congr (complete_vec o s src m), readV_writeV_same]

end Sys2Proof.Machine

namespace Sys2Proof

open Machine

/-! ## Completion of an instruction without embedded rounding -/

/-- With no unmasked exception in an active lane the instruction completes with the signalled flags set
(R129). -/
theorem fpOutcome_of_quiet {i : Instr} {s : State} (her : i.er = none) (hquiet : i.quiet s = true) :
    fpOutcome (i.operation s) s (i.second s) =
      .done (mxSetFlags s.mxcsr ((i.operation s).signalled s (i.second s))) := by
  have hop : (i.operation s).er = none := her
  simp [fpOutcome, hop, (trapping_eq_zero_iff her s).mpr hquiet]

/-- Each lane of the destination receives its difference, merged or zeroed where masked off (R161, R163). -/
theorem operation_newLane {i : Instr} (her : i.er = none) (s : State) (j : Nat) :
    (i.operation s).newLane s (i.second s) j = i.destLane s (fun k => (i.laneSubOf s k).r) j := by
  have hop : (i.operation s).er = none := her
  have hvalue : (i.operation s).laneValue s (i.second s) j = (i.laneSubOf s j).r := by
    simp [Operation.laneValue, hop, operation_laneResult her]
  have hform : ((i.operation s).form == .f1) = true ↔ i.form = .f1 := beq_iff_eq
  simp only [Operation.newLane, hvalue, hform]
  rfl

/-- Setting the signalled flags joins those of the active lanes to the old ones (R129). -/
theorem flagsJoined_of_signalled {i : Instr} {s t : State} (her : i.er = none)
    (ht : t.mxcsr = mxSetFlags s.mxcsr ((i.operation s).signalled s (i.second s))) :
    i.flagsJoined s t := by
  intro k _
  rw [ht, getLsbD_mxSetFlags, Bool.or_eq_true, getLsbD_signalled]
  simp only [operation_laneResult her]
  rfl

/-- A runnable instruction whose second source can be read and whose active lanes signal no unmasked
exception completes, with exactly the reads of the source (R217, R129). -/
theorem completesNormally_of_sourceEvents {i : Instr} {s : State} {events : List ReadEvent}
    (her : i.er = none) (hrun : i.runnable s = true) (hquiet : i.quiet s = true)
    (hevents : i.sourceEvents s = some events) : i.CompletesNormally s events := by
  simp only [Instr.runnable, Instr.inSpace, Bool.and_eq_true, bne_iff_ne, decide_eq_true_eq] at hrun
  obtain ⟨⟨hmode, hspace⟩, henabled⟩ := hrun
  have hdone := fpOutcome_of_quiet her hquiet
  have hop : (i.operation s).er = none := her
  refine ⟨_, (exec_eq_run i s).trans (run_complete hmode hspace
    ((enableCheck_eq_none_iff i.form s).mpr henabled) (readSource2_of_events hevents) hdone),
    fun j hj => ?lanes, flagsJoined_of_signalled her rfl, rfl, rfl, ?draws,
    unchanged_complete (i.operation s) _ (fpOutcome_done_onlySetsFlags hdone)⟩
  case lanes =>
    exact (congrArg (lane · j) (readV_complete_dst (i.operation s) s _ _)).trans
      ((lane_newDst _ _ _ j hj).trans (operation_newLane her s j))
  case draws => simp [hop]

/-! ## Fault suppression (R58) -/

/-- Form 1 has no writemask. -/
theorem aaa_eq_zero_of_form_f1 {i : Instr} (h : i.form = .f1) : i.aaa = 0 := by
  cases i with
  | subpd | subpdRex => rfl
  | _ => cases h

/-- Fault suppression takes a writemask, which form 1 does not have. -/
theorem form_ne_f1_of_suppressed {i : Instr} {s : State} (h : i.suppressed s = true) :
    i.form ≠ .f1 := by
  intro hform
  simp [Instr.suppressed, aaa_eq_zero_of_form_f1 hform] at h

/-- Under suppression a full-width operand is one read of 8 bytes for each active lane. -/
theorem sourceEvents_suppressed_full {i : Instr} {s : State} (hmem : ¬i.hasRegSource)
    (hsup : i.suppressed s = true) (hb : i.isBcst = false)
    (hread : ∀ j ∈ i.activeLanes s, readable s (i.ea s + 8 * j) 8 = true) :
    i.sourceEvents s =
      some ((i.activeLanes s).map fun j => readEvent s (i.ea s + 8 * j) 8) := by
  have hall := List.all_eq_true.mpr hread
  rw [Instr.sourceEvents, if_neg hmem]
  simp [form_ne_f1_of_suppressed hsup, hsup, hb, hall]

/-- Under suppression a broadcast with no active lane reads nothing. -/
theorem sourceEvents_suppressed_bcst_inactive {i : Instr} {s : State} (hmem : ¬i.hasRegSource)
    (hsup : i.suppressed s = true) (hb : i.isBcst = true) (hact : i.activeLanes s = []) :
    i.sourceEvents s = some [] := by
  rw [Instr.sourceEvents, if_neg hmem]
  simp [form_ne_f1_of_suppressed hsup, hsup, hb, hact]

/-- Under suppression a broadcast with an active lane is one read of 8 bytes. -/
theorem sourceEvents_suppressed_bcst_active {i : Instr} {s : State} (hmem : ¬i.hasRegSource)
    (hsup : i.suppressed s = true) (hb : i.isBcst = true) (hact : i.activeLanes s ≠ [])
    (hread : readable s (i.ea s) 8 = true) :
    i.sourceEvents s = some [readEvent s (i.ea s) 8] := by
  rw [Instr.sourceEvents, if_neg hmem]
  simp [form_ne_f1_of_suppressed hsup, hb, hact, Instr.operandWidth, hread]

/-- Settles O30: in each of its three cases the reads R58 asks for succeed, and a form whose source can be read
completes. -/
theorem faultSuppressionResult : Obligations.FaultSuppressionResult := by
  intro i s her hmem hrun hsup hquiet
  have completes {events} := completesNormally_of_sourceEvents (events := events) her hrun hquiet
  exact ⟨fun hb hread => completes (sourceEvents_suppressed_full hmem hsup hb hread),
    fun hb hact => completes (sourceEvents_suppressed_bcst_inactive hmem hsup hb hact),
    fun hb hact hread => completes (sourceEvents_suppressed_bcst_active hmem hsup hb hact hread)⟩

end Sys2Proof
end

section
/-! SUPPORT. The decoder on the bytes the encoder writes (30_encoding.md R71 to R91, R96): the fields of each
byte, the prefixes, the readers behind `0F`, `C5`, `C4` and `62`, and `decode` on a whole encoding. -/

namespace Sys2Proof

/-! ## What well-formedness says -/

/-- The encoding admits an instruction in a mode when its tail and its row agree with it, and `M32` also
asks for no register above 7 (R84). -/
theorem wellFormed_iff (m : Mode) (i : Instr) :
    i.wellFormed m = true ↔
      (i.tail.wf = true ∧ i.rowOk = true) ∧ m ≠ .other ∧ (m = .m32 → i.m32Ok = true) := by
  cases m <;> simp [Instr.wellFormed]

/-- SIB and displacement are there exactly as ModRM and SIB ask (R86 to R88). -/
theorem Tail.wf_iff (t : Tail) :
    t.wf = true ↔ t.sib.isSome = t.modrm.hasSib ∧ t.disp.size = dispSize t.modrm t.sib := by
  simp [Tail.wf]

/-! ## The fields of the encoder's bytes (R73 to R86) -/

/-- The three fields of a byte with the layout of ModRM and SIB (R85, R86). -/
theorem extract_append_2_3_3 (a : BitVec 2) (b c : BitVec 3) :
    (a ++ b ++ c).extractLsb' 6 2 = a ∧ (a ++ b ++ c).extractLsb' 3 3 = b ∧
      (a ++ b ++ c).extractLsb' 0 3 = c := by
  refine ⟨?_, ?_, BitVec.extractLsb'_append_eq_right⟩
  · rw [BitVec.extractLsb'_append_eq_of_le (by decide), BitVec.extractLsb'_append_eq_left]
  · rw [BitVec.extractLsb'_append_eq_of_le (by decide), BitVec.extractLsb'_append_eq_right]

@[simp] theorem ModRM.ofByte_byte (m : ModRM) : ModRM.ofByte m.byte = m := by
  obtain ⟨hmod, hreg, hrm⟩ := extract_append_2_3_3 m.mod m.reg m.rm
  simp only [ModRM.ofByte, ModRM.byte, hmod, hreg, hrm]

@[simp] theorem Sib.ofByte_byte (s : Sib) : Sib.ofByte s.byte = s := by
  obtain ⟨hscale, hindex, hbase⟩ := extract_append_2_3_3 s.scale s.index s.base
  simp only [Sib.ofByte, Sib.byte, hscale, hindex, hbase]

/-- The byte of a REX has the high nibble 4 and carries its four bits (R73). -/
theorem Rex.byte_fields (p : Rex) : p.byte.extractLsb' 4 4 = 4 ∧ Rex.ofByte p.byte = p := by
  obtain ⟨w, r, x, b⟩ := p
  revert w r x b
  decide

/-- The two bytes of VEX that begin with `C5` carry its fields, `L` and `pp` (R74, R76); bits 7:6 of the second
are `11` when no register is above 7 (R84). -/
theorem Vex2.bytes_fields (p : Vex2) (l : Bool) :
    ∃ v, p.bytes l = [0xC5, v] ∧ Vex2.ofByte v = p ∧ v.extractLsb' 0 2 = 1 ∧ v.getLsbD 2 = l ∧
      (p.m32Ok = true → v.extractLsb' 6 2 = 3) := by
  refine ⟨_, rfl, ?_⟩
  obtain ⟨r, vvvv⟩ := p
  revert r vvvv l
  decide

/-- The two payload bytes of a three-byte VEX (R75), by the fields in each. -/
theorem Vex3.bytes_fields (p : Vex3) (l : Bool) :
    ∃ v1 v2, p.bytes l = [0xC4, v1, v2] ∧ Vex3.ofBytes v1 v2 = p ∧ v1.extractLsb' 0 5 = 1 ∧
      v2.extractLsb' 0 2 = 1 ∧ v2.getLsbD 2 = l ∧ (p.m32Ok = true → v1.extractLsb' 6 2 = 3) := by
  have byte1 : ∀ r x b : Bool, let v := bit (!r) ++ bit (!x) ++ bit (!b) ++ (1 : BitVec 5)
      ((!v.getLsbD 7) = r ∧ (!v.getLsbD 6) = x ∧ (!v.getLsbD 5) = b) ∧ v.extractLsb' 0 5 = 1 ∧
        (r = false → x = false → v.extractLsb' 6 2 = 3) := by decide
  have byte2 : ∀ (w : Bool) (vvvv : BitVec 4) (l : Bool),
      let v := bit w ++ ~~~vvvv ++ bit l ++ (1 : BitVec 2)
      (v.getLsbD 7 = w ∧ ~~~(v.extractLsb' 3 4) = vvvv) ∧ v.extractLsb' 0 2 = 1 ∧
        v.getLsbD 2 = l := by decide
  obtain ⟨r, x, b, w, vvvv⟩ := p
  obtain ⟨⟨hr, hx, hb⟩, hmap, hm32⟩ := byte1 r x b
  obtain ⟨⟨hw, hv⟩, hpp, hl⟩ := byte2 w vvvv l
  refine ⟨_, _, rfl, ?_, hmap, hpp, hl, fun h => ?_⟩
  · simp only [Vex3.ofBytes, hr, hx, hb, hw, hv]
  · simp only [Vex3.m32Ok, Bool.and_eq_true, Bool.not_eq_true'] at h
    obtain ⟨⟨⟨hr0, hx0⟩, -⟩, -⟩ := h
    exact hm32 hr0 hx0

/-- The three payload bytes of EVEX (R78, R79), by the fields in each. -/
theorem Evex.bytes_fields (p : Evex) (ll : BitVec 2) (b : Bool) :
    ∃ p0 p1 p2, p.bytes ll b = [0x62, p0, p1, p2] ∧ Evex.ofBytes p0 p1 p2 = p ∧
      (p0.extractLsb' 2 2 = 0 ∧ p1.getLsbD 2 = true ∧ p1.getLsbD 7 = true) ∧
      (p0.extractLsb' 0 2 = 1 ∧ p1.extractLsb' 0 2 = 1) ∧
      (p2.getLsbD 4 = b ∧ p2.extractLsb' 5 2 = ll) ∧
      (p.m32Ok = true → p0.extractLsb' 6 2 = 3) := by
  have byte0 : ∀ r x b rp : Bool,
      let v := bit (!r) ++ bit (!x) ++ bit (!b) ++ bit (!rp) ++ (1 : BitVec 4)
      ((!v.getLsbD 7) = r ∧ (!v.getLsbD 6) = x ∧ (!v.getLsbD 5) = b ∧ (!v.getLsbD 4) = rp) ∧
        v.extractLsb' 2 2 = 0 ∧ v.extractLsb' 0 2 = 1 ∧
        (r = false → x = false → v.extractLsb' 6 2 = 3) := by decide
  have byte1 : ∀ vvvv : BitVec 4, let v := (1 : BitVec 1) ++ ~~~vvvv ++ (5 : BitVec 3)
      ~~~(v.extractLsb' 3 4) = vvvv ∧ v.getLsbD 2 = true ∧ v.getLsbD 7 = true ∧
        v.extractLsb' 0 2 = 1 := by decide
  have byte2 : ∀ (z : Bool) (ll : BitVec 2) (b vp : Bool) (aaa : BitVec 3),
      let v := bit z ++ ll ++ bit b ++ bit (!vp) ++ aaa
      ((!v.getLsbD 3) = vp ∧ v.getLsbD 7 = z ∧ v.extractLsb' 0 3 = aaa) ∧ v.getLsbD 4 = b ∧
        v.extractLsb' 5 2 = ll := by decide
  obtain ⟨r, x, b', rp, vp, vvvv, z, aaa⟩ := p
  obtain ⟨⟨hr, hx, hb, hrp⟩, hres, hmm, hm32⟩ := byte0 r x b' rp
  obtain ⟨hv, hone, hw, hpp⟩ := byte1 vvvv
  obtain ⟨⟨hvp, hz, haaa⟩, hbit, hll⟩ := byte2 z ll b vp aaa
  refine ⟨_, _, _, rfl, ?_, ⟨hres, hone, hw⟩, ⟨hmm, hpp⟩, ⟨hbit, hll⟩, fun h => ?_⟩
  · simp only [Evex.ofBytes, hr, hx, hb, hrp, hv, hvp, hz, haaa]
  · simp only [Evex.m32Ok, Bool.and_eq_true, Bool.not_eq_true'] at h
    obtain ⟨⟨⟨⟨⟨hr0, hx0⟩, -⟩, -⟩, -⟩, -⟩ := h
    exact hm32 hr0 hx0

@[simp] theorem RoundMode.ofBits_bits (rc : RoundMode) : RoundMode.ofBits rc.bits = rc := by
  cases rc <;> rfl

/-! ## ModRM, SIB and displacement -/

/-- A displacement is read back from its bytes (R90). -/
theorem parseDisp_bytes (d : Disp) (rest : List Byte) :
    parseDisp d.size (d.bytes ++ rest) = some d := by
  cases d with
  | none => rfl
  | d8 v => rfl
  | d32 v =>
    have hjoin : v.extractLsb' 24 8 ++ v.extractLsb' 16 8 ++ v.extractLsb' 8 8 ++
        v.extractLsb' 0 8 = v := by grind
    exact congrArg (some ∘ Disp.d32) hjoin

/-- A tail whose parts agree is read back from its bytes (R85 to R90). -/
theorem parseTail_bytes {t : Tail} (ht : t.wf = true) (rest : List Byte) :
    parseTail (t.bytes ++ rest) = some t := by
  obtain ⟨hsib, hsize⟩ := t.wf_iff.mp ht
  obtain ⟨m, sib, d⟩ := t
  dsimp only at hsib hsize
  cases sib with
  | none => simp [parseTail, Tail.bytes, ← hsib, ← hsize, parseDisp_bytes]
  | some sb => simp [parseTail, Tail.bytes, ← hsib, ← hsize, parseDisp_bytes]

/-! ## Prefixes (R72, R96 step 1) -/

/-- Past admitted legacy prefixes the decoder goes on at the first byte that is none. -/
theorem decode_prefixes {m : Mode} (hm : m ≠ .other) {ps : List Byte}
    (hps : ∀ v ∈ ps, isLegacyPrefix v = true) (hlock : 0xF0#8 ∉ ps) {b : Byte}
    (hb : isLegacyPrefix b = false) (bs : List Byte) :
    decode m (ps ++ b :: bs) = decodeBody m ps (b :: bs) := by
  have htake : (ps ++ b :: bs).takeWhile isLegacyPrefix = ps := by
    rw [List.takeWhile_append_of_pos hps, List.takeWhile_cons_of_neg (by simp [hb]), List.append_nil]
  have hdrop : (ps ++ b :: bs).dropWhile isLegacyPrefix = b :: bs := by
    rw [List.dropWhile_append_of_pos hps, List.dropWhile_cons_of_neg (by simp [hb])]
  simp [decode, hm, htake, hdrop, hlock]

/-- With no legacy prefixes the body begins at the first byte. -/
theorem decode_no_prefix {m : Mode} (hm : m ≠ .other) {b : Byte} (hb : isLegacyPrefix b = false)
    (bs : List Byte) : decode m (b :: bs) = decodeBody m [] (b :: bs) :=
  decode_prefixes (ps := []) hm (by simp) (by simp) hb bs

/-- LOCK raises #UD whatever follows (R184). -/
theorem decode_lock {m : Mode} (hm : m ≠ .other) (bs : List Byte) : decode m (0xF0 :: bs) = .ud := by
  have hlock : isLegacyPrefix 0xF0#8 = true := rfl
  simp [decode, hm, hlock]

/-- A byte `40` to `4F` is none of the bytes the decoder looks for (R72, R73). -/
theorem ne_of_highNibble_four {v : Byte} (hv : v.extractLsb' 4 4 = 4) :
    isLegacyPrefix v = false ∧ v ≠ 0x0F#8 ∧ v ≠ 0xC5#8 ∧ v ≠ 0xC4#8 ∧ v ≠ 0x62#8 := by
  revert v
  decide

/-! ## The bytes after the prefixes (R96 step 2) -/

/-- `0F` without REX. -/
theorem decodeBody_0F (m : Mode) (ps bs : List Byte) :
    decodeBody m ps (0x0F :: bs) = decodeLegacy ps none bs := by
  simp [decodeBody]

/-- In `M64` a REX stands just before `0F`. -/
theorem decodeBody_rex_0F {v : Byte} (hv : v.extractLsb' 4 4 = 4) (ps bs : List Byte) :
    decodeBody .m64 ps (v :: 0x0F :: bs) = decodeLegacy ps (some (Rex.ofByte v)) bs := by
  simp [decodeBody, hv]

/-- A REX before one of the legacy prefixes is refused (R72; log 15). -/
theorem decodeBody_rex_prefix {v w : Byte} (hv : v.extractLsb' 4 4 = 4)
    (hw : isLegacyPrefix w = true) (ps bs : List Byte) :
    decodeBody .m64 ps (v :: w :: bs) = .reject .prefixNotAdmitted := by
  have hne : w ≠ 0x0F#8 ∧ w ≠ 0xC5#8 ∧ w ≠ 0xC4#8 ∧ w ≠ 0x62#8 := by revert w; decide
  simp [decodeBody, hv, hw, hne]

/-- Outside `M64` a byte `40` to `4F` is another instruction (R84). -/
theorem decodeBody_m32_rex {v : Byte} (hv : v.extractLsb' 4 4 = 4) (ps bs : List Byte) :
    decodeBody .m32 ps (v :: bs) = .reject .otherInstruction := by
  obtain ⟨-, h0F, hC5, hC4, h62⟩ := ne_of_highNibble_four hv
  simp [decodeBody, h0F, hC5, hC4, h62]

/-- The bytes that VEX and EVEX begin with, and the reader of what follows each (R74, R75, R78). -/
inductive Escape : Byte → (Mode → List Byte → Decoded) → Prop
  | vex2 : Escape 0xC5 decodeVex2
  | vex3 : Escape 0xC4 decodeVex3
  | evex : Escape 0x62 decodeEvex

section
variable {e : Byte} {go : Mode → List Byte → Decoded}

theorem Escape.not_legacyPrefix (he : Escape e go) : isLegacyPrefix e = false := by cases he <;> rfl

theorem Escape.decodeBody (he : Escape e go) (m : Mode) (ps bs : List Byte) :
    decodeBody m ps (e :: bs) = decodeVexLike m ps bs go := by
  cases he <;> simp [Sys2Proof.decodeBody]

/-- A REX before VEX or EVEX raises #UD (R72, R184; log 15). -/
theorem Escape.decodeBody_rex (he : Escape e go) {v : Byte} (hv : v.extractLsb' 4 4 = 4)
    (ps bs : List Byte) : Sys2Proof.decodeBody .m64 ps (v :: e :: bs) = .ud := by
  cases he <;> simp [Sys2Proof.decodeBody, hv]

/-- In `M32` the escape byte begins VEX or EVEX only before bits 7:6 = `11` (R84). -/
theorem decodeVexLike_m32_refused {v : Byte} (hv : v.extractLsb' 6 2 ≠ 3#2) (ps bs : List Byte) :
    decodeVexLike .m32 ps (v :: bs) go = .reject .m32OtherOpcode := by
  simp [decodeVexLike, m32PrefixCheck, hv]

/-- Where the escape byte begins VEX or EVEX, the prefixes before it decide, and with none the reader does. -/
theorem decodeVexLike_of_admitted {m : Mode} {v : Byte} (hv : m = .m32 → v.extractLsb' 6 2 = 3)
    (ps bs : List Byte) :
    decodeVexLike m ps (v :: bs) go = (vexPrefixCheck ps).getD (go m (v :: bs)) := by
  have hcheck : m32PrefixCheck m (v :: bs) = none := by
    by_cases hm : m = .m32
    · simp [m32PrefixCheck, hv hm]
    · simp [m32PrefixCheck, hm]
  rw [decodeVexLike, hcheck]
  cases vexPrefixCheck ps <;> rfl

end

/-- Form 1 takes `66` and no other of the prefixes (R72). -/
theorem decodeLegacy_refused {ps : List Byte} (hps : ps ≠ [0x66]) (rex : Option Rex) (bs : List Byte) :
    ∃ r, decodeLegacy ps rex bs = .reject r := by
  unfold decodeLegacy
  split
  · exact ⟨_, rfl⟩
  · split_ifs with hop hother hnot
    · exact ⟨_, rfl⟩
    · exact ⟨_, rfl⟩
    · exact ⟨_, rfl⟩
    · exact absurd (by simpa using hnot) hps

/-! ## The readers on the encoder's bytes (R96 steps 2 to 5) -/

/-- What the readers of VEX and EVEX answer once the fields are read: the instruction, unless the mode is
`M32` and a register is above 7 (R84, R96 step 5). -/
def m32Gate (m : Mode) (i : Instr) : Decoded :=
  if m == .m32 && !i.m32Ok then .reject .m32Extension else .instr i

theorem m32Gate_admitted {m : Mode} {i : Instr} (h : m = .m32 → i.m32Ok = true) :
    m32Gate m i = .instr i := by
  by_cases hm : m = .m32
  · simp [m32Gate, h hm]
  · simp [m32Gate, hm]

theorem m32Gate_refused {i : Instr} (h : i.m32Ok = false) :
    m32Gate .m32 i = .reject .m32Extension := by
  simp [m32Gate, h]

/-- The encoding of a VEX or EVEX form: the escape byte `e`, the byte `v` that R84 looks at, and `bs`, which
`go` reads back to the instruction. -/
structure Instr.EncodedBehind (i : Instr) (e v : Byte) (bs : List Byte)
    (go : Mode → List Byte → Decoded) : Prop where
  escape : Escape e go
  bytes : encode i = e :: v :: bs
  highBits : i.m32Ok = true → v.extractLsb' 6 2 = 3
  reads : ∀ m rest, go m (v :: bs ++ rest) = m32Gate m i

/-- A two-byte VEX row, by its `L` (R74, R76). -/
theorem exists_encodedBehind_vex2 {i : Instr} {p : Vex2} {l : Bool} {t : Tail} (ht : t.wf = true)
    (hbytes : encode i = p.bytes l ++ [0x5C] ++ t.bytes)
    (hrow : (if l then Instr.vsubpdYmmVex2 p else .vsubpdXmmVex2 p) t = i)
    (hok : i.m32Ok = p.m32Ok) : ∃ e v bs go, i.EncodedBehind e v bs go := by
  obtain ⟨v, hv, hfields, hpp, hl, hm32⟩ := p.bytes_fields l
  refine ⟨0xC5, v, 0x5C :: t.bytes, decodeVex2, .vex2, by rw [hbytes, hv]; rfl,
    fun h => hm32 (hok ▸ h), fun m rest => ?_⟩
  simp [-BitVec.getLsbD_eq_getElem, decodeVex2, vexRow, hpp, hfields, hl, parseTail_bytes ht, hrow,
    m32Gate, hok]

/-- A three-byte VEX row, by its `L` (R75, R76). -/
theorem exists_encodedBehind_vex3 {i : Instr} {p : Vex3} {l : Bool} {t : Tail} (ht : t.wf = true)
    (hbytes : encode i = p.bytes l ++ [0x5C] ++ t.bytes)
    (hrow : (if l then Instr.vsubpdYmmVex3 p else .vsubpdXmmVex3 p) t = i)
    (hok : i.m32Ok = p.m32Ok) : ∃ e v bs go, i.EncodedBehind e v bs go := by
  obtain ⟨v1, v2, hv, hfields, hmap, hpp, hl, hm32⟩ := p.bytes_fields l
  refine ⟨0xC4, v1, v2 :: 0x5C :: t.bytes, decodeVex3, .vex3, by rw [hbytes, hv]; rfl,
    fun h => hm32 (hok ▸ h), fun m rest => ?_⟩
  simp [-BitVec.getLsbD_eq_getElem, decodeVex3, vexRow, hmap, hpp, hfields, hl, parseTail_bytes ht,
    hrow, m32Gate, hok]

/-- An EVEX row whose `L'L`, `z` and `aaa` raise no #UD (R96 step 4). -/
theorem exists_encodedBehind_evex {i : Instr} {p : Evex} {ll : BitVec 2} {b : Bool} {t : Tail}
    (ht : t.wf = true) (hmask : p.maskOk = true)
    (hll : (ll == 3 && !(b && t.modrm.isReg)) = false)
    (hbytes : encode i = p.bytes ll b ++ [0x5C] ++ t.bytes) (hrow : evexInstr p b ll t = i)
    (hok : i.m32Ok = p.m32Ok) : ∃ e v bs go, i.EncodedBehind e v bs go := by
  obtain ⟨p0, p1, p2, hp, hfields, ⟨hres, hone, hw⟩, ⟨hmm, hpp⟩, ⟨hb, hl⟩, hm32⟩ :=
    p.bytes_fields ll b
  refine ⟨0x62, p0, p1 :: p2 :: 0x5C :: t.bytes, decodeEvex, .evex, by rw [hbytes, hp]; rfl,
    fun h => hm32 (hok ▸ h), fun m rest => ?_⟩
  have hread : decodeEvex m (p0 :: p1 :: p2 :: 0x5C :: (t.bytes ++ rest)) = evexRow m p b ll t := by
    simp [-BitVec.getLsbD_eq_getElem, decodeEvex, hres, hone, hw, hmm, hpp, hb, hl, hfields,
      parseTail_bytes ht]
  refine hread.trans ?_
  simp only [evexRow, hll, hmask, hrow, m32Gate, hok, Bool.not_true, Bool.false_eq_true, if_false]

/-- The broadcast rows with `mod` = 00 or 01 (R81). -/
theorem evexInstr_bcst_short {p : Evex} {t : Tail} (h : t.isBcstShort = true) :
    evexInstr p true 0 t = .vsubpdXmmEvexBcst p t ∧ evexInstr p true 1 t = .vsubpdYmmEvexBcst p t ∧
      evexInstr p true 2 t = .vsubpdZmmEvexBcst p t := by
  simp only [Tail.isBcstShort, Bool.or_eq_true, beq_iff_eq] at h
  rcases h with h | h <;> simp [evexInstr, ModRM.isReg, h]

/-- The broadcast rows with `mod` = 10 (R81). -/
theorem evexInstr_bcst_long {p : Evex} {t : Tail} (h : (t.modrm.mod == 2) = true) :
    evexInstr p true 0 t = .vsubpdXmmEvexBcstD32 p t ∧
      evexInstr p true 1 t = .vsubpdYmmEvexBcstD32 p t ∧
      evexInstr p true 2 t = .vsubpdZmmEvexBcstD32 p t := by
  simp [evexInstr, ModRM.isReg, beq_iff_eq.mp h]

/-- The row of embedded rounding (R81). -/
theorem evexInstr_er {p : Evex} {t : Tail} (h : t.modrm.isReg = true) (rc : RoundMode) :
    evexInstr p true rc.bits t = .vsubpdZmmEvexEr p rc t := by
  simp [evexInstr, h]

/-- Every row of forms 2 to 6 is encoded behind an escape byte. -/
theorem exists_encodedBehind {i : Instr} (hform : i.form ≠ .f1) (ht : i.tail.wf = true)
    (hrow : i.rowOk = true) : ∃ e v bs go, i.EncodedBehind e v bs go := by
  cases i with
  | subpd | subpdRex => exact absurd rfl hform
  | vsubpdXmmVex2 => exact exists_encodedBehind_vex2 (l := false) ht rfl rfl rfl
  | vsubpdYmmVex2 => exact exists_encodedBehind_vex2 (l := true) ht rfl rfl rfl
  | vsubpdXmmVex3 => exact exists_encodedBehind_vex3 (l := false) ht rfl rfl rfl
  | vsubpdYmmVex3 => exact exists_encodedBehind_vex3 (l := true) ht rfl rfl rfl
  | vsubpdXmmEvex | vsubpdYmmEvex | vsubpdZmmEvex =>
    exact exists_encodedBehind_evex (b := false) ht hrow rfl rfl rfl rfl
  | vsubpdXmmEvexBcst | vsubpdYmmEvexBcst | vsubpdZmmEvexBcst =>
    obtain ⟨hmask, hshort⟩ := Bool.and_eq_true_iff.mp hrow
    obtain ⟨hxmm, hymm, hzmm⟩ := evexInstr_bcst_short hshort
    exact exists_encodedBehind_evex ht hmask rfl rfl (by assumption) rfl
  | vsubpdXmmEvexBcstD32 | vsubpdYmmEvexBcstD32 | vsubpdZmmEvexBcstD32 =>
    obtain ⟨hmask, hlong⟩ := Bool.and_eq_true_iff.mp hrow
    obtain ⟨hxmm, hymm, hzmm⟩ := evexInstr_bcst_long hlong
    exact exists_encodedBehind_evex ht hmask rfl rfl (by assumption) rfl
  | vsubpdZmmEvexEr p rc t =>
    obtain ⟨hmask, hreg⟩ := Bool.and_eq_true_iff.mp hrow
    have hll : (rc.bits == 3 && !(true && t.modrm.isReg)) = false := by simp [hreg]
    exact exists_encodedBehind_evex ht hmask hll rfl (evexInstr_er hreg rc) rfl

/-- The encoding of a row of form 1 in the mode `m`: `66`, then `b`, none of the legacy prefixes, which
with `bs` leads to the reader after `0F`; behind `66` alone that reader gives the instruction back. -/
structure Instr.EncodedLegacy (m : Mode) (i : Instr) (b : Byte) (bs : List Byte) (rex : Option Rex)
    (opcode : List Byte) : Prop where
  bytes : encode i = 0x66 :: b :: bs
  not_legacyPrefix : isLegacyPrefix b = false
  body : ∀ ps rest, decodeBody m ps (b :: bs ++ rest) = decodeLegacy ps rex (opcode ++ rest)
  reads : ∀ rest, decodeLegacy [0x66] rex (opcode ++ rest) = .instr i

/-- Both rows of form 1 are encoded behind `66` and `0F`. -/
theorem exists_encodedLegacy {m : Mode} {i : Instr} (hform : i.form = .f1)
    (hwf : i.wellFormed m = true) : ∃ b bs rex opcode, i.EncodedLegacy m b bs rex opcode := by
  obtain ⟨⟨ht, -⟩, hm, hm32⟩ := (wellFormed_iff m i).mp hwf
  cases i with
  | subpd t =>
    refine ⟨0x0F, 0x5C :: t.bytes, none, 0x5C :: t.bytes, rfl, rfl,
      fun ps rest => decodeBody_0F m ps _, fun rest => ?_⟩
    simp [decodeLegacy, parseTail_bytes (t := t) ht]
  | subpdRex p t =>
    obtain rfl : m = .m64 := by
      cases m with
      | m64 => rfl
      | m32 => cases hm32 rfl
      | other => exact absurd rfl hm
    obtain ⟨hnibble, hfields⟩ := p.byte_fields
    refine ⟨p.byte, 0x0F :: 0x5C :: t.bytes, some p, 0x5C :: t.bytes, rfl,
      (ne_of_highNibble_four hnibble).1, fun ps rest => ?_, fun rest => ?_⟩
    · exact (decodeBody_rex_0F hnibble ps _).trans (by rw [hfields]; rfl)
    · simp [decodeLegacy, parseTail_bytes (t := t) ht]
  | _ => cases hform

/-! ## The decoder on an encoding -/

/-- In `M32` the byte after `66` is no REX (R84). -/
theorem decode_m32_rex {v : Byte} (hv : v.extractLsb' 4 4 = 4) (bs : List Byte) :
    decode .m32 (0x66 :: v :: bs) = .reject .otherInstruction := by
  obtain ⟨hnot, -⟩ := ne_of_highNibble_four hv
  exact (decode_prefixes (ps := [0x66]) (by decide) (by decide) (by decide) hnot bs).trans
    (decodeBody_m32_rex hv _ _)

/-- In `M32` an escape byte before bits 7:6 other than `11` is another instruction (R84). -/
theorem Escape.decode_m32_refused {e v : Byte} {go : Mode → List Byte → Decoded} (he : Escape e go)
    (hv : v.extractLsb' 6 2 ≠ 3#2) (bs : List Byte) :
    decode .m32 (e :: v :: bs) = .reject .m32OtherOpcode :=
  (decode_no_prefix (by decide) he.not_legacyPrefix _).trans
    ((he.decodeBody _ _ _).trans (decodeVexLike_m32_refused hv _ _))

section
variable {m : Mode} {i : Instr} {e v b : Byte} {bs opcode : List Byte} {rex : Option Rex}
  {go : Mode → List Byte → Decoded}

/-- Admitted prefixes before a row of form 1. -/
theorem Instr.EncodedLegacy.decode_after (h : i.EncodedLegacy m b bs rex opcode) (hm : m ≠ .other)
    {ps : List Byte} (hps : ∀ v ∈ ps, isLegacyPrefix v = true) (hlock : 0xF0#8 ∉ ps) (rest : List Byte) :
    decode m (ps ++ (encode i).tail ++ rest) = decodeLegacy ps rex (opcode ++ rest) := by
  rw [← h.body, h.bytes, List.tail_cons, List.append_assoc, List.cons_append]
  exact decode_prefixes hm hps hlock h.not_legacyPrefix _

/-- Admitted prefixes before a VEX or EVEX row. -/
theorem Instr.EncodedBehind.decode_after (h : i.EncodedBehind e v bs go) (hm : m ≠ .other)
    (hv : m = .m32 → v.extractLsb' 6 2 = 3) {ps : List Byte} (hps : ∀ v ∈ ps, isLegacyPrefix v = true)
    (hlock : 0xF0#8 ∉ ps) (rest : List Byte) :
    decode m (ps ++ encode i ++ rest) = (vexPrefixCheck ps).getD (m32Gate m i) := by
  rw [← h.reads m rest, h.bytes, List.append_assoc]
  exact (decode_prefixes hm hps hlock h.escape.not_legacyPrefix _).trans
    ((h.escape.decodeBody m ps _).trans (decodeVexLike_of_admitted hv ps _))

end

/-- The decoder gives back every instruction the mode admits from its encoding (R71 to R91). -/
theorem decode_encode {m : Mode} {i : Instr} (hwf : i.wellFormed m = true) (rest : List Byte) :
    decode m (encode i ++ rest) = .instr i := by
  obtain ⟨⟨ht, hrow⟩, hm, hm32⟩ := (wellFormed_iff m i).mp hwf
  by_cases hform : i.form = .f1
  · obtain ⟨b, bs, rex, opcode, h⟩ := exists_encodedLegacy hform hwf
    have hdecode := h.decode_after hm (ps := [0x66]) (by decide) (by decide) rest
    rw [← h.reads rest, ← hdecode, h.bytes]
    rfl
  · obtain ⟨e, v, bs, go, h⟩ := exists_encodedBehind hform ht hrow
    rw [← m32Gate_admitted hm32]
    exact h.decode_after hm (fun h32 => h.highBits (hm32 h32)) (ps := []) (by decide) (by decide) rest

/-- In `M32` the encoding of an instruction that needs a register above 7, or REX, is refused (R84). -/
theorem decode_m32_refused {i : Instr} (hwf : i.wellFormed .m64 = true) (hok : i.m32Ok = false)
    (rest : List Byte) : ∃ r, decode .m32 (encode i ++ rest) = .reject r := by
  obtain ⟨⟨ht, hrow⟩, -⟩ := (wellFormed_iff .m64 i).mp hwf
  by_cases hform : i.form = .f1
  · cases i with
    | subpd => cases hok
    | subpdRex p t =>
      exact ⟨_, decode_m32_rex p.byte_fields.1 _⟩
    | _ => cases hform
  · obtain ⟨e, v, bs, go, h⟩ := exists_encodedBehind hform ht hrow
    by_cases hv : v.extractLsb' 6 2 = 3
    · exact ⟨_, (h.decode_after (ps := []) (by decide) (fun _ => hv) (by decide) (by decide) rest).trans
        (m32Gate_refused hok)⟩
    · rw [h.bytes]
      exact ⟨_, h.escape.decode_m32_refused hv _⟩

end Sys2Proof
end

section
/-! SUPPORT. The statements of 30_encoding.md on encodings: lengths (R93), the neighbours of the form (R98), the
prefixes of R72 and the restrictions of `M32` (R84). -/

namespace Sys2Proof

/-! ## Lengths (R93) -/

/-- The bytes up to the opcode: prefixes and the opcode part (R93). -/
def Instr.opcodeEnd : Instr → Nat
  | .subpd _ => 3
  | .subpdRex _ _ => 4
  | .vsubpdXmmVex2 _ _ => 3
  | .vsubpdYmmVex2 _ _ => 3
  | .vsubpdXmmVex3 _ _ => 4
  | .vsubpdYmmVex3 _ _ => 4
  | _ => 5

/-- The sum of R93. -/
theorem Instr.length_eq (i : Instr) :
    i.length = i.opcodeEnd + 1 + (if i.tail.sib.isSome then 1 else 0) + i.tail.disp.size := by
  have hsplit : i.length = i.opcodeEnd + i.tail.length := by cases i <;> rfl
  rw [hsplit, Tail.length]
  omega

theorem Disp.size_cases (d : Disp) : d.size = 0 ∨ d.size = 1 ∨ d.size = 4 := by
  cases d with
  | none => exact .inl rfl
  | d8 => exact .inr (.inl rfl)
  | d32 => exact .inr (.inr rfl)

/-- After the opcode stand at most ModRM, SIB and four displacement bytes. -/
theorem Instr.length_le (i : Instr) : i.length ≤ i.opcodeEnd + 6 := by
  have hsib : (if i.tail.sib.isSome then 1 else 0) ≤ 1 := by split <;> decide
  have hdisp := i.tail.disp.size_cases
  rw [i.length_eq]
  omega

/-- The lemmas of Laws/PerInstr.lean, row by row. -/
theorem encode_length (i : Instr) : (encode i).length = i.length := by
  cases i with
  | subpd t => exact Laws.EncodeLength.subpd t
  | subpdRex p t => exact Laws.EncodeLength.subpdRex p t
  | vsubpdXmmVex2 p t => exact Laws.EncodeLength.vsubpdXmmVex2 p t
  | vsubpdXmmVex3 p t => exact Laws.EncodeLength.vsubpdXmmVex3 p t
  | vsubpdYmmVex2 p t => exact Laws.EncodeLength.vsubpdYmmVex2 p t
  | vsubpdYmmVex3 p t => exact Laws.EncodeLength.vsubpdYmmVex3 p t
  | vsubpdXmmEvex p t => exact Laws.EncodeLength.vsubpdXmmEvex p t
  | vsubpdXmmEvexBcst p t => exact Laws.EncodeLength.vsubpdXmmEvexBcst p t
  | vsubpdXmmEvexBcstD32 p t => exact Laws.EncodeLength.vsubpdXmmEvexBcstD32 p t
  | vsubpdYmmEvex p t => exact Laws.EncodeLength.vsubpdYmmEvex p t
  | vsubpdYmmEvexBcst p t => exact Laws.EncodeLength.vsubpdYmmEvexBcst p t
  | vsubpdYmmEvexBcstD32 p t => exact Laws.EncodeLength.vsubpdYmmEvexBcstD32 p t
  | vsubpdZmmEvex p t => exact Laws.EncodeLength.vsubpdZmmEvex p t
  | vsubpdZmmEvexBcst p t => exact Laws.EncodeLength.vsubpdZmmEvexBcst p t
  | vsubpdZmmEvexBcstD32 p t => exact Laws.EncodeLength.vsubpdZmmEvexBcstD32 p t
  | vsubpdZmmEvexEr p rc t => exact Laws.EncodeLength.vsubpdZmmEvexEr p rc t

/-- Settles O3: the length is that of the encoding, split at the opcode. -/
theorem instructionLengths : Obligations.InstructionLengths := by
  intro m i _
  refine ⟨encode_length i, ⟨i.opcodeEnd, i.length_eq, ?ranges⟩, i.tail.disp.size_cases⟩
  have hle := i.length_le
  cases i <;> exact ⟨rfl, by simp only [Instr.opcodeEnd] at hle; omega⟩

/-! ## Neighbours and prefixes -/

/-- With other prefixes than the one `66`, or with none, `0F` leads to no form (R72, R98). -/
theorem decode_0F_refused {m : Mode} (hm : m ≠ .other) {ps : List Byte}
    (hps : ∀ v ∈ ps, isLegacyPrefix v = true) (hlock : 0xF0#8 ∉ ps) (hne : ps ≠ [0x66])
    (bs : List Byte) : ∃ r, decode m (ps ++ 0x0F :: bs) = .reject r := by
  rw [decode_prefixes hm hps hlock (by decide), decodeBody_0F]
  exact decodeLegacy_refused hne none bs

/-- What the reader behind an escape byte refuses, the decoder refuses. -/
theorem Escape.decode_refused {m : Mode} (hm : m ≠ .other) {e v : Byte}
    {go : Mode → List Byte → Decoded} (he : Escape e go) {bs : List Byte}
    (hgo : ∃ r, go m (v :: bs) = .reject r) : ∃ r, decode m (e :: v :: bs) = .reject r := by
  have hbody : decode m (e :: v :: bs) = decodeVexLike m [] (v :: bs) go :=
    (decode_no_prefix hm he.not_legacyPrefix _).trans (he.decodeBody m [] _)
  rw [hbody]
  by_cases hv : m = .m32 → v.extractLsb' 6 2 = 3
  · rw [decodeVexLike_of_admitted hv]
    exact hgo
  · obtain ⟨rfl, hbits⟩ := Classical.not_imp.mp hv
    exact ⟨_, decodeVexLike_m32_refused hbits _ _⟩

/-- Behind `C5` another `pp` is another instruction (R98). -/
theorem decodeVex2_pp_refused {v : Byte} (hpp : v.extractLsb' 0 2 ≠ 1#2) (m : Mode) (bs : List Byte) :
    ∃ r, decodeVex2 m (v :: 0x5C :: bs) = .reject r :=
  ⟨.otherInstruction, by simp [decodeVex2, hpp]⟩

/-- Behind `C4` another `pp` is another instruction (R98). -/
theorem decodeVex3_pp_refused {w : Byte} (hpp : w.extractLsb' 0 2 ≠ 1#2) (m : Mode) (v : Byte)
    (bs : List Byte) : ∃ r, decodeVex3 m (v :: w :: 0x5C :: bs) = .reject r :=
  ⟨.otherInstruction, by simp [decodeVex3, hpp]⟩

/-- Behind `62` the reserved bits are looked at before `pp` (R83, R98). -/
theorem decodeEvex_pp_refused {p1 : Byte} (hpp : p1.extractLsb' 0 2 ≠ 1#2) (m : Mode) (p0 p2 : Byte)
    (bs : List Byte) : ∃ r, decodeEvex m (p0 :: p1 :: p2 :: 0x5C :: bs) = .reject r := by
  cases hres : (p0.extractLsb' 2 2 != 0 || !p1.getLsbD 2 || !p1.getLsbD 7)
  · exact ⟨.otherInstruction, by
      simp only [decodeEvex, hres, Bool.false_eq_true, if_false]
      simp [hpp]⟩
  · exact ⟨.evexReserved, by simp only [decodeEvex, hres, if_true]⟩

/-- Settles O6: `0F` needs `66` before it, and each reader of VEX and EVEX looks at `pp`. -/
theorem neighboursAreRefused : Obligations.NeighboursAreRefused := by
  intro m rest
  by_cases hm : m = .other
  · subst hm
    have refused (bs : List Byte) : ∃ r, decode .other bs = .reject r := ⟨_, rfl⟩
    exact ⟨refused _, refused _, refused _, fun _ _ => refused _, fun _ _ _ => refused _,
      fun _ _ _ _ => refused _⟩
  · exact ⟨decode_0F_refused (ps := []) hm (by decide) (by decide) (by decide) _,
      decode_0F_refused (ps := [0xF3]) hm (by decide) (by decide) (by decide) _,
      decode_0F_refused (ps := [0xF2]) hm (by decide) (by decide) (by decide) _,
      fun _ hpp => Escape.vex2.decode_refused hm (decodeVex2_pp_refused hpp m _),
      fun v _ hpp => Escape.vex3.decode_refused hm (decodeVex3_pp_refused hpp m v _),
      fun p0 _ p2 hpp => Escape.evex.decode_refused hm (decodeEvex_pp_refused hpp m p0 p2 _)⟩

section
variable {m : Mode} {i : Instr} {e v w b : Byte} {bs opcode : List Byte} {rex : Option Rex}
  {go : Mode → List Byte → Decoded}

/-- Form 1 takes no more prefixes than its `66`, and not without it (R72). -/
theorem Instr.EncodedLegacy.decode_refused (h : i.EncodedLegacy m b bs rex opcode) (hm : m ≠ .other)
    {ps : List Byte} (hps : ∀ v ∈ ps, isLegacyPrefix v = true) (hlock : 0xF0#8 ∉ ps)
    (hne : ps ≠ [0x66]) (rest : List Byte) : ∃ r, decode m (ps ++ (encode i).tail ++ rest) = .reject r := by
  rw [h.decode_after hm hps hlock]
  exact decodeLegacy_refused hne rex _

/-- One more of the legacy prefixes before form 1 (R72). -/
theorem Instr.EncodedLegacy.decode_cons_refused (h : i.EncodedLegacy m b bs rex opcode)
    (hm : m ≠ .other) (hv : isLegacyPrefix v = true) (hlock : v ≠ 0xF0) (rest : List Byte) :
    ∃ r, decode m (v :: encode i ++ rest) = .reject r := by
  have hps : ∀ w ∈ [v, 0x66], isLegacyPrefix w = true := by
    simp only [List.mem_cons, List.not_mem_nil, or_false]
    rintro w (rfl | rfl)
    · exact hv
    · rfl
  have hbytes : v :: encode i = [v, 0x66] ++ (encode i).tail := by rw [h.bytes]; rfl
  rw [hbytes]
  exact h.decode_refused hm hps (by simpa using hlock.symm) (by simp) rest

/-- A REX before the `66` of form 1 (R72; log 15). -/
theorem Instr.EncodedLegacy.decode_rex_refused (h : i.EncodedLegacy .m64 b bs rex opcode)
    (hv : v.extractLsb' 4 4 = 4) (rest : List Byte) :
    ∃ r, decode .m64 (v :: encode i ++ rest) = .reject r := by
  obtain ⟨hnot, -⟩ := ne_of_highNibble_four hv
  rw [h.bytes]
  exact ⟨_, (decode_no_prefix (by decide) hnot _).trans (decodeBody_rex_prefix hv rfl _ _)⟩

/-- One of the legacy prefixes before VEX or EVEX (R72). -/
theorem Instr.EncodedBehind.decode_cons (h : i.EncodedBehind e v bs go) (hm : m ≠ .other)
    (hm32 : m = .m32 → i.m32Ok = true) (hw : isLegacyPrefix w = true) (hlock : w ≠ 0xF0)
    (rest : List Byte) :
    decode m (w :: encode i ++ rest) = (vexPrefixCheck [w]).getD (.instr i) := by
  rw [← m32Gate_admitted hm32]
  exact h.decode_after (ps := [w]) hm (fun h32 => h.highBits (hm32 h32)) (by simpa using hw)
    (by simpa using hlock.symm) rest

/-- A REX before VEX or EVEX (R72; log 15). -/
theorem Instr.EncodedBehind.decode_rex (h : i.EncodedBehind e v bs go) (hw : w.extractLsb' 4 4 = 4)
    (rest : List Byte) : decode .m64 (w :: encode i ++ rest) = .ud := by
  obtain ⟨hnot, -⟩ := ne_of_highNibble_four hw
  rw [h.bytes]
  exact (decode_no_prefix (by decide) hnot _).trans (h.escape.decodeBody_rex hw _ _)

end

/-- Settles O7: in form 1 the list of prefixes is then not `66` alone; before VEX and EVEX the rule of
R96 for them decides. -/
theorem prefixPolicy : Obligations.PrefixPolicy := by
  intro m i rest hwf
  obtain ⟨⟨ht, hrow⟩, hm, hm32⟩ := (wellFormed_iff m i).mp hwf
  refine ⟨decode_lock hm _, ?_⟩
  by_cases hform : i.form = .f1
  · obtain ⟨b, bs, rex, opcode, h⟩ := exists_encodedLegacy hform hwf
    refine ⟨fun v hv => ⟨fun _ => ?mandatory, absurd hform⟩,
      fun _ => h.decode_refused (ps := []) hm (by decide) (by decide) (by decide) rest,
      fun v hv => ?segment, fun v h64 hv => ⟨fun _ => ?rex, absurd hform⟩⟩
    case mandatory =>
      rcases hv with rfl | rfl | rfl <;> exact h.decode_cons_refused hm rfl (by decide) rest
    case segment =>
      rcases hv with rfl | rfl | rfl | rfl | rfl | rfl | rfl <;>
        exact h.decode_cons_refused hm rfl (by decide) rest
    case rex =>
      subst h64
      exact h.decode_rex_refused hv rest
  · obtain ⟨e, v, bs, go, h⟩ := exists_encodedBehind hform ht hrow
    refine ⟨fun w hw => ⟨(absurd · hform), fun _ => ?mandatory⟩, (absurd · hform),
      fun w hw => ?segment, fun w h64 hw => ⟨(absurd · hform), fun _ => ?rex⟩⟩
    case mandatory =>
      rcases hw with rfl | rfl | rfl <;> exact h.decode_cons hm hm32 rfl (by decide) rest
    case segment =>
      rcases hw with rfl | rfl | rfl | rfl | rfl | rfl | rfl <;>
        exact ⟨_, h.decode_cons hm hm32 rfl (by decide) rest⟩
    case rex =>
      subst h64
      exact h.decode_rex hw rest

/-- Settles O8: the escape bytes and REX by what `M32` reads them as, and the encodings by `decode_encode` and
`decode_m32_refused`. -/
theorem mode32Restrictions : Obligations.Mode32Restrictions := by
  refine ⟨fun v rest hv => ⟨_, Escape.vex3.decode_m32_refused hv rest,
      Escape.vex2.decode_m32_refused hv rest, Escape.evex.decode_m32_refused hv rest⟩,
    fun v rest hv => ⟨_, decode_m32_rex hv rest⟩,
    fun i rest hwf => ⟨fun hok => decode_encode ?admitted rest,
      fun hok => decode_m32_refused hwf hok rest⟩⟩
  case admitted =>
    obtain ⟨hrow, -⟩ := (wellFormed_iff .m64 i).mp hwf
    exact (wellFormed_iff .m32 i).mpr ⟨hrow, by decide, fun _ => hok⟩

end Sys2Proof
end

section
/-! SUPPORT. Effective addresses and displacements in integers (30_encoding.md R87 to R92): what each term of an
address stands for modulo 2^64, the address modulo `2^A`, and which displacement follows. -/

namespace Sys2Proof

/-- The two modes with rules are told apart by one test (R3). -/
theorem Mode.eq_m32 {m : Mode} (hother : m ≠ .other) (h64 : m ≠ .m64) : m = .m32 := by
  cases m with
  | m32 => rfl
  | m64 => exact absurd rfl h64
  | other => exact absurd rfl hother

end Sys2Proof

namespace Sys2Proof.Machine

/-! ## Addresses as integers (R90 to R92) -/

/-- The displacement as the integer R90 and R91 name, `disp8` scaled by `n`. -/
def dispInt (n : Nat) : Disp → Int
  | .none => 0
  | .d8 v => v.toInt * n
  | .d32 v => v.toInt

theorem dispValue_eq_ofInt (n : Nat) (d : Disp) : dispValue n d = BitVec.ofInt 64 (dispInt n d) := by
  cases d with
  | none => rfl
  | d8 v => rw [dispInt, BitVec.ofInt_mul, BitVec.ofInt_natCast]; rfl
  | d32 v => rfl

/-- `a` is the integer `z` as far as 64 bits hold it. -/
def Represents (a : Addr) (z : Int) : Prop := (a.toNat : Int) ≡ z [ZMOD 2 ^ 64]

theorem represents_ofInt (z : Int) : Represents (BitVec.ofInt 64 z) z := by
  rw [Represents, BitVec.toNat_ofInt, Int.toNat_of_nonneg (by omega)]
  exact Int.mod_modEq _ _

theorem represents_ofNat (k : Nat) : Represents (BitVec.ofNat 64 k) k := by
  rw [← BitVec.ofInt_natCast]
  exact represents_ofInt k

theorem represents_toNat (a : Addr) : Represents a a.toNat := Int.ModEq.refl _

theorem Represents.add {a b : Addr} {y z : Int} (ha : Represents a y) (hb : Represents b z) :
    Represents (a + b) (y + z) := by
  unfold Represents at *
  rw [BitVec.toNat_add]
  push_cast
  exact (Int.mod_modEq _ _).trans (ha.add hb)

theorem Represents.shiftLeft {a : Addr} {z : Int} (ha : Represents a z) (k : Nat) :
    Represents (a <<< k) (z * 2 ^ k) := by
  unfold Represents at *
  rw [BitVec.toNat_shiftLeft, Nat.shiftLeft_eq]
  push_cast
  exact (Int.mod_modEq _ _).trans (ha.mul_right _)

theorem toNat_wrapAddr (m : Mode) (a : Addr) : (wrapAddr m a).toNat = a.toNat % addrSpace m := by
  cases m with
  | m32 => simp [wrapAddr, addrSpace]; omega
  | m64 | other => exact (Nat.mod_eq_of_lt a.isLt).symm

theorem Represents.toNat_wrapAddr {a : Addr} {z : Int} (ha : Represents a z) (m : Mode) :
    ((wrapAddr m a).toNat : Int) = z % addrSpace m := by
  have hdvd : (addrSpace m : Int) ∣ 2 ^ 64 := by cases m <;> decide
  rw [Machine.toNat_wrapAddr, Int.natCast_mod]
  exact ha.of_dvd hdvd

theorem represents_dispValue (n : Nat) (d : Disp) : Represents (dispValue n d) (dispInt n d) := by
  rw [dispValue_eq_ofInt]
  exact represents_ofInt _

/-! ## The terms of an effective address (R87 to R89) -/

/-- The base of a SIB address (R88). -/
theorem represents_sibBase (s : State) (b : Bool) (mod : BitVec 2) (sb : Sib) :
    Represents (sibBase s b mod sb)
      (if sb.base = 5 ∧ mod = 0 then 0 else (s.readX (gprNum b sb.base)).toNat) := by
  simp only [sibBase, Bool.and_eq_true, beq_iff_eq]
  split_ifs
  · exact represents_ofInt 0
  · exact represents_toNat _

/-- `e*8 + n` (R87, R88). -/
theorem toNat_gprNum (e : Bool) (n : BitVec 3) : (gprNum e n).toNat = e.toNat * 8 + n.toNat := by
  rw [gprNum, BitVec.toNat_append, ← Nat.shiftLeft_add_eq_or_of_lt n.isLt, Nat.shiftLeft_eq,
    BitVec.toNat_ofBool]

/-- The scaled index of a SIB address (R88). -/
theorem represents_sibIndex (s : State) (x : Bool) (sb : Sib) :
    Represents (sibIndex s x sb)
      (if x.toNat * 8 + sb.index.toNat = 4 then 0
        else (s.readX (gprNum x sb.index)).toNat * 2 ^ sb.scale.toNat) := by
  have hnum : gprNum x sb.index = 4 ↔ x.toNat * 8 + sb.index.toNat = 4 := by
    rw [← BitVec.toNat_inj, toNat_gprNum]; rfl
  simp only [sibIndex, beq_iff_eq, hnum]
  split_ifs
  · exact represents_ofInt 0
  · exact (represents_toNat _).shiftLeft _

/-- The effective address without a SIB byte, in integers (R87, R89): the displacement is added to the
instruction's end, to nothing or to the base register. -/
theorem effAddr_plain {s : State} (hmode : s.mode ≠ .other) {t : Tail} (hsib : t.sib = none)
    (x b : Bool) (len n : Nat) :
    ((effAddr s x b t len n).toNat : Int) =
      ((if t.modrm.mod = 0 ∧ t.modrm.rm = 5 then
          (if s.mode = .m64 then ((s.pc.toNat + len : Nat) : Int) else 0)
        else (s.readX (gprNum b t.modrm.rm)).toNat) + dispInt n t.disp) % (addrSpace s.mode : Int) := by
  have hdisp := represents_dispValue n t.disp
  simp only [effAddr, hsib, Bool.and_eq_true, beq_iff_eq]
  refine Represents.toNat_wrapAddr ?_ s.mode
  split_ifs with hrip hm
  · rw [hm, Nat.cast_add]
    exact ((represents_toNat _).add (represents_ofNat len)).add hdisp
  · rw [Mode.eq_m32 hmode hm, zero_add]
    exact hdisp
  · exact (represents_toNat _).add hdisp

/-- The effective address with a SIB byte, in integers (R88). -/
theorem effAddr_sib (s : State) {t : Tail} {sb : Sib} (hsib : t.sib = some sb) (x b : Bool)
    (len n : Nat) :
    ((effAddr s x b t len n).toNat : Int) =
      ((if sb.base = 5 ∧ t.modrm.mod = 0 then (0 : Int) else (s.readX (gprNum b sb.base)).toNat) +
        (if x.toNat * 8 + sb.index.toNat = 4 then (0 : Int)
          else (s.readX (gprNum x sb.index)).toNat * 2 ^ sb.scale.toNat) +
        dispInt n t.disp) % (addrSpace s.mode : Int) := by
  simp only [effAddr, hsib]
  exact (((represents_sibBase s b t.modrm.mod sb).add (represents_sibIndex s x sb)).add
    (represents_dispValue n t.disp)).toNat_wrapAddr s.mode

end Sys2Proof.Machine

namespace Sys2Proof

open Machine

/-! ## Which displacement follows (R87, R88) -/

theorem dispSize_eq_one_iff (m : ModRM) (sib : Option Sib) : dispSize m sib = 1 ↔ m.mod = 1 := by
  cases sib <;> (simp only [dispSize]; grind)

theorem dispSize_sib_eq_four_iff (m : ModRM) (sb : Sib) :
    dispSize m (some sb) = 4 ↔ m.mod = 2 ∨ (m.mod = 0 ∧ sb.base = 5) := by
  simp only [dispSize]
  grind

theorem dispSize_plain_eq_four_iff (m : ModRM) :
    dispSize m none = 4 ↔ m.mod = 2 ∨ (m.mod = 0 ∧ m.rm = 5) := by
  simp only [dispSize]
  grind

theorem ModRM.hasSib_iff (m : ModRM) : m.hasSib = true ↔ m.mod ≠ 3 ∧ m.rm = 4 := by
  simp [ModRM.hasSib]

/-- Settles O11: the address by `effAddr_sib`, the displacement by what `Tail.wf` asks. -/
theorem sibEffectiveAddress : Obligations.SibEffectiveAddress := by
  intro s x b t sb len n _ hsib
  refine ⟨fun hwf => ?displacement, ?address⟩
  case displacement =>
    obtain ⟨-, hsize⟩ := t.wf_iff.mp hwf
    rw [hsize, hsib]
    exact ⟨dispSize_sib_eq_four_iff t.modrm sb, dispSize_eq_one_iff t.modrm _⟩
  case address =>
    rw [effAddr_sib s hsib]
    rfl

/-- Settles O12: the address by `effAddr_plain`, the displacement by what `Tail.wf` asks; `rm` = 100 would
ask for a SIB byte. -/
theorem plainEffectiveAddress : Obligations.PlainEffectiveAddress := by
  intro s x b t len n hmode hsib
  refine ⟨fun hwf hmem => ?displacement, ?address⟩
  case displacement =>
    obtain ⟨hisSome, hsize⟩ := t.wf_iff.mp hwf
    rw [hsize, hsib]
    refine ⟨fun hrm => ?_, dispSize_plain_eq_four_iff t.modrm, dispSize_eq_one_iff t.modrm _⟩
    rw [hsib, t.modrm.hasSib_iff.mpr ⟨hmem, hrm⟩] at hisSome
    cases hisSome
  case address =>
    rw [effAddr_plain hmode hsib]
    rfl

/-- Settles O10: a displacement is the integer `dispInt`, scaled as R91's table says form by form. -/
theorem compressedDisplacement : Obligations.CompressedDisplacement := by
  refine ⟨fun f bcst v => ?_, fun _ _ v => dispValue_eq_ofInt _ (.d32 v)⟩
  rw [dispValue_eq_ofInt]
  cases f with
  | f1 | f2 | f3 => rfl
  | f4 | f5 | f6 => cases bcst <;> rfl

end Sys2Proof
end

section
/-! SUPPORT. The subtraction of one lane up to rounding (40_binary64_subtract.md R111 to R120): the fields of a
packed value, the classes of operands, what DAZ leaves of them, and the answers of `LaneSub` by class. -/

namespace Sys2Proof.Machine

/-! ## The fields of a packed value (R111) -/

@[simp] theorem signBit_packLane (s : Bool) (e f : Nat) : signBit (packLane s e f) = s := by
  simp only [signBit, packLane, BitVec.getLsbD_append]
  cases s <;> rfl

@[simp] theorem expField_packLane (s : Bool) (e f : Nat) :
    expField (packLane s e f) = e % 2 ^ 11 := by
  rw [expField, packLane, BitVec.extractLsb'_append_eq_of_le (by decide),
    BitVec.extractLsb'_append_eq_right, BitVec.toNat_ofNat]

@[simp] theorem fracField_packLane (s : Bool) (e f : Nat) :
    fracField (packLane s e f) = f % 2 ^ 52 := by
  rw [fracField, packLane, BitVec.extractLsb'_append_eq_right, BitVec.toNat_ofNat]

/-- The zero of a sign as a word. -/
theorem zeroOf_eq (s : Bool) : zeroOf s = if s then 0x8000000000000000#64 else 0 := by
  cases s <;> rfl

/-! ## Classes of operands (R112) -/

theorem isDenormal_iff (v : Lane) : isDenormal v = true ↔ expField v = 0 ∧ fracField v ≠ 0 := by
  simp [isDenormal]

/-- A finite value is neither a NaN nor an infinity. -/
theorem not_special_of_isFinite {v : Lane} (h : isFinite v = true) :
    isNaN v = false ∧ isInf v = false := by
  have he : expField v ≠ 2047 := by simpa [isFinite] using h
  simp [isNaN, isInf, he]

theorem isFinite_of_isDenormal {v : Lane} (h : isDenormal v = true) : isFinite v = true := by
  simp [isFinite, ((isDenormal_iff v).mp h).1]

theorem isFinite_zeroOf (s : Bool) : isFinite (zeroOf s) = true := by cases s <;> rfl

theorem not_isDenormal_zeroOf (s : Bool) : isDenormal (zeroOf s) = false := by cases s <;> rfl

theorem not_isNaN_of_isInf {v : Lane} (h : isInf v = true) : isNaN v = false := by
  have hf : fracField v = 0 := by simp_all [isInf]
  simp [isNaN, hf]

theorem isNaN_of_isQNaN {v : Lane} (h : isQNaN v = true) : isNaN v = true :=
  (Bool.and_eq_true_iff.mp h).1

theorem not_isSNaN_of_isQNaN {v : Lane} (h : isQNaN v = true) : isSNaN v = false := by
  simp [isSNaN, (Bool.and_eq_true_iff.mp h).2]

theorem not_isSNaN_of_not_isNaN {v : Lane} (h : isNaN v = false) : isSNaN v = false := by
  simp [isSNaN, h]

theorem not_isQNaN_of_not_isNaN {v : Lane} (h : isNaN v = false) : isQNaN v = false := by
  simp [isQNaN, h]

/-! ## Operands under DAZ (R117) -/

/-- DAZ either leaves an operand as it is, or makes a denormal the zero of its sign. -/
theorem dazOperand_cases (daz : Bool) (v : Lane) :
    dazOperand daz v = v ∨ isDenormal v = true ∧ dazOperand daz v = zeroOf (signBit v) := by
  unfold dazOperand
  split_ifs with h
  · exact .inr ⟨(Bool.and_eq_true_iff.mp h).2, rfl⟩
  · exact .inl rfl

@[simp] theorem dazOperand_of_not_isDenormal {v : Lane} (daz : Bool) (h : isDenormal v = false) :
    dazOperand daz v = v := by
  simp [dazOperand, h]

/-- Under DAZ no operand of the subtraction is a denormal. -/
@[simp] theorem not_isDenormal_dazOperand (v : Lane) : isDenormal (dazOperand true v) = false := by
  cases h : isDenormal v
  · rw [dazOperand_of_not_isDenormal true h, h]
  · simp [dazOperand, h, not_isDenormal_zeroOf]

@[simp] theorem signBit_dazOperand (daz : Bool) (v : Lane) :
    signBit (dazOperand daz v) = signBit v := by
  rcases dazOperand_cases daz v with h | ⟨_, h⟩ <;> simp [h, zeroOf]

/-- DAZ does not change whether an operand is a NaN or an infinity. -/
theorem special_dazOperand (daz : Bool) (v : Lane) :
    isNaN (dazOperand daz v) = isNaN v ∧ isInf (dazOperand daz v) = isInf v := by
  rcases dazOperand_cases daz v with h | ⟨hv, h⟩
  · simp [h]
  · simp [h, not_special_of_isFinite (isFinite_of_isDenormal hv),
      not_special_of_isFinite (isFinite_zeroOf _)]

@[simp] theorem isNaN_dazOperand (daz : Bool) (v : Lane) : isNaN (dazOperand daz v) = isNaN v :=
  (special_dazOperand daz v).1

@[simp] theorem isInf_dazOperand (daz : Bool) (v : Lane) : isInf (dazOperand daz v) = isInf v :=
  (special_dazOperand daz v).2

/-- DAZ leaves an infinity as it is. -/
theorem dazOperand_of_isInf {v : Lane} (daz : Bool) (h : isInf v = true) : dazOperand daz v = v := by
  refine dazOperand_of_not_isDenormal daz (Bool.eq_false_iff.mpr fun hd => ?_)
  rw [(not_special_of_isFinite (isFinite_of_isDenormal hd)).2] at h
  cases h

/-! ## `LaneSub` by the class of its operands (R114 to R120) -/

/-- R114: a signaling NaN operand. -/
theorem laneSub_of_isSNaN (env : FpEnv) {a b : Lane} (h : isSNaN a = true ∨ isSNaN b = true) :
    laneSub env a b =
      { r := if isNaN a then quiet a else quiet b, pre := flagIE, post := 0, tiny := false } :=
  if_pos (Bool.or_eq_true_iff.mpr h)

/-- R115: a quiet minuend, and no signaling subtrahend. -/
theorem laneSub_of_isQNaN_left (env : FpEnv) {a b : Lane} (ha : isQNaN a = true)
    (hb : isSNaN b = false) : laneSub env a b = { r := a, pre := 0, post := 0, tiny := false } := by
  simp [laneSub, not_isSNaN_of_isQNaN ha, ha, hb]

/-- R115: a quiet subtrahend, and a minuend that is no NaN. -/
theorem laneSub_of_isQNaN_right (env : FpEnv) {a b : Lane} (ha : isNaN a = false)
    (hb : isQNaN b = true) : laneSub env a b = { r := b, pre := 0, post := 0, tiny := false } := by
  simp [laneSub, not_isSNaN_of_not_isNaN ha, not_isQNaN_of_not_isNaN ha, not_isSNaN_of_isQNaN hb, hb]

/-- R116: infinity minus infinity. -/
theorem laneSub_of_like_infinities (env : FpEnv) {a b : Lane} (ha : isInf a = true)
    (hb : isInf b = true) (hs : signBit a = signBit b) :
    laneSub env a b = { r := indefinite, pre := flagIE, post := 0, tiny := false } := by
  have hna := not_isNaN_of_isInf ha
  have hnb := not_isNaN_of_isInf hb
  simp [laneSub, not_isSNaN_of_not_isNaN, not_isQNaN_of_not_isNaN, hna, hnb, ha, hb, hs]

/-- The denormal exception of R117: with DAZ off, for a denormal operand. -/
def denormalPre (daz : Bool) (a b : Lane) : BitVec 6 :=
  if daz = false ∧ (isDenormal a = true ∨ isDenormal b = true) then flagDE else 0

/-- No NaN operand, nor infinity minus infinity: the operands pass steps 1 to 3 (R114 to R116). -/
def BothNumbers (a b : Lane) : Prop :=
  isNaN a = false ∧ isNaN b = false ∧ ¬(isInf a = true ∧ isInf b = true ∧ signBit a = signBit b)

theorem BothNumbers.of_isFinite {a b : Lane} (ha : isFinite a = true) (hb : isFinite b = true) :
    BothNumbers a b := by
  obtain ⟨hna, hia⟩ := not_special_of_isFinite ha
  exact ⟨hna, (not_special_of_isFinite hb).1, by simp [hia]⟩

theorem BothNumbers.dazOperand {a b : Lane} (h : BothNumbers a b) (daz : Bool) :
    BothNumbers (dazOperand daz a) (dazOperand daz b) := by
  simpa [BothNumbers] using h

/-- R117: the operands that pass steps 1 to 3 are subtracted after DAZ. -/
theorem laneSub_of_bothNumbers (env : FpEnv) {a b : Lane} (h : BothNumbers a b) :
    laneSub env a b = subtractNumbers env (denormalPre env.daz a b)
      (dazOperand env.daz a) (dazOperand env.daz b) := by
  obtain ⟨ha, hb, hinf⟩ := h
  have hinf' : (isInf a && isInf b && signBit a == signBit b) = false := by
    simpa [Bool.and_assoc] using hinf
  simp [laneSub, not_isSNaN_of_not_isNaN, not_isQNaN_of_not_isNaN, ha, hb, hinf', denormalPre]

/-- Step 7 looks at the signs only, which DAZ keeps. -/
theorem exactZero_dazOperand (rc : RoundMode) (daz : Bool) (a b : Lane) :
    exactZero rc (dazOperand daz a) (dazOperand daz b) = exactZero rc a b := by
  simp [exactZero]

/-- R119: finite operands are subtracted exactly, and a nonzero difference is rounded. -/
theorem laneSub_of_isFinite (env : FpEnv) {a b : Lane} (ha : isFinite a = true)
    (hb : isFinite b = true) :
    laneSub env a b =
      if exactDifference env.daz a b = 0 then
        { r := exactZero env.rc a b, pre := denormalPre env.daz a b, post := 0, tiny := false }
      else roundDifference env (denormalPre env.daz a b) (exactDifference env.daz a b) := by
  rw [laneSub_of_bothNumbers env (.of_isFinite ha hb), subtractNumbers]
  simp only [isInf_dazOperand, (not_special_of_isFinite ha).2, (not_special_of_isFinite hb).2,
    Bool.false_eq_true, if_false, exactZero_dazOperand, beq_iff_eq]
  rfl

end Sys2Proof.Machine

namespace Sys2Proof

open Machine

/-- Settles O47: the steps R114 to R116 exclude each other. -/
theorem laneSubSpecialOperands : Obligations.LaneSubSpecialOperands := by
  intro env a b
  exact ⟨laneSub_of_isSNaN env, fun hb ha => laneSub_of_isQNaN_left env ha hb,
    laneSub_of_isQNaN_right env, laneSub_of_like_infinities env⟩

/-- Settles O58: DAZ applied twice is DAZ applied once and keeps infinities, so both sides of the first clause
are the same subtraction; the answers for an infinity are those of R118. -/
theorem denormalAndInfiniteOperands : Obligations.DenormalAndInfiniteOperands := by
  intro env a b ha hb hinf
  have hnum : BothNumbers a b := ⟨ha, hb, hinf⟩
  rw [laneSub_of_bothNumbers env hnum]
  refine ⟨fun hdaz => ?daz, subtractNumbers_pre .., fun hia => ?minuend, fun hia hib => ?subtrahend⟩
  case daz =>
    have zeroed (v : Lane) : (if isDenormal v = true then
        (if signBit v then 0x8000000000000000#64 else 0) else v) = dazOperand true v := by
      simp [dazOperand, zeroOf_eq]
    rw [zeroed, zeroed, laneSub_of_bothNumbers env (hnum.dazOperand true), hdaz]
    simp [denormalPre]
  case minuend => simp [subtractNumbers, hia, dazOperand_of_isInf]
  case subtrahend => simp [subtractNumbers, hia, hib, dazOperand_of_isInf]

/-- Settles O59: a zero difference stops at step 7, which decides by the signs. -/
theorem exactZeroDifference : Obligations.ExactZeroDifference := by
  intro env a b ha hb hzero
  rw [laneSub_of_isFinite env ha hb, if_pos hzero]
  refine ⟨rfl, rfl, ?_⟩
  by_cases hs : signBit a = signBit b
  · simp [exactZero, hs, zeroOf_eq]
  · have opposite : signBit a = !signBit b := Bool.eq_not.mpr hs
    simp [exactZero, opposite, zeroOf_eq]

end Sys2Proof
end

section
/-! SUPPORT. The rounding of a nonzero exact difference (40_binary64_subtract.md R121 to R125): the exponent a
magnitude has once rounded, the bound from which it overflows, and the three answers of step 9 to step 11. -/

namespace Sys2Proof.Machine

/-! ## The rounded exponent (R121) -/

/-- Nothing cut off, nothing added. -/
theorem roundsUp_zero (rc : RoundMode) (neg : Bool) (m0 : Nat) {unit : Nat} (h : 0 < unit) :
    roundsUp rc neg m0 0 unit = false := by
  cases rc <;> simp [roundsUp, h.ne]

/-- The exponent is that of the leading bit, or one more. -/
theorem roundExact_e_bounds (rc : RoundMode) (neg : Bool) (n : Nat) :
    (n.log2 : Int) - 51 ≤ (roundExact rc neg n).e ∧ (roundExact rc neg n).e ≤ n.log2 - 50 := by
  unfold roundExact
  dsimp only
  split_ifs <;> dsimp only <;> omega

/-- Below `2^52` a magnitude has at most 52 significant bits, and is not rounded. -/
theorem roundExact_e_of_lt {rc : RoundMode} {neg : Bool} {n : Nat} (h : n.log2 < 52) :
    (roundExact rc neg n).e = n.log2 - 51 := by
  have hm : n * 2 ^ (52 - n.log2) < 2 ^ 53 := by
    calc n * 2 ^ (52 - n.log2) < 2 ^ (n.log2 + 1) * 2 ^ (52 - n.log2) :=
          Nat.mul_lt_mul_of_pos_right Nat.lt_log2_self (by positivity)
      _ = 2 ^ 53 := by rw [← pow_add]; congr 1; omega
  simp only [roundExact, h.not_ge, if_false, pow_pos, Nat.ofNat_pos, roundsUp_zero,
    Bool.false_eq_true, beq_iff_eq, hm.ne]

/-- The truncated significand has no more than 53 bits. -/
theorem truncated_lt {n : Nat} (h : 52 ≤ n.log2) : n / 2 ^ (n.log2 - 52) < 2 ^ 53 := by
  refine Nat.div_lt_of_lt_mul (Nat.lt_log2_self.trans_eq ?_)
  rw [← pow_add]
  congr 1
  omega

/-- From `2^52` on the truncated significand has 53 bits, and the exponent grows exactly when the last one of
them is incremented. -/
theorem roundExact_carries_iff (rc : RoundMode) (neg : Bool) {n : Nat} (h : 52 ≤ n.log2) :
    (n.log2 : Int) - 50 ≤ (roundExact rc neg n).e ↔
      n / 2 ^ (n.log2 - 52) = 2 ^ 53 - 1 ∧
        roundsUp rc neg (2 ^ 53 - 1) (n % 2 ^ (n.log2 - 52)) (2 ^ (n.log2 - 52)) = true := by
  have hlt := truncated_lt h
  simp only [roundExact, h, if_true, beq_iff_eq]
  by_cases hm : n / 2 ^ (n.log2 - 52) = 2 ^ 53 - 1
  · rw [hm]
    cases roundsUp rc neg (2 ^ 53 - 1) (n % 2 ^ (n.log2 - 52)) (2 ^ (n.log2 - 52)) with
    | true => simp
    | false =>
      simp only [Bool.false_eq_true, if_false, and_false, iff_false]
      split_ifs <;> dsimp only <;> omega
  · simp only [hm, false_and, iff_false]
    split_ifs <;> dsimp only <;> omega

/-- A result is tiny when its magnitude is below that of the smallest normal number (R123). -/
theorem roundExact_e_nonpos_iff (rc : RoundMode) (neg : Bool) {n : Nat} (hn : n ≠ 0) :
    (roundExact rc neg n).e ≤ 0 ↔ n < 2 ^ 52 := by
  rw [← Nat.log2_lt hn]
  rcases lt_or_ge n.log2 52 with h | h
  · rw [roundExact_e_of_lt h]
    omega
  · have := (roundExact_e_bounds rc neg n).1
    omega

/-- The least magnitude that once rounded is no less than `2^(k+54)`. Just below that power the last place of a
53-bit significand weighs `2^(k+1)`, and its half is `2^k` (R121); at `k = 2044` these are the thresholds of
R122 (`le_roundExact_e_iff`). -/
def roundBound (rc : RoundMode) (neg : Bool) (k : Nat) : Nat :=
  match rc, neg with
  | .rn, _ => 2 ^ (k + 54) - 2 ^ k
  | .rd, true => (2 ^ 53 - 1) * 2 ^ (k + 1) + 1
  | .ru, false => (2 ^ 53 - 1) * 2 ^ (k + 1) + 1
  | .rd, false => 2 ^ (k + 54)
  | .ru, true => 2 ^ (k + 54)
  | .rz, _ => 2 ^ (k + 54)

/-- The powers of two around the bound as multiples of `2^k`, for linear arithmetic. -/
theorem pow_around_bound (k : Nat) : 0 < 2 ^ k ∧ 2 ^ (k + 1) = 2 * 2 ^ k ∧
    2 ^ (k + 53) = 2 ^ 53 * 2 ^ k ∧ 2 ^ (k + 54) = 2 ^ 54 * 2 ^ k :=
  ⟨by positivity, pow_succ' 2 k, by rw [pow_add, mul_comm], by rw [pow_add, mul_comm]⟩

theorem roundBound_bounds (rc : RoundMode) (neg : Bool) (k : Nat) :
    (2 ^ 53 - 1) * 2 ^ (k + 1) < roundBound rc neg k ∧ roundBound rc neg k ≤ 2 ^ (k + 54) := by
  obtain ⟨hpos, h1, _, h54⟩ := pow_around_bound k
  cases rc <;> cases neg <;> simp only [roundBound, h1, h54] <;> omega

/-- The last significand before the carry is incremented exactly from the bound on. -/
theorem roundsUp_last_iff (rc : RoundMode) (neg : Bool) {k r : Nat} (hr : r < 2 ^ (k + 1)) :
    roundsUp rc neg (2 ^ 53 - 1) r (2 ^ (k + 1)) = true ↔
      roundBound rc neg k ≤ (2 ^ 53 - 1) * 2 ^ (k + 1) + r := by
  obtain ⟨hpos, h1, _, h54⟩ := pow_around_bound k
  cases rc <;> cases neg <;> simp [roundsUp, roundBound, h1, h54] <;> omega

/-- R122: the rounded magnitude reaches `2^(k+54)` exactly from the bound on. -/
theorem le_roundExact_e_iff (rc : RoundMode) (neg : Bool) {n : Nat} (hn : n ≠ 0) (k : Nat) :
    (k + 3 : Int) ≤ (roundExact rc neg n).e ↔ roundBound rc neg k ≤ n := by
  obtain ⟨hpos, h1, h53, h54⟩ := pow_around_bound k
  obtain ⟨hlow, hhigh⟩ := roundBound_bounds rc neg k
  obtain ⟨helow, hehigh⟩ := roundExact_e_bounds rc neg n
  rcases lt_trichotomy n.log2 (k + 53) with hl | hl | hl
  · have hlt : n < 2 ^ (k + 53) := (Nat.log2_lt hn).mp hl
    constructor <;> intro <;> omega
  · have hge : 52 ≤ n.log2 := by omega
    have hunit : n.log2 - 52 = k + 1 := by omega
    have hrem : n % 2 ^ (k + 1) < 2 ^ (k + 1) := Nat.mod_lt _ (by positivity)
    have hsplit : 2 ^ (k + 1) * (n / 2 ^ (k + 1)) + n % 2 ^ (k + 1) = n := Nat.div_add_mod n _
    have hcarry := roundExact_carries_iff rc neg hge
    rw [hunit, roundsUp_last_iff rc neg hrem] at hcarry
    rw [show (k + 3 : Int) = n.log2 - 50 by omega, hcarry]
    by_cases hm : n / 2 ^ (k + 1) = 2 ^ 53 - 1
    · rw [hm, mul_comm] at hsplit
      simp only [hm, hsplit, true_and]
    · have hlt := truncated_lt hge
      rw [hunit] at hlt
      have hbelow : n < (2 ^ 53 - 1) * 2 ^ (k + 1) :=
        (Nat.div_lt_iff_lt_mul (by positivity)).mp (by omega)
      simp only [hm, false_and, false_iff]
      omega
  · have hle : 2 ^ (k + 54) ≤ n := (Nat.le_log2 hn).mp hl
    constructor <;> intro <;> omega

/-! ## The rounded difference (R122 to R125) -/

/-- R122: from the bound on a difference overflows. -/
theorem roundDifference_of_overflow (env : FpEnv) (pre : BitVec 6) {d : Int} (hd : d ≠ 0)
    (h : roundBound env.rc (decide (d < 0)) 2044 ≤ d.natAbs) :
    roundDifference env pre d =
      { r := overflowResult env.rc (decide (d < 0)), pre := pre, post := flagOE ||| flagPE,
        tiny := false } :=
  if_pos ((le_roundExact_e_iff _ _ (Int.natAbs_ne_zero.mpr hd) 2044).mpr h)

/-- R122: below the bound it does not. -/
theorem roundDifference_post_oe (env : FpEnv) (pre : BitVec 6) {d : Int} (hd : d ≠ 0)
    (h : d.natAbs < roundBound env.rc (decide (d < 0)) 2044) :
    (roundDifference env pre d).post &&& flagOE = 0 := by
  have he : ¬2047 ≤ (roundExact env.rc (decide (d < 0)) d.natAbs).e :=
    mt (le_roundExact_e_iff _ _ (Int.natAbs_ne_zero.mpr hd) 2044).mp h.not_ge
  simp only [roundDifference, he, if_false]
  split_ifs <;> dsimp only <;> decide

/-- R123, R124: below the smallest normal number the answer is the difference itself, or flushed. -/
theorem roundDifference_of_tiny (env : FpEnv) (pre : BitVec 6) {d : Int} (hd : d ≠ 0)
    (h : d.natAbs < 2 ^ 52) :
    roundDifference env pre d =
      if env.ftz && env.um then
        { r := zeroOf (decide (d < 0)), pre := pre, post := flagUE ||| flagPE, tiny := true }
      else { r := packLane (decide (d < 0)) 0 d.natAbs, pre := pre, post := 0, tiny := true } := by
  have he := (roundExact_e_nonpos_iff env.rc (decide (d < 0)) (Int.natAbs_ne_zero.mpr hd)).mpr h
  have hnot : ¬2047 ≤ (roundExact env.rc (decide (d < 0)) d.natAbs).e := by omega
  simp only [roundDifference, he, hnot, if_true, if_false]

/-- R123: from there on no answer is tiny, nor signals underflow. -/
theorem roundDifference_of_not_tiny (env : FpEnv) (pre : BitVec 6) {d : Int}
    (h : 2 ^ 52 ≤ d.natAbs) :
    (roundDifference env pre d).tiny = false ∧ (roundDifference env pre d).post &&& flagUE = 0 := by
  have he := mt (roundExact_e_nonpos_iff env.rc (decide (d < 0)) (by omega)).mp h.not_gt
  simp only [roundDifference, he, if_false]
  split_ifs <;> dsimp only <;> decide

/-- A difference below the smallest normal number, packed with exponent 0, is the denormal of that value
(R112, R123). -/
theorem packLane_of_tiny {d : Int} (hd : d ≠ 0) (h : d.natAbs < 2 ^ 52) :
    scaledValue (packLane (decide (d < 0)) 0 d.natAbs) = d ∧
      isDenormal (packLane (decide (d < 0)) 0 d.natAbs) = true := by
  have hf : fracField (packLane (decide (d < 0)) 0 d.natAbs) = d.natAbs := by
    rw [fracField_packLane, Nat.mod_eq_of_lt h]
  constructor
  · simp only [scaledValue, magnitude, signBit_packLane, expField_packLane, hf, Nat.zero_mod,
      beq_self_eq_true, if_true, decide_eq_true_eq]
    split_ifs <;> omega
  · simp [isDenormal_iff, hf, hd]

end Sys2Proof.Machine

namespace Sys2Proof

open Machine

/-- Settles O56: the thresholds are `roundBound` at `k = 2044`, from which the rounded exponent is no less than
2047; a zero difference is below each of them. -/
theorem overflowResults : Obligations.OverflowResults := by
  intro env a b ha hb d tooBig
  have hbig : tooBig ↔ roundBound env.rc (decide (d < 0)) 2044 ≤ d.natAbs := by
    unfold tooBig
    cases env.rc <;> cases decide (d < 0) <;>
      simp only [roundBound, Nat.reduceAdd, Nat.add_one_le_iff]
  rw [hbig, laneSub_of_isFinite env ha hb]
  by_cases hd : d = 0
  · rw [if_pos hd]
    have hpos := (roundBound_bounds env.rc (decide (d < 0)) 2044).1
    have hsmall : d.natAbs < roundBound env.rc (decide (d < 0)) 2044 := by
      rw [Int.natAbs_eq_zero.mpr hd]
      omega
    exact ⟨fun _ => BitVec.zero_and, fun h => absurd h hsmall.not_ge⟩
  · rw [if_neg hd]
    refine ⟨fun h => roundDifference_post_oe env _ hd (not_le.mp h), fun h => ?_⟩
    rw [roundDifference_of_overflow env _ hd h]
    refine ⟨rfl, rfl, ?_⟩
    cases env.rc <;> cases decide (d < 0) <;> rfl

/-- Settles O57: zero, tiny and larger differences, the tiny ones flushed or exact. -/
theorem tinyResultsAreExactOrFlushed : Obligations.TinyResultsAreExactOrFlushed := by
  intro env a b ha hb l d
  have hl : l = _ := laneSub_of_isFinite env ha hb
  by_cases hd : d = 0
  · rw [if_pos hd] at hl
    simp [hl, hd]
  rw [if_neg hd] at hl
  by_cases h : d.natAbs < 2 ^ 52
  · obtain ⟨hvalue, hdenormal⟩ := packLane_of_tiny hd h
    rw [roundDifference_of_tiny env _ hd h] at hl
    rw [hl]
    by_cases hflush : env.ftz = true ∧ env.um = true
    · rw [if_pos (Bool.and_eq_true_iff.mpr hflush)]
      refine ⟨iff_of_true rfl ⟨hd, h⟩, fun _ => ⟨rfl, hflush⟩, fun _ => ⟨fun _ => ⟨?_, rfl⟩,
        fun hnot => absurd hflush hnot⟩⟩
      simp [zeroOf_eq]
    · rw [if_neg (mt Bool.and_eq_true_iff.mp hflush)]
      exact ⟨iff_of_true rfl ⟨hd, h⟩, fun hue => absurd BitVec.zero_and hue, fun _ =>
        ⟨fun hf => absurd hf hflush, fun _ => ⟨hvalue, hdenormal, rfl⟩⟩⟩
  · obtain ⟨htiny, hue⟩ := roundDifference_of_not_tiny env (denormalPre env.daz a b) (not_lt.mp h)
    rw [hl]
    have hnot := Bool.eq_false_iff.mp htiny
    exact ⟨iff_of_false hnot fun ⟨_, hlt⟩ => h hlt, fun hne => absurd hue hne,
      fun ht => absurd ht hnot⟩

end Sys2Proof
end

section
/-! SUPPORT. Embedded rounding (40_binary64_subtract.md R130; 43_vsubpd_evex.md R167): the lanes that the
shared procedure writes, and its completion whatever the masks are. -/

namespace Sys2Proof

open Machine

/-- A register source is read without an event (R54). -/
theorem sourceEvents_of_hasRegSource {i : Instr} (h : i.hasRegSource) (s : State) :
    i.sourceEvents s = some [] :=
  if_pos h

/-- Each lane of the destination receives the value computed for it, merged or zeroed where masked off (R161,
R163), with and without embedded rounding. -/
theorem operation_newLane_eq_destLane (i : Instr) (s : State) (src : Nat → Lane) (j : Nat) :
    (i.operation s).newLane s src j = i.destLane s ((i.operation s).laneValue s src) j := by
  have hform : ((i.operation s).form == .f1) = true ↔ i.form = .f1 := beq_iff_eq
  simp only [Operation.newLane, hform]
  rfl

/-- R130: under embedded rounding a lane's value is that of `erLaneSubOf`, or in the case left open (U7) the
exact denormal. -/
theorem operation_laneValue_er {i : Instr} {rc : RoundMode} (her : i.er = some rc) (s : State)
    (j : Nat) :
    (i.operation s).laneValue s (i.second s) j = (i.erLaneSubOf rc s j).r ∨
      (mxUm s.mxcsr = false ∧ mxFtz s.mxcsr = true ∧ (i.erLaneSubOf rc s j).tiny = true ∧
        (i.operation s).laneValue s (i.second s) j =
          (laneSub { rc := rc, daz := mxDaz s.mxcsr, ftz := true, um := false }
            (lane (s.readV i.src1Num) j) (i.second s j)).r) := by
  have hop : (i.operation s).er = some rc := her
  have henv : (i.operation s).env s =
      { rc := rc, daz := mxDaz s.mxcsr, ftz := mxFtz s.mxcsr, um := true } := by
    simp [Operation.env, hop]
  have hresult : (i.operation s).laneResult s (i.second s) j = i.erLaneSubOf rc s j := by
    rw [Operation.laneResult, henv]
    rfl
  simp only [Operation.laneValue, hresult]
  split_ifs with hopen
  · simp only [Bool.and_eq_true, Bool.not_eq_true'] at hopen
    obtain ⟨⟨⟨⟨_, hum⟩, hftz⟩, htiny⟩, _⟩ := hopen
    exact .inr ⟨hum, hftz, htiny, by rw [henv, hftz]; rfl⟩
  · exact .inl rfl

/-- Settles O31: with embedded rounding nothing traps and MXCSR is kept, so a register form that may run
completes; its lanes are those of `operation_laneValue_er`. -/
theorem embeddedRoundingResult : Obligations.EmbeddedRoundingResult := by
  intro p rc tl s hmod hrun
  set i := Instr.vsubpdZmmEvexEr p rc tl
  simp only [Instr.runnable, Instr.inSpace, Bool.and_eq_true, bne_iff_ne, decide_eq_true_eq] at hrun
  obtain ⟨⟨hmode, hspace⟩, henabled⟩ := hrun
  have hread := readSource2_of_events (sourceEvents_of_hasRegSource (i := i) hmod s)
  have hdone : fpOutcome (i.operation s) s (i.second s) = .done s.mxcsr := rfl
  refine ⟨_, (exec_eq_run i s).trans (run_complete hmode hspace
    ((enableCheck_eq_none_iff i.form s).mpr henabled) hread hdone), rfl, rfl, List.append_nil _,
    unchanged_complete (i.operation s) _ (.refl _), (i.operation s).laneValue s (i.second s),
    fun j hj => ?lanes, fun j _ => operation_laneValue_er rfl s j⟩
  case lanes =>
    exact (congrArg (lane · j) (readV_complete_dst (i.operation s) s _ _)).trans
      ((lane_newDst _ _ _ j hj).trans (operation_newLane_eq_destLane i s _ j))

end Sys2Proof
end

section
/-! SUPPORT. Form 1 against form 2 with the same operands (41_subpd_sse.md R140, R141; 42_vsubpd_vex.md R150):
the two run one operation but for its form, on which only the enables, the alignment check and the bits above
the vector length depend. -/

namespace Sys2Proof.Machine

/-! ## An operation of form 1 run as form 2 -/

/-- The same operands under form 2. -/
def Operation.toForm2 (o : Operation) : Operation := { o with form := .f2 }

@[simp] theorem toForm2_form (o : Operation) : o.toForm2.form = .f2 := rfl

/-- Both forms have two lanes, so they compute the same flags and trap alike. -/
theorem fpOutcome_toForm2 {o : Operation} (h : o.form = .f1) (s : State) (src : Nat → Lane) :
    fpOutcome o.toForm2 s src = fpOutcome o s src := by
  cases o
  cases h
  rfl

/-- Below the vector length the two forms write the same lanes. -/
theorem newLane_toForm2 {o : Operation} (h : o.form = .f1) (s : State) (src : Nat → Lane) {j : Nat}
    (hj : j < 2) : o.toForm2.newLane s src j = o.newLane s src j := by
  have hj1 : j < lanesOf o.form := h ▸ hj
  have hj2 : j < lanesOf o.toForm2.form := hj
  rw [Operation.newLane, Operation.newLane, if_pos hj1, if_pos hj2]
  rfl

/-- Above the vector length form 1 keeps the old lane and every other form writes zero (R140, R150). -/
theorem newLane_above (o : Operation) (s : State) (src : Nat → Lane) {j : Nat}
    (hj : lanesOf o.form ≤ j) :
    o.newLane s src j = if o.form = .f1 then lane (s.readV o.dst) j else 0 := by
  simp [Operation.newLane, Nat.not_lt.mpr hj]

/-- Form 2 reads as form 1 does where form 1 finds its memory operand aligned (R55). -/
theorem readSource2_toForm2 {o : Operation} (h : o.form = .f1)
    (haligned : ∀ ea, o.src2 = .full ea → ea.toNat % 16 = 0) (s : State) :
    readSource2 o.toForm2 s = readSource2 o s := by
  obtain ⟨form, dst, src1, src2, aaa, z, er, len⟩ := o
  cases h
  cases src2 with
  | reg n => rfl
  | full ea =>
    simp only [readSource2, readFull, Operation.toForm2, haligned ea rfl, bne_self_eq_false,
      Bool.and_false]
    rfl
  | bcst ea => rfl

/-- A misaligned memory operand of form 1 stops its read with #GP (R55, R187). -/
theorem readSource2_misaligned {o : Operation} {ea : Addr} (h : o.form = .f1) (hsrc : o.src2 = .full ea)
    (hea : ea.toNat % 16 ≠ 0) (s : State) : readSource2 o s = .error (.fault (raise .gp s)) := by
  simp [readSource2, hsrc, readFull, h, hea]

/-! ## Faults of the read -/

/-- A fault of the read primitive is one that `MEM_ACCESS` answers. -/
theorem memRead_fault {s : State} {a n : Nat} {f : Fault} (h : memRead s a n = .error (.fault f)) :
    ∃ x, memAccess s.sys s.access a n = some x ∧ f = raise x.exn s := by
  rcases memRead_cases s a n with ⟨_, hok⟩ | ⟨_, e, herr, hcases⟩
  · rw [hok] at h
    cases h
  · rw [herr] at h
    cases h
    rcases hcases with ⟨x, hx, hf⟩ | ⟨_, _, hf⟩ | ⟨_, _, hf⟩ <;> cases hf
    exact ⟨x, hx, rfl⟩

/-- But for the alignment of form 1, a fault of the second source's read is one that `MEM_ACCESS` answers
(R56, R186 to R189). -/
theorem readSource2_fault {o : Operation} {s : State} {f : Fault} (hform : o.form ≠ .f1)
    (h : readSource2 o s = .error (.fault f)) :
    ∃ a n x, memAccess s.sys s.access a n = some x ∧ f = raise x.exn s := by
  unfold readSource2 at h
  split at h
  case h_1 => cases h
  case h_2 ea _ =>
    simp only [readFull, beq_false_of_ne hform, Bool.false_and, Bool.false_eq_true, if_false] at h
    split at h
    · rcases readEach_cases s ((o.activeLanes s).map fun j => ea.toNat + 8 * j) 8 with
        ⟨_, hr⟩ | ⟨a, _, x, hx, hr⟩ | ⟨_, a, _, _, e, he, hr⟩ <;> rw [hr] at h <;> cases h
      · exact ⟨a, 8, x, hx, rfl⟩
      · exact ⟨a, 8, memRead_fault he⟩
    · split at h <;> cases h
      rename_i he
      exact ⟨_, _, memRead_fault he⟩
  case h_3 ea _ =>
    simp only [readBcst] at h
    split at h
    · cases h
    · split at h <;> cases h
      rename_i he
      exact ⟨_, _, memRead_fault he⟩

/-- Of the answers of `MEM_ACCESS` only #GP raises #GP. -/
theorem AccessFault.exn_eq_gp {x : AccessFault} (h : x.exn = .gp) : x = .gp := by
  cases x with
  | gp => rfl
  | _ => cases h

/-! ## The procedure -/

/-- A read that stops ends an operation that the earlier checks of R194 let pass. -/
theorem run_of_readSource2_error {o : Operation} {s : State} {e : Stop} (hmode : s.mode ≠ .other)
    (hspace : s.pc.toNat + o.len < addrSpace s.mode) (hcheck : enableCheck o.form s = none)
    (hread : readSource2 o s = .error e) : o.run s = e.outcome := by
  simp [Operation.run, hmode, Nat.not_le.mpr hspace, hcheck, hread]

/-- An enabled operation raises #GP by its read alone. -/
theorem readSource2_of_run_gp {o : Operation} {s : State} (hcheck : enableCheck o.form s = none)
    (h : o.run s = .fault (.raised .gp s)) : readSource2 o s = .error (.fault (raise .gp s)) := by
  obtain ⟨_, _, ⟨e, he, _⟩ | ⟨_, hread⟩ | ⟨_, src, m, _, _, htrap⟩⟩ := run_fault h
  · rw [hcheck] at he
    cases he
  · exact hread
  · have hgp : Exn.gp = trapExn s := (Fault.raised.inj htrap).1
    rcases trapExn_cases s with hxm | ⟨hud, _⟩
    · rw [hxm] at hgp
      cases hgp
    · rw [hud] at hgp
      cases hgp

/-- Operations that pass the same checks, read the same and compute the same flags complete together and
fault together. -/
theorem run_agree {o o' : Operation} {s : State} (hlen : o'.len = o.len)
    (hcheck : enableCheck o'.form s = enableCheck o.form s) (hread : readSource2 o' s = readSource2 o s)
    (hfp : ∀ src, fpOutcome o' s src = fpOutcome o s src) :
    ((∃ t, o.run s = .next t) ↔ ∃ t, o'.run s = .next t) ∧
      ∀ f, o.run s = .fault f ↔ o'.run s = .fault f := by
  simp only [Operation.run, hlen, hcheck, hread, hfp]
  split
  · simp
  split
  · simp
  cases enableCheck o.form s with
  | some e => simp
  | none =>
    cases readSource2 o s with
    | error e => simp
    | ok src => cases hout : fpOutcome o s src.lane <;> simp [hout]

/-- How two completions that differ by the form alone compare (R141). -/
theorem complete_toForm2 {o : Operation} (h : o.form = .f1) (s : State) (src : SourceRead)
    (m : BitVec 32) :
    (∀ j, j < 2 → lane ((o.complete s src m).readV o.dst) j =
        lane ((o.toForm2.complete s src m).readV o.dst) j) ∧
      (∀ j, 2 ≤ j → j < 8 → lane ((o.complete s src m).readV o.dst) j = lane (s.readV o.dst) j) ∧
      (∀ j, 2 ≤ j → j < 8 → lane ((o.toForm2.complete s src m).readV o.dst) j = 0) ∧
      o.complete s src m = { o.toForm2.complete s src m with vec := (o.complete s src m).vec } ∧
      ∀ n, n ≠ o.dst → (o.complete s src m).readV n = (o.toForm2.complete s src m).readV n := by
  have lanes1 {j} (hj : j < 8) : lane ((o.complete s src m).readV o.dst) j = o.newLane s src.lane j := by
    rw [readV_complete_dst, lane_newDst _ _ _ j hj]
  have lanes2 {j} (hj : j < 8) :
      lane ((o.toForm2.complete s src m).readV o.dst) j = o.toForm2.newLane s src.lane j :=
    (congrArg (lane · j) (readV_complete_dst o.toForm2 s src m)).trans (lane_newDst _ _ _ j hj)
  refine ⟨fun j hj => ?low, fun j hj hj8 => ?kept, fun j hj hj8 => ?zeroed, rfl, fun n hn => ?others⟩
  case low => rw [lanes1 (by omega), lanes2 (by omega), newLane_toForm2 h s src.lane hj]
  case kept => rw [lanes1 hj8, newLane_above _ _ _ (h ▸ hj), if_pos h]
  case zeroed =>
    rw [lanes2 hj8, newLane_above _ _ _ hj]
    simp
  case others => rw [readV_complete_other o s src m hn, readV_complete_other o.toForm2 s src m hn]

end Sys2Proof.Machine

namespace Sys2Proof

open Machine

/-! ## The pairs of R141 -/

/-- The number that `vvvv` must hold to name the register of `R` and `ModRM:reg` (R73, R76). -/
theorem vvvvNum_ofBool_append (r : Bool) (n : BitVec 3) : vvvvNum (BitVec.ofBool r ++ n) = regNum r n := by
  revert r n
  decide

/-- Without extension bits the two encodings have the same operands and length. -/
theorem operation_vsubpdXmmVex2_eq (tl : Tail) (s : State) :
    (Instr.vsubpdXmmVex2 { r := false, vvvv := (0 : BitVec 1) ++ tl.modrm.reg } tl).operation s =
      ((Instr.subpd tl).operation s).toForm2 :=
  congrArg (fun n => { ((Instr.subpd tl).operation s).toForm2 with src1 := n })
    (vvvvNum_ofBool_append false tl.modrm.reg)

/-- With the same extension bits they have, too; `W` is ignored (R73, R76). -/
theorem operation_vsubpdXmmVex3_eq (p : Rex) (w : Bool) (tl : Tail) (s : State) :
    (Instr.vsubpdXmmVex3 ⟨p.r, p.x, p.b, w, BitVec.ofBool p.r ++ tl.modrm.reg⟩ tl).operation s =
      ((Instr.subpdRex p tl).operation s).toForm2 :=
  congrArg (fun n => { ((Instr.subpdRex p tl).operation s).toForm2 with src1 := n })
    (vvvvNum_ofBool_append p.r tl.modrm.reg)

/-- Form 1 has no broadcast. -/
theorem isBcst_eq_false_of_form_f1 {i : Instr} (h : i.form = .f1) : i.isBcst = false := by
  cases i with
  | subpd | subpdRex => rfl
  | _ => cases h

/-- A memory operand of form 1 is read in full at its effective address (R52). -/
theorem operation_src2_form1 {i : Instr} {s : State} (h : i.form = .f1) (hmem : ¬i.hasRegSource) :
    ∃ a, (i.operation s).src2 = .full a ∧ a.toNat = i.ea s := by
  rw [operation_src2_mem hmem, isBcst_eq_false_of_form_f1 h]
  exact ⟨_, rfl, by rw [Instr.ea, isBcst_eq_false_of_form_f1 h]⟩

/-- With a register source, or an aligned effective address, form 1 has no misaligned operand in memory. -/
theorem operation_aligned {i : Instr} {s : State} (h : i.form = .f1)
    (haligned : i.hasRegSource ∨ i.ea s % 16 = 0) :
    ∀ a, (i.operation s).src2 = .full a → a.toNat % 16 = 0 := by
  intro a ha
  by_cases hreg : i.hasRegSource
  · have hisReg : i.tail.modrm.isReg = true := beq_iff_eq.mpr hreg
    simp [Instr.operation, hisReg] at ha
  · obtain ⟨b, hb, hea⟩ := operation_src2_form1 (s := s) h hreg
    rw [hb] at ha
    cases ha
    rw [hea]
    exact haligned.resolve_left hreg

/-- Form 1 stops in the read of a misaligned memory operand. -/
theorem readSource2_form1_misaligned {i : Instr} {s : State} (h : i.form = .f1)
    (hmem : ¬i.hasRegSource) (hea : i.ea s % 16 ≠ 0) :
    readSource2 (i.operation s) s = .error (.fault (raise .gp s)) := by
  obtain ⟨a, hsrc, ha⟩ := operation_src2_form1 (s := s) h hmem
  exact readSource2_misaligned h hsrc (ha ▸ hea) s

/-- Settles O33: the two instructions are one operation under the two forms. -/
theorem sseAndVexDifferOnlyAsStated : Obligations.SseAndVexDifferOnlyAsStated := by
  intro i1 i2 s hpair
  obtain ⟨hform, hop⟩ : i1.form = .f1 ∧ i2.operation s = (i1.operation s).toForm2 := by
    rcases hpair with ⟨tl, rfl, rfl⟩ | ⟨p, w, tl, rfl, rfl⟩
    · exact ⟨rfl, operation_vsubpdXmmVex2_eq tl s⟩
    · exact ⟨rfl, operation_vsubpdXmmVex3_eq p w tl s⟩
  have hform1 : (i1.operation s).form = .f1 := hform
  have same_read (haligned : i1.hasRegSource ∨ i1.ea s % 16 = 0) :=
    readSource2_toForm2 hform1 (operation_aligned hform haligned) s
  have passes {f} (henabled : enabled f s = true) : enableCheck f s = none :=
    (enableCheck_eq_none_iff f s).mpr henabled
  rw [exec_eq_run, exec_eq_run, hop]
  refine ⟨fun t1 t2 h1 h2 => ?results, fun he1 he2 haligned => ?outcomes,
    fun he1 hspace hmem hea => ?misaligned, fun he2 hgp => ?gp, rfl, rfl⟩
  case results =>
    obtain ⟨_, _, _, src, m, hread1, hdone1, rfl⟩ := run_next h1
    obtain ⟨_, _, _, src', m', hread2, hdone2, rfl⟩ := run_next h2
    have haligned : i1.hasRegSource ∨ i1.ea s % 16 = 0 := by
      by_contra hmis
      obtain ⟨hmem, hea⟩ := not_or.mp hmis
      rw [readSource2_form1_misaligned hform hmem hea] at hread1
      cases hread1
    rw [same_read haligned, hread1] at hread2
    cases hread2
    rw [fpOutcome_toForm2 hform1, hdone1] at hdone2
    cases hdone2
    exact complete_toForm2 hform1 s src m
  case outcomes =>
    exact run_agree rfl ((passes he2).trans (hform1 ▸ passes he1).symm) (same_read haligned)
      (fpOutcome_toForm2 hform1 s)
  case misaligned =>
    simp only [Instr.inSpace, Bool.and_eq_true, bne_iff_ne, decide_eq_true_eq] at hspace
    obtain ⟨hmode, hlen⟩ := hspace
    exact run_of_readSource2_error hmode hlen (hform1 ▸ passes he1)
      (readSource2_form1_misaligned hform hmem hea)
  case gp =>
    obtain ⟨a, n, x, hx, hexn⟩ := readSource2_fault (by simp) (readSource2_of_run_gp (passes he2) hgp)
    exact ⟨a, n, hx.trans (congrArg some (AccessFault.exn_eq_gp (Fault.raised.inj hexn).1.symm))⟩

end Sys2Proof
end

section
/-! SUPPORT. The exceptions that need no operand: #UD found while decoding (30_encoding.md R96 steps 1, 2 and 4;
R184), and #UD and #NM from the features and enables (R181 to R183, R185). -/

namespace Sys2Proof

/-! ## #UD while decoding (R184) -/

/-- LOCK among the legacy prefixes raises #UD whatever stands before and after it (R96 step 1). -/
theorem decode_lock_of_mem {m : Mode} (hm : m ≠ .other) {ps : List Byte}
    (hps : ∀ v ∈ ps, isLegacyPrefix v = true) (hlock : 0xF0#8 ∈ ps) (bs : List Byte) :
    decode m (ps ++ bs) = .ud := by
  have htake : (ps ++ bs).takeWhile isLegacyPrefix = ps ++ bs.takeWhile isLegacyPrefix :=
    List.takeWhile_append_of_pos hps
  simp [decode, hm, htake, hlock]

/-- Without `R` and `X` the first payload byte of EVEX is one that R84 admits in `M32`. -/
theorem Evex.ofBytes_highBits {p0 p1 p2 : Byte} (hr : (Evex.ofBytes p0 p1 p2).r = false)
    (hx : (Evex.ofBytes p0 p1 p2).x = false) : p0.extractLsb' 6 2 = 3 := by
  have bits : ∀ v : Byte, (!v.getLsbD 7) = false → (!v.getLsbD 6) = false → v.extractLsb' 6 2 = 3 := by
    decide
  exact bits p0 hr hx

/-- The decoder reads the bytes of EVEX, the opcode and a tail up to R96 steps 4 and 5, whatever `L'L`, `z` and
`aaa` hold. -/
theorem decode_evexBytes {m : Mode} (hm : m ≠ .other) {p : Evex}
    (hm32 : m = .m32 → p.r = false ∧ p.x = false) {t : Tail} (ht : t.wf = true) (ll : BitVec 2)
    (b : Bool) (rest : List Byte) :
    decode m (p.bytes ll b ++ [0x5C] ++ t.bytes ++ rest) = evexRow m p b ll t := by
  obtain ⟨p0, p1, p2, hp, hfields, ⟨hres, hone, hw⟩, ⟨hmm, hpp⟩, ⟨hb, hl⟩, -⟩ := p.bytes_fields ll b
  have hhigh : m = .m32 → p0.extractLsb' 6 2 = 3 := fun h32 => by
    obtain ⟨hr, hx⟩ := hm32 h32
    rw [← hfields] at hr hx
    exact Evex.ofBytes_highBits hr hx
  have hread : decodeEvex m (p0 :: p1 :: p2 :: 0x5C :: (t.bytes ++ rest)) = evexRow m p b ll t := by
    simp [-BitVec.getLsbD_eq_getElem, decodeEvex, hres, hone, hw, hmm, hpp, hb, hl, hfields,
      parseTail_bytes ht]
  calc decode m (p.bytes ll b ++ [0x5C] ++ t.bytes ++ rest)
    _ = decode m (0x62 :: p0 :: p1 :: p2 :: 0x5C :: (t.bytes ++ rest)) := by rw [hp]; simp
    _ = decodeBody m [] _ := decode_no_prefix hm Escape.evex.not_legacyPrefix _
    _ = decodeVexLike m [] _ decodeEvex := Escape.evex.decodeBody m [] _
    _ = decodeEvex m (p0 :: p1 :: p2 :: 0x5C :: (t.bytes ++ rest)) := decodeVexLike_of_admitted hhigh [] _
    _ = evexRow m p b ll t := hread

/-- `L'L` = 11 without embedded rounding, in every mode (R96 step 4). -/
theorem evexRow_ll_three {b : Bool} {t : Tail} (her : ¬(b = true ∧ t.modrm.mod = 3)) (m : Mode)
    (p : Evex) : evexRow m p b 3 t = .ud := by
  have hrow : (b && t.modrm.isReg) = false := by
    simpa [ModRM.isReg] using her
  simp [evexRow, hrow]

/-- `z` = 1 without a writemask, in every mode (R96 step 4). -/
theorem evexRow_zeroing_unmasked {p : Evex} (hz : p.z = true) (haaa : p.aaa = 0) (m : Mode) (b : Bool)
    (ll : BitVec 2) (t : Tail) : evexRow m p b ll t = .ud := by
  simp [evexRow, Evex.maskOk, hz, haaa]

/-- A step whose bytes decode to #UD raises it with the state as it was. -/
theorem step_of_decode_ud {s : Machine.State} (hfetch : Machine.beforeFetch s = none)
    (hdecode : decode s.mode (Machine.fetchBytes s) = .ud) :
    Machine.step s = .fault (Machine.raise .ud s) := by
  simp only [Machine.step, hfetch, hdecode]

/-- Settles O4: LOCK by `decode_lock_of_mem`, the prefixes before VEX and EVEX by the policy of R72, and the two
combinations of EVEX by what `evexRow` answers before it looks at the mode. -/
theorem invalidEncodingsRaiseUd : Obligations.InvalidEncodingsRaiseUd := by
  refine ⟨fun s => step_of_decode_ud, fun m i rest hwf => ?lock, fun m i v rest hwf hform hv => ?beforeVex,
    fun m p b t rest ht hm hm32 her => ?ll, fun m p ll b t rest ht hm hm32 hz haaa => ?zeroing⟩
  case lock =>
    obtain ⟨-, hm, -⟩ := (wellFormed_iff m i).mp hwf
    exact ⟨decode_lock hm _, fun _ => decode_lock_of_mem (ps := [0x66, 0xF0]) hm (by decide) (by decide) _⟩
  case beforeVex =>
    obtain ⟨-, hmandatory, -, -, hrex⟩ := prefixPolicy m i rest hwf
    have hud (hmand : v = 0x66 ∨ v = 0xF2 ∨ v = 0xF3) := (hmandatory v hmand).2 hform
    rcases hv with h66 | hF2 | hF3 | ⟨h64, hnibble⟩
    · exact hud (.inl h66)
    · exact hud (.inr (.inl hF2))
    · exact hud (.inr (.inr hF3))
    · exact (hrex v h64 hnibble).2 hform
  case ll => exact (decode_evexBytes hm hm32 ht 3 b rest).trans (evexRow_ll_three her m p)
  case zeroing =>
    exact (decode_evexBytes hm hm32 ht ll b rest).trans (evexRow_zeroing_unmasked hz haaa m b ll t)

end Sys2Proof

namespace Sys2Proof.Machine

/-! ## The #UD condition of each form (R181 to R183) -/

/-- Form 1 needs `CR0_EM` = 0, `CR4_OSFXSR` and SSE2 (R181). -/
theorem formUndefined_sse_iff (y : Sys) (h : Features) :
    formUndefined .f1 y h = true ↔ y.cr0Em = true ∨ y.cr4Osfxsr = false ∨ h.hasSse2 = false := by
  simp [formUndefined, or_assoc]

/-- Forms 2 and 3 need `CR4_OSXSAVE`, the state of SSE and AVX enabled, and AVX (R182). -/
theorem formUndefined_vex_iff {f : Form} (hf : f = .f2 ∨ f = .f3) (y : Sys) (h : Features) :
    formUndefined f y h = true ↔
      y.cr4Osxsave = false ∨ y.xcr0Sse = false ∨ y.xcr0Avx = false ∨ h.hasAvx = false := by
  rcases hf with rfl | rfl <;>
    simp only [formUndefined, Bool.not_eq_true', Bool.and_eq_false_iff, or_assoc]

/-- Forms 4 to 6 need the state of AVX-512 enabled too, and AVX512F; only form 6 does without AVX512VL (R183). -/
theorem formUndefined_evex_iff {f : Form} (hf : f = .f4 ∨ f = .f5 ∨ f = .f6) (y : Sys) (h : Features) :
    formUndefined f y h = true ↔
      y.cr4Osxsave = false ∨ y.xcr0Sse = false ∨ y.xcr0Avx = false ∨ y.xcr0Opmask = false ∨
        y.xcr0ZmmHi256 = false ∨ y.xcr0Hi16Zmm = false ∨ h.hasAvx512f = false ∨
        (f ≠ .f6 ∧ h.hasAvx512vl = false) := by
  rcases hf with rfl | rfl | rfl <;> simp [formUndefined, -Bool.and_eq_false_imp, or_assoc]

/-- The #UD condition of a VEX form does not look at `CR0_EM` and `CR4_OSFXSR` (R182). -/
theorem formUndefined_vex_congr {f : Form} (hf : f = .f2 ∨ f = .f3) (y : Sys) (h : Features)
    (em fx : Bool) :
    formUndefined f { y with cr0Em := em, cr4Osfxsr := fx } h = formUndefined f y h := by
  rcases hf with rfl | rfl <;> rfl

/-! ## The checks before the operand (R194 steps 1 to 3) -/

theorem enableCheck_ud {f : Form} {s : State} (h : formUndefined f s.sys s.features = true) :
    enableCheck f s = some .ud := by
  simp [enableCheck, h]

theorem enableCheck_nm {f : Form} {s : State} (h : formUndefined f s.sys s.features = false)
    (hts : s.sys.cr0Ts = true) : enableCheck f s = some .nm := by
  simp [enableCheck, h, hts]

/-- A mode that the model does not run refuses every operation (D2). -/
theorem run_of_mode_other (o : Operation) {s : State} (h : s.mode = .other) :
    o.run s = .refused .modeNotModelled := by
  simp [Operation.run, h]

/-- What the enables answer is raised before anything is read or written. -/
theorem run_of_enableCheck_some {o : Operation} {s : State} {e : Exn} (hmode : s.mode ≠ .other)
    (hspace : s.pc.toNat + o.len < addrSpace s.mode) (hcheck : enableCheck o.form s = some e) :
    o.run s = .fault (raise e s) := by
  simp [Operation.run, hmode, Nat.not_le.mpr hspace, hcheck]

end Sys2Proof.Machine

namespace Sys2Proof

open Machine

theorem Instr.inSpace_iff (i : Instr) (s : State) :
    i.inSpace s = true ↔ s.mode ≠ .other ∧ s.pc.toNat + i.length < addrSpace s.mode := by
  simp [Instr.inSpace]

/-- What the enables answer for an instruction in the address space is raised with the state as it was. -/
theorem exec_of_enableCheck_some {i : Instr} {s : State} {e : Exn} (hspace : i.inSpace s = true)
    (hcheck : enableCheck i.form s = some e) : exec i s = .fault (raise e s) := by
  obtain ⟨hmode, hlen⟩ := (i.inSpace_iff s).mp hspace
  exact (exec_eq_run i s).trans (run_of_enableCheck_some hmode hlen hcheck)

/-- Settles O19: each condition is the form's #UD condition, which the shared procedure raises at once. -/
theorem disabledFormsRaiseUd : Obligations.DisabledFormsRaiseUd := by
  intro i s
  refine ⟨fun hspace hform h => ?sse, fun hspace hform h => ?vex, fun hform em fx => ?notConsulted,
    fun _ hmode => ?mode, fun hspace hform h => ?evex⟩
  case sse =>
    exact exec_of_enableCheck_some hspace
      (enableCheck_ud (hform ▸ (formUndefined_sse_iff s.sys s.features).mpr h))
  case vex =>
    exact exec_of_enableCheck_some hspace (enableCheck_ud ((formUndefined_vex_iff hform _ _).mpr h))
  case notConsulted => simp only [enableCheck, formUndefined_vex_congr hform]
  case mode => exact (exec_eq_run i s).trans (run_of_mode_other _ hmode)
  case evex =>
    exact exec_of_enableCheck_some hspace (enableCheck_ud ((formUndefined_evex_iff hform _ _).mpr h))

/-- Settles O20: the #UD condition of a form does not look at `CR0_TS`, so the check passes on to #NM. -/
theorem taskSwitchedRaisesNm : Obligations.TaskSwitchedRaisesNm := by
  intro i s hspace hts henabled
  have hdefined : formUndefined i.form { s.sys with cr0Ts := false } s.features = false := by
    simpa [enabled_eq] using henabled
  have hsame : formUndefined i.form { s.sys with cr0Ts := false } s.features =
      formUndefined i.form s.sys s.features := by cases i.form <;> rfl
  exact exec_of_enableCheck_some hspace (enableCheck_nm (hsame ▸ hdefined) hts)

end Sys2Proof
end

section
/-! SUPPORT. How an enabled form with a register source ends (60_exceptions.md R190, R191;
70_reset_and_hazards.md R217): past the checks its read cannot stop it, so only the floating-point exceptions
decide between completion and a trap. -/

namespace Sys2Proof.Machine

/-- An unmasked floating-point exception traps when every earlier condition of R194 lets it pass. -/
theorem run_trap {o : Operation} {s : State} {src : SourceRead} {m : BitVec 32}
    (hmode : s.mode ≠ .other) (hspace : s.pc.toNat + o.len < addrSpace s.mode)
    (hcheck : enableCheck o.form s = none) (hread : readSource2 o s = .ok src)
    (htrap : fpOutcome o s src.lane = .trap m) :
    o.run s = .fault (raise (trapExn s) (trapState s src m)) := by
  simp [Operation.run, hmode, Nat.not_le.mpr hspace, hcheck, hread, htrap]

/-- With all six masks set no flag traps, whatever is signalled (R129). -/
theorem trapping_eq_zero_of_masked {m : BitVec 32} (h : mxMasks m = 0x3F) (sig : BitVec 6) :
    trapping m sig = 0 := by
  simp [trapping, h]

/-- Nothing traps with all six masks set (R129), nor with embedded rounding (R130). -/
theorem fpOutcome_done_of_masked_or_er {o : Operation} {s : State}
    (h : mxMasks s.mxcsr = 0x3F ∨ o.er.isSome = true) (src : Nat → Lane) :
    ∃ m, fpOutcome o s src = .done m := by
  cases her : o.er with
  | some rc => exact ⟨s.mxcsr, by simp only [fpOutcome, her]⟩
  | none =>
    have hmasks : mxMasks s.mxcsr = 0x3F := h.resolve_right (by simp [her])
    exact ⟨mxSetFlags s.mxcsr (o.signalled s src), by
      simp [fpOutcome, her, trapping_eq_zero_of_masked hmasks]⟩

end Sys2Proof.Machine

namespace Sys2Proof

open Machine

/-- An enabled instruction with a register source is decided by its floating-point exceptions alone: its read
neither faults nor is refused (R54). -/
theorem exec_regSource {i : Instr} {s : State} (hspace : i.inSpace s = true)
    (henabled : enabled i.form s = true) (hreg : i.hasRegSource) :
    (∀ m, fpOutcome (i.operation s) s (i.second s) = .done m →
      exec i s = .next ((i.operation s).complete s ⟨i.second s, []⟩ m)) ∧
    (∀ m, fpOutcome (i.operation s) s (i.second s) = .trap m →
      exec i s = .fault (raise (trapExn s) (trapState s ⟨i.second s, []⟩ m))) := by
  obtain ⟨hmode, hlen⟩ := (i.inSpace_iff s).mp hspace
  have hcheck := (enableCheck_eq_none_iff i.form s).mpr henabled
  have hread := readSource2_of_events (sourceEvents_of_hasRegSource hreg s)
  exact ⟨fun _ hdone => (exec_eq_run i s).trans (run_complete hmode hlen hcheck hread hdone),
    fun _ htrap => (exec_eq_run i s).trans (run_trap hmode hlen hcheck hread htrap)⟩

/-- Settles O21: the checks pass exactly the enabled forms, and past them a register source leaves only
completion or the trap of R190 and R191, which masks and embedded rounding exclude. -/
theorem enabledFormsCompleteOrTrap : Obligations.EnabledFormsCompleteOrTrap := by
  intro i s hspace
  refine ⟨(enableCheck_eq_none_iff i.form s).symm, fun henabled hreg => ?_⟩
  obtain ⟨completes, traps⟩ := exec_regSource hspace henabled hreg
  refine ⟨?completesOrTraps, fun hnoTrap => ?completes⟩
  case completesOrTraps =>
    cases hfp : fpOutcome (i.operation s) s (i.second s) with
    | done m => exact .inl ⟨_, completes m hfp⟩
    | trap m =>
      have hfault := traps m hfp
      cases hos : s.sys.cr4Osxmmexcpt <;> simp only [trapExn, hos] at hfault
      · exact .inr (.inr ⟨rfl, _, hfault⟩)
      · exact .inr (.inl ⟨rfl, _, hfault⟩)
  case completes =>
    obtain ⟨m, hdone⟩ := fpOutcome_done_of_masked_or_er (o := i.operation s) hnoTrap (i.second s)
    exact ⟨_, completes m hdone⟩

end Sys2Proof
end

section
/-! SUPPORT. What the decoder accepts (30_encoding.md R96): each reader inverted, from the fields it reads
back to the bytes, up to `decode` on any bytes. -/

namespace Sys2Proof

/-! ## Bytes from the fields that were read (R73 to R86) -/

@[simp] theorem ModRM.byte_ofByte (v : Byte) : (ModRM.ofByte v).byte = v := by
  revert v
  decide

@[simp] theorem Sib.byte_ofByte (v : Byte) : (Sib.ofByte v).byte = v := ModRM.byte_ofByte v

theorem Rex.byte_ofByte {v : Byte} (h : v.extractLsb' 4 4 = 4) : (Rex.ofByte v).byte = v := by
  revert v
  decide

theorem Vex2.bytes_ofByte {v : Byte} (hpp : v.extractLsb' 0 2 = 1) :
    (Vex2.ofByte v).bytes (v.getLsbD 2) = [0xC5, v] := by
  revert v
  decide

theorem Vex3.bytes_ofBytes {v1 v2 : Byte} (hmap : v1.extractLsb' 0 5 = 1)
    (hpp : v2.extractLsb' 0 2 = 1) :
    (Vex3.ofBytes v1 v2).bytes (v2.getLsbD 2) = [0xC4, v1, v2] := by
  have byte1 : ∀ v : Byte, v.extractLsb' 0 5 = 1 →
      bit (!!v.getLsbD 7) ++ bit (!!v.getLsbD 6) ++ bit (!!v.getLsbD 5) ++ (1 : BitVec 5) = v := by
    decide
  have byte2 : ∀ v : Byte, v.extractLsb' 0 2 = 1 →
      bit (v.getLsbD 7) ++ ~~~(~~~(v.extractLsb' 3 4)) ++ bit (v.getLsbD 2) ++ (1 : BitVec 2) = v := by
    decide
  simp only [Vex3.bytes, Vex3.ofBytes, byte1 v1 hmap, byte2 v2 hpp]

theorem Evex.bytes_ofBytes {p0 p1 p2 : Byte} (hres : p0.extractLsb' 2 2 = 0)
    (hmm : p0.extractLsb' 0 2 = 1) (hone : p1.getLsbD 2 = true) (hw : p1.getLsbD 7 = true)
    (hpp : p1.extractLsb' 0 2 = 1) :
    (Evex.ofBytes p0 p1 p2).bytes (p2.extractLsb' 5 2) (p2.getLsbD 4) = [0x62, p0, p1, p2] := by
  have byte0 : ∀ v : Byte, v.extractLsb' 2 2 = 0 → v.extractLsb' 0 2 = 1 →
      bit (!!v.getLsbD 7) ++ bit (!!v.getLsbD 6) ++ bit (!!v.getLsbD 5) ++ bit (!!v.getLsbD 4) ++
        (1 : BitVec 4) = v := by decide
  have byte1 : ∀ v : Byte, v.getLsbD 2 = true → v.getLsbD 7 = true → v.extractLsb' 0 2 = 1 →
      (1 : BitVec 1) ++ ~~~(~~~(v.extractLsb' 3 4)) ++ (5 : BitVec 3) = v := by decide
  have byte2 : ∀ v : Byte, bit (v.getLsbD 7) ++ v.extractLsb' 5 2 ++ bit (v.getLsbD 4) ++
      bit (!!v.getLsbD 3) ++ v.extractLsb' 0 3 = v := by decide
  simp only [Evex.bytes, Evex.ofBytes, byte0 p0 hres hmm, byte1 p1 hone hw hpp, byte2 p2]

@[simp] theorem RoundMode.bits_ofBits (v : BitVec 2) : (RoundMode.ofBits v).bits = v := by
  revert v
  decide

/-! ## ModRM, SIB and displacement -/

/-- A displacement that was read has the size asked for, and its bytes stand first (R90). -/
theorem parseDisp_inv {n : Nat} {bs : List Byte} {d : Disp} (hn : n = 0 ∨ n = 1 ∨ n = 4)
    (h : parseDisp n bs = some d) : d.size = n ∧ d.bytes <+: bs := by
  rcases hn with rfl | rfl | rfl
  · cases h
    exact ⟨rfl, List.nil_prefix⟩
  · match bs, h with
    | b0 :: rest, h =>
      cases h
      exact ⟨rfl, rest, rfl⟩
  · match bs, h with
    | b0 :: b1 :: b2 :: b3 :: rest, h =>
      cases h
      have bytes_join : (Disp.d32 (b3 ++ b2 ++ b1 ++ b0)).bytes = [b0, b1, b2, b3] := by
        simp only [Disp.bytes, List.cons.injEq, and_true]
        refine ⟨?_, ?_, ?_, ?_⟩ <;> grind
      exact ⟨rfl, rest, by rw [bytes_join]; rfl⟩

theorem dispSize_cases (m : ModRM) (sib : Option Sib) :
    dispSize m sib = 0 ∨ dispSize m sib = 1 ∨ dispSize m sib = 4 := by
  unfold dispSize
  cases sib <;> (dsimp only; split_ifs <;> simp)

/-- A tail that was read has parts that agree, and its bytes stand first (R85 to R90). -/
theorem parseTail_inv {bs : List Byte} {t : Tail} (h : parseTail bs = some t) :
    t.wf = true ∧ t.bytes <+: bs := by
  unfold parseTail at h
  split at h
  · cases h
  · rename_i mb rest
    dsimp only at h
    split at h
    · rename_i hsib
      split at h
      · cases h
      · rename_i sb rest'
        obtain ⟨d, hd, rfl⟩ := Option.map_eq_some_iff.mp h
        obtain ⟨hsize, hbytes⟩ := parseDisp_inv (dispSize_cases _ _) hd
        refine ⟨(Tail.wf_iff _).mpr ⟨hsib.symm, hsize⟩, ?_⟩
        simpa [Tail.bytes] using hbytes
    · rename_i hsib
      obtain ⟨d, hd, rfl⟩ := Option.map_eq_some_iff.mp h
      obtain ⟨hsize, hbytes⟩ := parseDisp_inv (dispSize_cases _ _) hd
      refine ⟨(Tail.wf_iff _).mpr ⟨(Bool.eq_false_iff.mpr hsib).symm, hsize⟩, ?_⟩
      simpa [Tail.bytes] using hbytes

/-- What a reader of an instruction has to show: the bytes begin with its encoding, and the mode admits it.
-/
def Instr.ReadFrom (i : Instr) (m : Mode) (bs : List Byte) : Prop :=
  i.wellFormed m = true ∧ encode i <+: bs

/-! ## The readers inverted (R96 steps 2 to 5) -/

/-- Form 1 is read behind `66` alone. -/
theorem decodeLegacy_inv {ps bs : List Byte} {rex : Option Rex} {i : Instr}
    (h : decodeLegacy ps rex bs = .instr i) :
    ps = [0x66] ∧ ∃ t rest, bs = 0x5C :: rest ∧ t.wf = true ∧ t.bytes <+: rest ∧
      i = rex.elim (.subpd t) (.subpdRex · t) := by
  unfold decodeLegacy at h
  split at h
  · cases h
  · rename_i op rest
    split_ifs at h with hop hother hps
    split at h
    · cases h
    · rename_i t ht
      obtain ⟨hwf, hbytes⟩ := parseTail_inv ht
      simp only [bne_iff_ne, ne_eq, not_not] at hop hps
      refine ⟨hps, t, rest, by rw [hop], hwf, hbytes, ?_⟩
      cases rex <;> (cases h; rfl)

/-- VEX and EVEX are read only where no legacy prefixes stand before them. -/
theorem decodeVexLike_inv {m : Mode} {ps bs : List Byte} {go : Mode → List Byte → Decoded} {i : Instr}
    (h : decodeVexLike m ps bs go = .instr i) : ps = [] ∧ go m bs = .instr i := by
  unfold decodeVexLike at h
  split at h
  · rename_i d hd
    subst h
    unfold m32PrefixCheck at hd
    split_ifs at hd
    split at hd
    · cases hd
    · split_ifs at hd
      cases hd
  · split at h
    · rename_i d hd
      subst h
      unfold vexPrefixCheck at hd
      split_ifs at hd <;> cases hd
    · rename_i hps
      refine ⟨?_, h⟩
      unfold vexPrefixCheck at hps
      split_ifs at hps with _ hne
      simpa using hne

theorem vexRow_inv {m : Mode} {ok : Bool} {row : Tail → Instr} {bs : List Byte} {i : Instr}
    (h : vexRow m ok row bs = .instr i) :
    ∃ t, t.wf = true ∧ t.bytes <+: bs ∧ (m = .m32 → ok = true) ∧ i = row t := by
  unfold vexRow at h
  split at h
  · cases h
  · rename_i t ht
    obtain ⟨hwf, hbytes⟩ := parseTail_inv ht
    split_ifs at h with hok
    cases h
    exact ⟨t, hwf, hbytes, by simpa using hok, rfl⟩

/-- A row whose tail was read from `rest` is read from all the bytes, when the bytes before its tail are
encoded back to those in front. -/
theorem Instr.ReadFrom.of_tail {m : Mode} (hm : m ≠ .other) {i : Instr} {front rest : List Byte}
    {t : Tail} (htail : i.tail = t) (hwf : t.wf = true) (hrow : i.rowOk = true)
    (hok : m = .m32 → i.m32Ok = true) (hbytes : t.bytes <+: rest)
    (hencode : encode i = front ++ t.bytes) : i.ReadFrom m (front ++ rest) :=
  ⟨(wellFormed_iff m i).mpr ⟨⟨htail ▸ hwf, hrow⟩, hm, hok⟩,
    hencode ▸ (List.prefix_append_right_inj front).mpr hbytes⟩

/-- Two-byte VEX, behind `C5` (R74, R76). -/
theorem decodeVex2_inv {m : Mode} (hm : m ≠ .other) {bs : List Byte} {i : Instr}
    (h : decodeVex2 m bs = .instr i) : i.ReadFrom m (0xC5 :: bs) := by
  unfold decodeVex2 at h
  split at h
  · rename_i v1 op rest
    split at h
    · cases h
    rename_i hfields
    simp only [Bool.or_eq_true, bne_iff_ne, ne_eq, not_or, not_not] at hfields
    obtain ⟨hpp, rfl⟩ := hfields
    obtain ⟨t, hwf, hbytes, hok, rfl⟩ := vexRow_inv h
    have hprefix := Vex2.bytes_ofByte hpp
    cases hl : v1.getLsbD 2 <;> rw [hl] at hprefix <;>
      exact .of_tail (front := [0xC5, v1, 0x5C]) hm rfl hwf rfl hok hbytes
        (congrArg (· ++ [0x5C] ++ t.bytes) hprefix)
  · cases h

/-- Three-byte VEX, behind `C4` (R75, R76). -/
theorem decodeVex3_inv {m : Mode} (hm : m ≠ .other) {bs : List Byte} {i : Instr}
    (h : decodeVex3 m bs = .instr i) : i.ReadFrom m (0xC4 :: bs) := by
  unfold decodeVex3 at h
  split at h
  · rename_i v1 v2 op rest
    split at h
    · cases h
    rename_i hfields
    simp only [Bool.or_eq_true, bne_iff_ne, ne_eq, not_or, not_not] at hfields
    obtain ⟨⟨hmap, hpp⟩, rfl⟩ := hfields
    obtain ⟨t, hwf, hbytes, hok, rfl⟩ := vexRow_inv h
    have hprefix := Vex3.bytes_ofBytes hmap hpp
    cases hl : v2.getLsbD 2 <;> rw [hl] at hprefix <;>
      exact .of_tail (front := [0xC4, v1, v2, 0x5C]) hm rfl hwf rfl hok hbytes
        (congrArg (· ++ [0x5C] ++ t.bytes) hprefix)
  · cases h

/-- The row that `EVEX.b`, `L'L` and `mod` select keeps the fields and the tail, is encoded with that `b`
and `L'L`, and meets its own conditions, when they and the mask raise no #UD (R81, R82). -/
theorem evexInstr_spec {p : Evex} {b : Bool} {ll : BitVec 2} {t : Tail}
    (hll : (ll == 3 && !(b && t.modrm.isReg)) = false) (hmask : p.maskOk = true) :
    (evexInstr p b ll t).tail = t ∧ (evexInstr p b ll t).rowOk = true ∧
      (evexInstr p b ll t).m32Ok = p.m32Ok ∧
      encode (evexInstr p b ll t) = p.bytes ll b ++ [0x5C] ++ t.bytes := by
  by_cases her : b = true ∧ t.modrm.isReg = true
  · obtain ⟨rfl, hreg⟩ := her
    have hrow : evexInstr p true ll t = .vsubpdZmmEvexEr p (RoundMode.ofBits ll) t := by
      simp [evexInstr, hreg]
    rw [hrow]
    exact ⟨rfl, Bool.and_eq_true_iff.mpr ⟨hmask, hreg⟩, rfl, by rw [encode, RoundMode.bits_ofBits]⟩
  · have hnot : (b && t.modrm.isReg) = false := by simpa using her
    have hcases : ll = 0 ∨ ll = 1 ∨ ll = 2 := by
      have not_three : ∀ v : BitVec 2, v ≠ 3 → v = 0 ∨ v = 1 ∨ v = 2 := by decide
      exact not_three ll (by simpa [hnot] using hll)
    cases b with
    | false =>
      rcases hcases with rfl | rfl | rfl <;>
        exact ⟨rfl, hmask, rfl, rfl⟩
    | true =>
      have hmem : t.modrm.isReg = false := by simpa using hnot
      cases hlong : (t.modrm.mod == 2) with
      | true =>
        obtain ⟨hxmm, hymm, hzmm⟩ := evexInstr_bcst_long (p := p) hlong
        rcases hcases with rfl | rfl | rfl <;> simp only [hxmm, hymm, hzmm] <;>
          exact ⟨rfl, Bool.and_eq_true_iff.mpr ⟨hmask, hlong⟩, rfl, rfl⟩
      | false =>
        have hshort : t.isBcstShort = true := by
          have split_mod : ∀ v : BitVec 2, (v == 3) = false → (v == 2) = false →
              (v == 0 || v == 1) = true := by decide
          exact split_mod _ hmem hlong
        obtain ⟨hxmm, hymm, hzmm⟩ := evexInstr_bcst_short (p := p) hshort
        rcases hcases with rfl | rfl | rfl <;> simp only [hxmm, hymm, hzmm] <;>
          exact ⟨rfl, Bool.and_eq_true_iff.mpr ⟨hmask, hshort⟩, rfl, rfl⟩

/-- R96 steps 4 and 5 passed. -/
theorem evexRow_inv {m : Mode} {p : Evex} {b : Bool} {ll : BitVec 2} {t : Tail} {i : Instr}
    (h : evexRow m p b ll t = .instr i) :
    (ll == 3 && !(b && t.modrm.isReg)) = false ∧ p.maskOk = true ∧ (m = .m32 → p.m32Ok = true) ∧
      i = evexInstr p b ll t := by
  unfold evexRow at h
  split_ifs at h with hll hmask hok
  cases h
  exact ⟨Bool.eq_false_iff.mpr hll, by simpa using hmask, by simpa using hok, rfl⟩

/-- EVEX, behind `62` (R78, R79). -/
theorem decodeEvex_inv {m : Mode} (hm : m ≠ .other) {bs : List Byte} {i : Instr}
    (h : decodeEvex m bs = .instr i) : i.ReadFrom m (0x62 :: bs) := by
  unfold decodeEvex at h
  split at h
  · rename_i p0 p1 p2 op rest
    split_ifs at h with hreserved hfields
    simp only [Bool.or_eq_true, bne_iff_ne, ne_eq, Bool.not_eq_true', not_or, not_not,
      Bool.not_eq_false] at hreserved hfields
    obtain ⟨⟨hres, hone⟩, hw⟩ := hreserved
    obtain ⟨⟨hmm, hpp⟩, rfl⟩ := hfields
    split at h
    · cases h
    rename_i t ht
    obtain ⟨hwf, hbytes⟩ := parseTail_inv ht
    obtain ⟨hll, hmask, hok, rfl⟩ := evexRow_inv h
    obtain ⟨htail, hrow, hok32, hencode⟩ := evexInstr_spec hll hmask
    rw [Evex.bytes_ofBytes hres hmm hone hw hpp] at hencode
    exact .of_tail (front := [0x62, p0, p1, p2, 0x5C]) hm htail hwf hrow (fun h32 => hok32 ▸ hok h32)
      hbytes hencode
  · cases h

/-- Every reader behind an escape byte. -/
theorem Escape.inv {e : Byte} {go : Mode → List Byte → Decoded} (he : Escape e go) {m : Mode}
    (hm : m ≠ .other) {bs : List Byte} {i : Instr} (h : go m bs = .instr i) :
    i.ReadFrom m (e :: bs) := by
  cases he with
  | vex2 => exact decodeVex2_inv hm h
  | vex3 => exact decodeVex3_inv hm h
  | evex => exact decodeEvex_inv hm h

/-- After the prefixes an instruction begins with `0F`, with REX and `0F`, or with an escape byte (R96 step
2). -/
theorem decodeBody_cases {m : Mode} {ps bs : List Byte} {i : Instr} (h : decodeBody m ps bs = .instr i) :
    (∃ rest, bs = 0x0F :: rest ∧ decodeLegacy ps none rest = .instr i) ∨
    (∃ v rest, m = .m64 ∧ v.extractLsb' 4 4 = 4 ∧ bs = v :: 0x0F :: rest ∧
      decodeLegacy ps (some (Rex.ofByte v)) rest = .instr i) ∨
    ∃ e go rest, Escape e go ∧ bs = e :: rest ∧ decodeVexLike m ps rest go = .instr i := by
  unfold decodeBody at h
  split at h
  · cases h
  rename_i v rest
  split at h
  · rename_i hrex
    obtain ⟨h64, hnibble⟩ : m = .m64 ∧ v.extractLsb' 4 4 = 4 := by simpa using hrex
    split at h
    · cases h
    rename_i w rest'
    split_ifs at h with h0F
    exact .inr (.inl ⟨v, rest', h64, hnibble, by rw [beq_iff_eq.mp h0F], h⟩)
  · split_ifs at h with h0F hC5 hC4 h62
    · exact .inl ⟨rest, by rw [beq_iff_eq.mp h0F], h⟩
    · exact .inr (.inr ⟨0xC5, _, rest, .vex2, by rw [beq_iff_eq.mp hC5], h⟩)
    · exact .inr (.inr ⟨0xC4, _, rest, .vex3, by rw [beq_iff_eq.mp hC4], h⟩)
    · exact .inr (.inr ⟨0x62, _, rest, .evex, by rw [beq_iff_eq.mp h62], h⟩)

/-- An instruction read after the prefixes `ps` (R96 step 2). -/
theorem decodeBody_inv {m : Mode} (hm : m ≠ .other) {ps bs : List Byte} {i : Instr}
    (h : decodeBody m ps bs = .instr i) : i.ReadFrom m (ps ++ bs) := by
  rcases decodeBody_cases h with ⟨rest, rfl, hread⟩ | ⟨v, rest, rfl, hrex, rfl, hread⟩ |
    ⟨e, go, rest, he, rfl, hread⟩
  · obtain ⟨rfl, t, rest, rfl, hwf, hbytes, rfl⟩ := decodeLegacy_inv hread
    exact .of_tail (front := [0x66, 0x0F, 0x5C]) hm rfl hwf rfl (fun _ => rfl) hbytes rfl
  · obtain ⟨rfl, t, rest, rfl, hwf, hbytes, rfl⟩ := decodeLegacy_inv hread
    exact .of_tail (front := [0x66, v, 0x0F, 0x5C]) hm rfl hwf rfl (fun h32 => by cases h32) hbytes
      (congrArg ([0x66, ·, 0x0F, 0x5C] ++ t.bytes) (Rex.byte_ofByte hrex))
  · obtain ⟨rfl, hgo⟩ := decodeVexLike_inv hread
    exact he.inv hm hgo

/-- What the decoder reads is admitted by the mode, and the bytes begin with its encoding. -/
theorem decode_inv {m : Mode} {bs : List Byte} {i : Instr} (h : decode m bs = .instr i) :
    i.ReadFrom m bs := by
  unfold decode at h
  split at h
  · cases h
  rename_i hm
  dsimp only at h
  split at h
  · cases h
  have hbody := decodeBody_inv (by simpa using hm) h
  rwa [List.takeWhile_append_dropWhile] at hbody

/-- Settles O1: the readers take back the fields of every byte the encoder writes (`decode_encode`). -/
theorem decodeReadsEveryEncoding : Obligations.DecodeReadsEveryEncoding :=
  fun _ _ rest hwf => decode_encode hwf rest

/-- Settles O2: each reader inverted; an encoding is as long as R93 says. -/
theorem decodedBytesAreItsEncoding : Obligations.DecodedBytesAreItsEncoding := by
  intro m bs i h
  obtain ⟨hwf, hprefix⟩ := decode_inv h
  exact ⟨hwf, by rw [← encode_length i, ← List.prefix_iff_eq_take.mp hprefix]⟩

/-- Settles O5: each word by running the decoder. -/
theorem workedEncodingsDecode : Obligations.WorkedEncodingsDecode := by
  unfold Obligations.WorkedEncodingsDecode
  decide

end Sys2Proof
end

section
/-! SUPPORT. The step (20_memory.md R64; 30_encoding.md R96; 70_reset_and_hazards.md R216): what stands
before the fetch, what the fetch delivers, what a completed step leaves, and runs of many steps. -/

namespace Sys2Proof.Machine

/-! ## Before the fetch (R216, U1) -/

theorem beforeFetch_eq_none_iff (s : State) :
    beforeFetch s = none ↔ s.stop ≠ some s.pc ∧ s.mxcsr.extractLsb' 16 16 = 0 := by
  unfold beforeFetch
  split_ifs with hstop hreserved <;> simp_all

/-- A step that fetches an instruction is `exec` of it. -/
theorem step_of_decode {s : State} {i : Instr} (hbefore : beforeFetch s = none)
    (hdecode : decode s.mode (fetchBytes s) = .instr i) : step s = exec i s := by
  simp only [step, hbefore, hdecode]

/-- A step that answers a next state has run the instruction it decoded. -/
theorem step_next {s t : State} (h : step s = .next t) :
    ∃ i, decode s.mode (fetchBytes s) = .instr i ∧ exec i s = .next t := by
  unfold step at h
  split at h
  · cases h
  · split at h
    · rename_i i hdecode
      exact ⟨i, hdecode, h⟩
    · cases h
    · cases h

/-! ## What the fetch delivers (R64) -/

/-- The bytes that stand in memory from `a` on are the first of those read there. -/
theorem Memory.prefix_bytes {m : Memory} {a n : Nat} {vs : List Byte} (hn : vs.length ≤ n)
    (h : ∀ k (hk : k < vs.length), Memory.read m (a + k) = vs[k]) : vs <+: Memory.bytes m a n := by
  rw [List.prefix_iff_eq_take]
  refine List.ext_getElem (by simp [hn]) fun k hk _ => ?_
  simp [Memory.bytes, h k hk]

/-- Bytes just written are read back. -/
theorem Memory.bytes_writeBytes {m : Memory} (h : Memory.wf m = true) (a : Nat) (vs : List Byte) :
    Memory.bytes (Memory.writeBytes m a vs) a vs.length = vs := by
  refine List.ext_getElem (by simp) fun k _ hk => ?_
  simp [Memory.bytes, Memory.read_writeBytes h, hk]

/-- The word placed by `withFetchWord` is what the next step fetches (log 6). -/
theorem fetchBytes_withFetchWord {s : State} (hwf : Memory.wf s.text = true)
    (hpc : s.pc.toNat + fetchLength ≤ 2 ^ 64) (nbits w : Nat) :
    fetchBytes (s.withFetchWord nbits w) = bytesOfWord nbits w := by
  have hlength : (bytesOfWord nbits w).length = fetchLength := by simp [bytesOfWord]
  have hmin : min fetchLength (addrSpace .m64 - s.pc.toNat) = (bytesOfWord nbits w).length := by
    rw [hlength, addrSpace]
    omega
  simp only [fetchBytes, withFetchWord_text, withFetchWord_pc, withFetchWord_mode, hmin]
  exact Memory.bytes_writeBytes hwf _ _

/-- After `withFetchWord` the run is not at its end. -/
theorem beforeFetch_withFetchWord {s : State} (h : s.mxcsr.extractLsb' 16 16 = 0) (nbits w : Nat) :
    beforeFetch (s.withFetchWord nbits w) = none := by
  refine (beforeFetch_eq_none_iff _).mpr ⟨?_, h⟩
  rw [withFetchWord_stop, withFetchWord_pc]
  split_ifs with hstop
  · simp
  · simpa using hstop

/-! ## What a completed step keeps -/

/-- What no step changes or lessens (R36, R61; logs 12, 14). -/
structure KeptByRun (s t : State) : Prop where
  mem : t.mem = s.mem
  text : t.text = s.text
  gpr : t.gpr = s.gpr
  opmask : t.opmask = s.opmask
  sys : t.sys = s.sys
  mode : t.mode = s.mode
  features : t.features = s.features
  faultSuppression : t.faultSuppression = s.faultSuppression
  stop : t.stop = s.stop
  access : t.access = s.access
  devices : t.devices = s.devices
  mxcsr : OnlySetsFlags s.mxcsr t.mxcsr
  reads : s.reads <+: t.reads
  draws : s.draws ≤ t.draws

theorem OnlySetsFlags.trans {m1 m2 m3 : BitVec 32} (h1 : OnlySetsFlags m1 m2)
    (h2 : OnlySetsFlags m2 m3) : OnlySetsFlags m1 m3 :=
  ⟨fun k hk => (h2.control k hk).trans (h1.control k hk), fun k hk => h2.sticky k (h1.sticky k hk),
    h2.ze.trans h1.ze⟩

theorem KeptByRun.refl (s : State) : KeptByRun s s :=
  ⟨rfl, rfl, rfl, rfl, rfl, rfl, rfl, rfl, rfl, rfl, rfl, .refl _, List.prefix_refl _, le_rfl⟩

theorem KeptByRun.trans {s t u : State} (h1 : KeptByRun s t) (h2 : KeptByRun t u) : KeptByRun s u :=
  ⟨h2.mem.trans h1.mem, h2.text.trans h1.text, h2.gpr.trans h1.gpr, h2.opmask.trans h1.opmask,
    h2.sys.trans h1.sys, h2.mode.trans h1.mode, h2.features.trans h1.features,
    h2.faultSuppression.trans h1.faultSuppression, h2.stop.trans h1.stop, h2.access.trans h1.access,
    h2.devices.trans h1.devices, h1.mxcsr.trans h2.mxcsr, h1.reads.trans h2.reads,
    h1.draws.trans h2.draws⟩

theorem keptByRun_complete (o : Operation) {s : State} (src : SourceRead) {m : BitVec 32}
    (h : OnlySetsFlags s.mxcsr m) : KeptByRun s (o.complete s src m) :=
  ⟨rfl, rfl, rfl, rfl, rfl, rfl, rfl, rfl, rfl, rfl, rfl, h, List.prefix_append _ _, by
    rw [complete_draws]
    split_ifs <;> omega⟩

end Sys2Proof.Machine

namespace Sys2Proof

open Machine

/-- What an instruction that completes has done, below the top of the address space. -/
theorem exec_next {i : Instr} {s t : State} (h : exec i s = .next t) :
    s.pc.toNat + i.length < addrSpace s.mode ∧ ∃ src m,
      readSource2 (i.operation s) s = .ok src ∧ fpOutcome (i.operation s) s src.lane = .done m ∧
        t = (i.operation s).complete s src m := by
  obtain ⟨_, hspace, _, src, m, hread, hdone, ht⟩ := run_next ((exec_eq_run i s).symm.trans h)
  exact ⟨hspace, src, m, hread, hdone, ht⟩

/-- An instruction takes 4 to 11 bytes (R93). -/
theorem Instr.length_bounds (i : Instr) : 4 ≤ i.length ∧ i.length ≤ 11 := by
  have hopcode : 3 ≤ i.opcodeEnd ∧ i.opcodeEnd ≤ 5 := by
    unfold Instr.opcodeEnd
    split <;> decide
  have hsum := i.length_eq
  have hle := i.length_le
  omega

/-- The fetch delivers the whole instruction that the program text holds at `pc` (R64, R94). -/
theorem encode_prefix_fetchBytes {s : State} {i : Instr} (hspace : s.pc.toNat + i.length ≤ addrSpace s.mode)
    (htext : ∀ k (h : k < (encode i).length),
      Memory.read s.text (s.pc.toNat + k) = (encode i)[k]) : encode i <+: fetchBytes s := by
  have hlength := encode_length i
  have hle := i.length_bounds.2
  refine Memory.prefix_bytes ?_ htext
  rw [fetchLength]
  omega

/-- Settles O39: nothing stands before the fetch. -/
theorem stepRunsTheDecodedInstruction : Obligations.StepRunsTheDecodedInstruction :=
  fun s _ hstop hreserved => step_of_decode ((beforeFetch_eq_none_iff s).mpr ⟨hstop, hreserved⟩)

/-- Settles O40: the fetched bytes begin with the encoding, which the decoder reads back. -/
theorem stepRunsTheEncodedInstruction : Obligations.StepRunsTheEncodedInstruction := by
  intro s i hstop hreserved hwf hspace htext
  obtain ⟨rest, hfetch⟩ := encode_prefix_fetchBytes hspace htext
  exact step_of_decode ((beforeFetch_eq_none_iff s).mpr ⟨hstop, hreserved⟩)
    (hfetch ▸ decode_encode hwf rest)

/-- A word of the opcode table stands for what the decoder reads from its bytes. -/
theorem decode_of_decodeTableWord {nbits w : Nat} {i : Instr} (h : decodeTableWord nbits w = some i) :
    decode .m64 (bytesOfWord nbits w) = .instr i := by
  unfold decodeTableWord at h
  split at h <;> cases h
  assumption

/-- Settles O41: the bytes placed are those fetched. -/
theorem fetchWordIsRunNext : Obligations.FetchWordIsRunNext := by
  intro s nbits w i hwf hreserved hpc hword
  refine step_of_decode (beforeFetch_withFetchWord hreserved nbits w) ?_
  rw [fetchBytes_withFetchWord hwf hpc, withFetchWord_mode]
  exact decode_of_decodeTableWord hword

/-- Settles O42: the two stops in the order of `beforeFetch`. -/
theorem stepStopsBeforeTheFetch : Obligations.StepStopsBeforeTheFetch := by
  intro s
  refine ⟨fun hstop => ?completed, fun hstop hreserved => ?reserved⟩
  case completed =>
    have hbefore : beforeFetch s = some .runCompleted := by simp [beforeFetch, hstop]
    simp only [step, hbefore]
  case reserved =>
    have hbefore : beforeFetch s = some .mxcsrReserved := by
      simpa [beforeFetch, hstop] using hreserved
    simp only [step, hbefore]

/-! ## Reset (R38) -/

/-- Settles O44: memories and history are empty after reset, MXCSR is `1F80` and `pc` the reset vector. -/
theorem resetIsAMachineState : Obligations.ResetIsAMachineState :=
  ⟨reset_mem_wf, reset_text_wf, by decide, by decide, fun _ he => absurd he List.not_mem_nil⟩

/-- With `SYS` as reset leaves it no form is enabled: SSE state is not supported by the system, nor XCR0 in
use. -/
theorem formUndefined_reset (f : Form) (h : Features) : formUndefined f Sys.reset h = true := by
  cases f with
  | f1 => exact (formUndefined_sse_iff _ h).mpr (.inr (.inl rfl))
  | f2 => exact (formUndefined_vex_iff (.inl rfl) _ h).mpr (.inl rfl)
  | f3 => exact (formUndefined_vex_iff (.inr rfl) _ h).mpr (.inl rfl)
  | f4 => exact (formUndefined_evex_iff (.inl rfl) _ h).mpr (.inl rfl)
  | f5 => exact (formUndefined_evex_iff (.inr (.inl rfl)) _ h).mpr (.inl rfl)
  | f6 => exact (formUndefined_evex_iff (.inr (.inr rfl)) _ h).mpr (.inl rfl)

/-- Settles O43: the values are those of `State.reset` and `afterInit`, and the #UD that of a form not
enabled. -/
theorem resetAndInitValues : Obligations.ResetAndInitValues := by
  refine ⟨fun n => by simp [State.readV, State.reset], fun n => by simp [State.readK, State.reset], rfl,
    rfl, rfl, by decide, fun s => ⟨fun _ => rfl, fun _ => rfl, rfl, rfl, rfl, rfl, rfl⟩,
    fun i s hsys hspace => ?ud⟩
  case ud =>
    have hud : formUndefined i.form s.sys s.features = true := hsys ▸ formUndefined_reset _ _
    exact exec_of_enableCheck_some hspace (enableCheck_ud hud)

/-! ## The invariant and runs -/

/-- Setting flags leaves bits 31:16 of MXCSR as they are (R26). -/
theorem reserved_of_onlySetsFlags {m m' : BitVec 32} (h : OnlySetsFlags m m') :
    m'.extractLsb' 16 16 = m.extractLsb' 16 16 := by
  refine BitVec.eq_of_getLsbD_eq fun k _ => ?_
  simp only [BitVec.getLsbD_extractLsb', h.control (16 + k) (by omega)]

/-- Settles O45: a completed step sets flags, advances `pc` within the address space, and records reads of
the memory it leaves as it was. -/
theorem stepKeepsTheInvariant : Obligations.StepKeepsTheInvariant := by
  rintro s t ⟨hmem, htext, hreserved, _, hreads⟩ hstep
  obtain ⟨i, _, hexec⟩ := step_next hstep
  obtain ⟨hspace, src, m, hread, hdone, rfl⟩ := exec_next hexec
  refine ⟨hmem, htext, ?_, ?_, fun e he => ?events⟩
  · rw [complete_mxcsr, reserved_of_onlySetsFlags (fpOutcome_done_onlySetsFlags hdone), hreserved]
  · rw [complete_mode, toNat_complete_pc src m hspace]
    exact hspace
  case events =>
    rcases List.mem_append.mp he with hold | hnew
    · exact hreads e hold
    · obtain ⟨a, n, rfl, hn⟩ := (readSource2_ok hread).2 e hnew
      exact ⟨rfl, hn⟩

/-- One step keeps what a run keeps, and advances `pc` by the length of its instruction (R30). -/
theorem step_kept {s t : State} (h : step s = .next t) :
    KeptByRun s t ∧ ∃ i : Instr, t.pc.toNat = s.pc.toNat + i.length := by
  obtain ⟨i, _, hexec⟩ := step_next h
  obtain ⟨hspace, src, m, _, hdone, rfl⟩ := exec_next hexec
  exact ⟨keptByRun_complete _ src (fpOutcome_done_onlySetsFlags hdone), i,
    toNat_complete_pc src m hspace⟩

/-- A run keeps what its steps keep, and each takes `pc` 4 to 11 bytes on. -/
theorem run_kept (k : Nat) {s t : State} (h : Host.Core.run core k s = .next t) :
    KeptByRun s t ∧ s.pc.toNat + 4 * k ≤ t.pc.toNat ∧ t.pc.toNat ≤ s.pc.toNat + 11 * k := by
  induction k generalizing s with
  | zero =>
    cases h
    exact ⟨.refl _, by omega, by omega⟩
  | succ k ih =>
    obtain ⟨u, hstep, hrun⟩ := core_run_succ h
    obtain ⟨hkept, i, hpc⟩ := step_kept hstep
    obtain ⟨hrest, hlow, hhigh⟩ := ih hrun
    have hlength := i.length_bounds
    exact ⟨hkept.trans hrest, by omega, by omega⟩

/-- Settles O46, by induction on the number of steps (`run_kept`). -/
theorem runNeverWritesMemory : Obligations.RunNeverWritesMemory := by
  intro k s t hrun
  obtain ⟨hkept, hlow, hhigh⟩ := run_kept k hrun
  exact ⟨fun _ => by rw [hkept.mem], fun _ => by rw [hkept.text], hkept.gpr, hkept.opmask, hkept.sys,
    hkept.mode, hkept.mxcsr.sticky, hkept.mxcsr.control, hkept.mxcsr.ze, hkept.reads, hkept.features,
    hkept.faultSuppression, hkept.stop, hkept.access, hkept.devices, hkept.draws, hlow, hhigh⟩

end Sys2Proof
end

section
/-! SUPPORT. How an instruction ends before its lanes are computed (20_memory.md R50 to R58;
60_exceptions.md R180, R186 to R189): the read of a memory operand as one access or one for each active
lane, the faults it can end in, and the refusals of the address space. -/

namespace Sys2Proof.Machine

/-! ## Lanes of memory (R51) -/

/-- Byte `k` of a lane is the byte `k` addresses above the lane's (R51). -/
theorem extractLsb'_memoryLane (m : Memory) (a : Nat) {k : Nat} (hk : k < 8) :
    (Memory.lane m a).extractLsb' (8 * k) 8 = Memory.read m (a + k) := by
  simp only [Memory.lane]
  interval_cases k <;> simp only [Nat.reduceMul, Nat.add_zero] <;> grind

/-! ## The answers of `MEM_ACCESS` -/

theorem acPossible_iff (y : Sys) (a n : Nat) :
    acPossible y a n = true ↔ y.cr0Am = true ∧ y.eflagsAc = true ∧ y.cpl = 3 ∧ a % n ≠ 0 := by
  simp [acPossible, and_assoc]

/-- Where #AC is possible some answers of `MEM_ACCESS` are #AC. -/
theorem exists_memAccess_ac {y : Sys} {a n : Nat} (h : acPossible y a n = true) :
    ∃ t : AccessMap, memAccess y t a n = some .ac :=
  ⟨[{ sys := y, addr := a, size := n, answer := .ac }], by simp [memAccess, h]⟩

theorem AccessFault.exn_injective {x y : AccessFault} (h : x.exn = y.exn) : x = y := by
  cases x <;> cases y <;> cases h <;> rfl

section
variable {s : State} {a n : Nat}

theorem memRead_of_fault {f : AccessFault} (h : memAccess s.sys s.access a n = some f) :
    memRead s a n = .error (.fault (raise f.exn s)) := by
  simp [memRead, h]

theorem memRead_of_past (h : memAccess s.sys s.access a n = none) (hpast : addrSpace s.mode < a + n) :
    memRead s a n = .error (.refusal .operandPastAddressSpace) := by
  simp [memRead, h, hpast]

theorem memRead_of_device (h : memAccess s.sys s.access a n = none) (hspace : a + n ≤ addrSpace s.mode)
    (hdevice : (s.devices.any fun r => Region.touches r a n) = true) :
    memRead s a n = .error (.refusal .deviceRead) := by
  simp only [memRead, h, Nat.not_lt.mpr hspace, hdevice, if_true, if_false]

/-- A read that `MEM_ACCESS` answers ok is at most refused (logs 18, 19). -/
theorem memRead_refusal {e : Stop} (h : memAccess s.sys s.access a n = none)
    (hread : memRead s a n = .error e) :
    e = .refusal .operandPastAddressSpace ∨ e = .refusal .deviceRead := by
  rcases memRead_cases s a n with ⟨_, hok⟩ | ⟨_, e', herr, ⟨f, hf, _⟩ | ⟨_, _, he⟩ | ⟨_, _, he⟩⟩
  · rw [hok] at hread
    cases hread
  · rw [h] at hf
    cases hf
  · rw [herr] at hread
    cases hread
    exact .inl he
  · rw [herr] at hread
    cases hread
    exact .inr he

/-- The enables answer #UD or #NM (R181 to R185). -/
theorem enableCheck_some {f : Form} {e : Exn} (h : enableCheck f s = some e) : e = .ud ∨ e = .nm := by
  unfold enableCheck at h
  split_ifs at h <;> cases h
  · exact .inl rfl
  · exact .inr rfl

end

/-- Embedded rounding does not trap (R130). -/
theorem er_eq_none_of_trap {o : Operation} {s : State} {src : Nat → Lane} {m : BitVec 32}
    (h : fpOutcome o s src = .trap m) : o.er = none := by
  unfold fpOutcome at h
  split at h
  · cases h
  · assumption

/-- At the top of the address space every operation is refused (R30; log 17). -/
theorem run_of_pastAddressSpace {o : Operation} {s : State} (hmode : s.mode ≠ .other)
    (h : addrSpace s.mode ≤ s.pc.toNat + o.len) : o.run s = .refused .pastAddressSpace := by
  simp [Operation.run, hmode, h]

end Sys2Proof.Machine

namespace Sys2Proof

open Machine

/-! ## The read of a memory operand -/

section
variable {i : Instr} {s : State}

theorem Instr.runnable_iff (i : Instr) (s : State) :
    i.runnable s = true ↔ i.inSpace s = true ∧ enabled i.form s = true := by
  simp [Instr.runnable]

/-- A runnable instruction whose read stops ends as the read does. -/
theorem exec_of_readSource2_error {e : Stop} (hrun : i.runnable s = true)
    (hread : readSource2 (i.operation s) s = .error e) : exec i s = e.outcome := by
  obtain ⟨hspace, henabled⟩ := (i.runnable_iff s).mp hrun
  obtain ⟨hmode, hlen⟩ := (i.inSpace_iff s).mp hspace
  exact (exec_eq_run i s).trans (run_of_readSource2_error hmode hlen
    ((enableCheck_eq_none_iff i.form s).mpr henabled) hread)

/-- Without fault suppression, and for a broadcast that some lane needs, the operand is one read of its
whole width at the effective address (R52, R58). -/
theorem readSource2_whole (hmem : ¬i.hasRegSource) (haligned : ¬(i.form = .f1 ∧ i.ea s % 16 ≠ 0))
    (hwhole : i.suppressed s = false ∨ (i.isBcst = true ∧ i.activeLanes s ≠ [])) :
    readSource2 (i.operation s) s = (memRead s (i.ea s) i.operandWidth).map fun ev =>
      { lane := (i.operation s).sourceLane s, events := [ev] } := by
  have hsup : (s.faultSuppression && (i.operation s).aaa != 0) = i.suppressed s := rfl
  have hact : (i.operation s).activeLanes s = i.activeLanes s := rfl
  cases hb : i.isBcst with
  | true =>
    have hasked : (i.suppressed s && (i.activeLanes s).isEmpty) = false := by
      rcases hwhole with h | ⟨_, h⟩ <;> simp [h]
    simp only [readSource2, operation_src2_mem hmem, hb, if_true, readBcst, hsup, hact, hasked,
      Operation.sourceLane, Instr.operandWidth, Instr.ea, Bool.false_eq_true, if_false]
    cases memRead s _ 8 <;> rfl
  | false =>
    have hfull : i.suppressed s = false := hwhole.resolve_right (by simp [hb])
    have hform : (i.operation s).form = i.form := rfl
    have hal : (i.form == .f1 && i.ea s % 16 != 0) = false := by simpa using haligned
    simp only [Instr.ea, hb] at hal
    simp only [hform, readSource2, operation_src2_mem hmem, hb, if_false, readFull, hsup, hfull, hal,
      Operation.sourceLane, Instr.operandWidth, Instr.ea, Bool.false_eq_true]
    cases memRead s _ (8 * lanesOf i.form) <;> rfl

/-- Under fault suppression a full-width operand is one read of 8 bytes for each active lane (R58). -/
theorem readSource2_lanes (hmem : ¬i.hasRegSource) (hsup : i.suppressed s = true)
    (hb : i.isBcst = false) :
    readSource2 (i.operation s) s =
      (readEach s ((i.activeLanes s).map fun j => i.ea s + 8 * j) 8).map fun evs =>
        { lane := (i.operation s).sourceLane s, events := evs } := by
  have hsup' : (s.faultSuppression && (i.operation s).aaa != 0) = true := hsup
  have hact : (i.operation s).activeLanes s = i.activeLanes s := rfl
  have hform : ((i.operation s).form == .f1) = false := beq_false_of_ne (form_ne_f1_of_suppressed hsup)
  simp only [readSource2, operation_src2_mem hmem, hb, if_false, if_true, readFull, hsup', hact, hform,
    Operation.sourceLane, Instr.ea, Bool.false_eq_true, Bool.false_and]
  cases readEach s _ 8 <;> rfl

/-- The read of an instruction faults by the alignment of form 1, or as `MEM_ACCESS` answers (R55, R56). -/
theorem readSource2_operation_fault {f : Fault} (hmem : ¬i.hasRegSource)
    (h : readSource2 (i.operation s) s = .error (.fault f)) :
    (i.form = .f1 ∧ i.ea s % 16 ≠ 0 ∧ f = raise .gp s) ∨
      ∃ a n x, memAccess s.sys s.access a n = some x ∧ f = raise x.exn s := by
  by_cases hform : i.form = .f1
  · by_cases hea : i.ea s % 16 = 0
    · rw [← readSource2_toForm2 hform (operation_aligned hform (.inr hea))] at h
      exact .inr (readSource2_fault (by simp) h)
    · rw [readSource2_form1_misaligned hform hmem hea] at h
      cases h
      exact .inl ⟨hform, hea, rfl⟩
  · exact .inr (readSource2_fault (o := i.operation s) hform h)

/-- An instruction faults by the #UD or #NM of its enables, by its lanes, or else in the read of a memory
operand (R180, R194). -/
theorem exec_fault {e : Exn} {s' : State} (h : exec i s = .fault (.raised e s')) :
    (e = .ud ∨ e = .nm ∨ (e = .xm ∧ i.er = none)) ∨
      (¬i.hasRegSource ∧ readSource2 (i.operation s) s = .error (.fault (.raised e s'))) := by
  rw [exec_eq_run] at h
  obtain ⟨_, _, ⟨x, hx, hraise⟩ | ⟨_, hread⟩ | ⟨_, src, m, _, htrap, hraise⟩⟩ := run_fault h
  · cases hraise
    exact .inl ((enableCheck_some hx).imp_right .inl)
  · refine .inr ⟨fun hreg => ?_, hread⟩
    rw [readSource2_of_events (sourceEvents_of_hasRegSource hreg s)] at hread
    cases hread
  · cases hraise
    have her : i.er = none := er_eq_none_of_trap htrap
    rcases trapExn_cases s with hxm | ⟨hud, _⟩
    · exact .inl (.inr (.inr ⟨hxm, her⟩))
    · exact .inl (.inl hud)

/-- A fault of an instruction that is none of #UD, #NM and #XM is the #GP of form 1 or an answer of
`MEM_ACCESS`. -/
theorem exec_memory_fault {e : Exn} {s' : State} (h : exec i s = .fault (.raised e s'))
    (hud : e ≠ .ud) (hnm : e ≠ .nm) (hxm : e ≠ .xm) :
    (i.form = .f1 ∧ e = .gp) ∨ ∃ a n x, memAccess s.sys s.access a n = some x ∧ e = x.exn := by
  rcases exec_fault h with (rfl | rfl | ⟨rfl, _⟩) | ⟨hmem, hread⟩
  · exact absurd rfl hud
  · exact absurd rfl hnm
  · exact absurd rfl hxm
  · rcases readSource2_operation_fault hmem hread with ⟨hform, _, hf⟩ | ⟨a, n, x, hx, hf⟩
    · exact .inl ⟨hform, (Fault.raised.inj hf).1⟩
    · exact .inr ⟨a, n, x, hx, (Fault.raised.inj hf).1⟩

/-- Form 1 reads 16 bytes at a multiple of 16, which is aligned (R55, R189). -/
theorem exec_form1_not_ac {s' : State} (hform : i.form = .f1) : exec i s ≠ .fault (.raised .ac s') := by
  intro h
  rcases exec_fault h with (hc | hc | ⟨hc, _⟩) | ⟨hmem, hread⟩
  iterate 3 cases hc
  by_cases hea : i.ea s % 16 = 0
  · have hsup : i.suppressed s = false := by simp [Instr.suppressed, aaa_eq_zero_of_form_f1 hform]
    rw [readSource2_whole hmem (by simp [hea]) (.inl hsup)] at hread
    cases hm : memRead s (i.ea s) i.operandWidth with
    | ok ev => rw [hm] at hread; cases hread
    | error e =>
      rw [hm] at hread
      cases hread
      obtain ⟨x, hx, hraise⟩ := memRead_fault hm
      rw [← AccessFault.exn_injective (x := .ac) (Fault.raised.inj hraise).1] at hx
      have hwidth : i.operandWidth = 16 := by
        simp [Instr.operandWidth, isBcst_eq_false_of_form_f1 hform, hform, lanesOf]
      rw [hwidth] at hx
      obtain ⟨_, _, _, hmis⟩ := (acPossible_iff _ _ _).mp (memAccess_ac hx)
      exact hmis hea
  · rw [readSource2_form1_misaligned hform hmem hea] at hread
    cases hread

end

/-- Settles O13: the lane by its bytes, the event by its definition. -/
theorem littleEndianLanes : Obligations.LittleEndianLanes := by
  intro s a n j k hn hk
  refine ⟨extractLsb'_memoryLane s.mem _ hk, ?_⟩
  simp [readEvent, Memory.bytes, hn, Nat.add_assoc]

/-- Settles O14: an answer #AC needs R189's condition, which form 1 never meets. -/
theorem alignmentCheckOnlyWhenEnabled : Obligations.AlignmentCheckOnlyWhenEnabled := by
  refine ⟨fun y t a n h => (acPossible_iff y a n).mp (memAccess_ac h), fun i s s' h => ?form,
    fun y a n ham hac hcpl hmis =>
      exists_memAccess_ac ((acPossible_iff y a n).mpr ⟨ham, hac, hcpl, hmis⟩)⟩
  case form =>
    rcases exec_memory_fault h (by simp) (by simp) (by simp) with ⟨_, hgp⟩ | ⟨a, n, x, hx, hexn⟩
    · cases hgp
    · rw [← AccessFault.exn_injective (x := .ac) hexn] at hx
      obtain ⟨ham, hac, hcpl, _⟩ := (acPossible_iff _ _ _).mp (memAccess_ac hx)
      exact ⟨fun hform => exec_form1_not_ac hform h, ham, hac, hcpl⟩

/-- Settles O15: form 1 stops in the alignment check of its read, and no other form has one. -/
theorem sseOperandMustBeAligned : Obligations.SseOperandMustBeAligned := by
  refine ⟨fun i s hform hmem hrun hea =>
      exec_of_readSource2_error hrun (readSource2_form1_misaligned hform hmem hea),
    fun i s s' hform h => ?answer⟩
  case answer =>
    rcases exec_memory_fault h (by simp) (by simp) (by simp) with ⟨hf1, _⟩ | ⟨a, n, x, hx, hexn⟩
    · exact absurd hf1 hform
    · exact ⟨a, n, hx.trans (congrArg some (AccessFault.exn_eq_gp hexn.symm))⟩

/-- Settles O16: the operand's read ends in the answer of `MEM_ACCESS`, whether it is one access or one for
each active lane. -/
theorem memoryFaultIsReported : Obligations.MemoryFaultIsReported := by
  intro i s hmem hrun haligned
  refine ⟨fun f hwhole hf => ?whole, fun hsup hb ⟨k, hk, hkf⟩ => ?lanes⟩
  case whole =>
    refine exec_of_readSource2_error (e := .fault _) hrun ?_
    rw [readSource2_whole hmem haligned hwhole, memRead_of_fault hf]
    rfl
  case lanes =>
    have hread := readSource2_lanes hmem hsup hb
    have hplace : i.ea s + 8 * k ∈ (i.activeLanes s).map fun j => i.ea s + 8 * j :=
      List.mem_map_of_mem hk
    rcases readEach_cases s ((i.activeLanes s).map fun j => i.ea s + 8 * j) 8 with
      ⟨hall, _⟩ | ⟨a, ha, f, hf, heach⟩ | ⟨hnone, _⟩
    · exact absurd (memAccess_of_readable (hall _ hplace)) hkf
    · obtain ⟨j, hj, rfl⟩ := List.mem_map.mp ha
      rw [heach] at hread
      exact ⟨j, hj, f, hf, exec_of_readSource2_error (e := .fault _) hrun hread⟩
    · exact absurd (hnone _ hplace) hkf

/-- Settles O17: the refusals of `memRead`, which under fault suppression one lane ends in. -/
theorem unreadableOperandStops : Obligations.UnreadableOperandStops := by
  intro i s hmem hrun haligned
  refine ⟨fun hwhole hok => ⟨fun hpast => ?past, fun hspace hdevice => ?device⟩,
    fun hsup hb hok ⟨k, hk, hkr⟩ => ?lanes⟩
  case past =>
    refine exec_of_readSource2_error (e := .refusal _) hrun ?_
    rw [readSource2_whole hmem haligned hwhole, memRead_of_past hok hpast]
    rfl
  case device =>
    refine exec_of_readSource2_error (e := .refusal _) hrun ?_
    rw [readSource2_whole hmem haligned hwhole, memRead_of_device hok hspace hdevice]
    rfl
  case lanes =>
    have hread := readSource2_lanes hmem hsup hb
    have hplace : i.ea s + 8 * k ∈ (i.activeLanes s).map fun j => i.ea s + 8 * j :=
      List.mem_map_of_mem hk
    rcases readEach_cases s ((i.activeLanes s).map fun j => i.ea s + 8 * j) 8 with
      ⟨hall, _⟩ | ⟨a, ha, f, hf, _⟩ | ⟨_, a, ha, _, e, he, heach⟩
    · rw [hall _ hplace] at hkr
      cases hkr
    · obtain ⟨j, hj, rfl⟩ := List.mem_map.mp ha
      rw [hok j hj] at hf
      cases hf
    · obtain ⟨j, hj, rfl⟩ := List.mem_map.mp ha
      rw [heach] at hread
      have hexec := exec_of_readSource2_error hrun hread
      exact (memRead_refusal (hok j hj) he).imp (fun h => by rw [hexec, h]; rfl)
        (fun h => by rw [hexec, h]; rfl)

/-- Settles O18: the tables are those of the definitions; a fault that is none of #UD, #NM and #XM is one of
a memory operand. -/
theorem exceptionTable : Obligations.ExceptionTable := by
  refine ⟨⟨rfl, rfl, rfl, rfl, fun _ _ => rfl, rfl, rfl⟩,
    ⟨rfl, rfl, rfl, rfl, fun _ _ => rfl, rfl, rfl⟩,
    fun i s s' e h => ⟨fun hreg => ?register, fun her hxm => ?embedded, fun c a hpf => ?pageFault⟩⟩
  case register =>
    rcases exec_fault h with (hud | hnm | ⟨hxm, _⟩) | ⟨hmem, _⟩
    · exact .inl hud
    · exact .inr (.inl hnm)
    · exact .inr (.inr hxm)
    · exact absurd hreg hmem
  case embedded =>
    subst hxm
    rcases exec_fault h with (hc | hc | ⟨_, hnone⟩) | ⟨_, hread⟩
    · cases hc
    · cases hc
    · rw [hnone] at her
      cases her
    · rcases readSource2_error hread with ⟨x, hx, hne, _⟩ | hx | hx <;> cases hx
      exact hne rfl
  case pageFault =>
    subst hpf
    rcases exec_memory_fault h (by simp) (by simp) (by simp) with ⟨_, hgp⟩ | ⟨b, n, x, hx, hexn⟩
    · cases hgp
    · exact ⟨b, n, hx.trans (congrArg some (AccessFault.exn_injective (y := .pf c a) hexn.symm))⟩

/-- Settles O22: the first two checks of the shared procedure. -/
theorem outsideTheSpaceIsRefused : Obligations.OutsideTheSpaceIsRefused :=
  fun i s => ⟨fun hmode => (exec_eq_run i s).trans (run_of_mode_other _ hmode),
    fun hmode hpast => (exec_eq_run i s).trans (run_of_pastAddressSpace hmode hpast)⟩

/-! ## Register numbers (R73, R76, R80) -/

/-- What stands in front of a field counts the power of two above the field. -/
theorem toNat_append_add {v w : Nat} (a : BitVec v) (b : BitVec w) :
    (a ++ b).toNat = a.toNat * 2 ^ w + b.toNat := by
  rw [BitVec.toNat_append, ← Nat.shiftLeft_add_eq_or_of_lt b.isLt, Nat.shiftLeft_eq]

/-- Settles O9: each number is a field behind its extension bits. -/
theorem registerNumbers : Obligations.RegisterNumbers := by
  refine ⟨fun e n => ?_, fun e' e n => ?_, fun v => ?_, fun e v => ?_, toNat_gprNum⟩
  · rw [regNum, toNat_append_add, toNat_append_add, BitVec.toNat_ofBool]
    simp
  · rw [regNum5, toNat_append_add, toNat_append_add, BitVec.toNat_ofBool, BitVec.toNat_ofBool]
    omega
  · rw [vvvvNum, toNat_append_add]
    simp
  · rw [vvvvNum5, toNat_append_add, BitVec.toNat_ofBool]
    omega

end Sys2Proof
end

section
/-! SUPPORT. What an instruction that completes leaves, form by form (41_subpd_sse.md R140; 42_vsubpd_vex.md
R150, R151; 43_vsubpd_evex.md R160 to R168), what its lanes and its outcome depend on (R24, R25, R168), and
the trap of an unmasked exception (60_exceptions.md R190, R191). -/

namespace Sys2Proof

open Machine

/-! ## The forms by their operands -/

/-- A whole memory operand that can be read is one event (R52, R62). -/
theorem sourceEvents_whole {i : Instr} {s : State} {n : Nat} (hmem : ¬i.hasRegSource)
    (haligned : i.form = .f1 → i.ea s % 16 = 0) (hsup : i.suppressed s = false)
    (hn : i.operandWidth = n) (hread : readable s (i.ea s) n = true) :
    i.sourceEvents s = some [readEvent s (i.ea s) n] := by
  have hal : ¬(i.form = .f1 ∧ i.ea s % 16 ≠ 0) := fun ⟨hform, hea⟩ => hea (haligned hform)
  rw [Instr.sourceEvents, if_neg hmem, if_neg hal]
  simp [hsup, hn, hread]

/-- Only the EVEX forms have a writemask, a broadcast or embedded rounding (R81, R82). -/
theorem not_evex_features {i : Instr} (h : i.form = .f1 ∨ i.form = .f2 ∨ i.form = .f3) :
    i.aaa = 0 ∧ i.isBcst = false ∧ i.er = none := by
  cases i with
  | subpd | subpdRex | vsubpdXmmVex2 | vsubpdXmmVex3 | vsubpdYmmVex2 | vsubpdYmmVex3 =>
    exact ⟨rfl, rfl, rfl⟩
  | _ => simp [Instr.form] at h

/-- Embedded rounding takes the place of broadcast (R81). -/
theorem er_eq_none_of_isBcst {i : Instr} (h : i.isBcst = true) : i.er = none := by
  cases i with
  | vsubpdZmmEvexEr => cases h
  | _ => rfl

/-- Form 1 has no broadcast, so a broadcast needs no alignment. -/
theorem form_ne_f1_of_isBcst {i : Instr} (h : i.isBcst = true) : i.form ≠ .f1 := fun hform => by
  rw [isBcst_eq_false_of_form_f1 hform] at h
  cases h

/-- Without a writemask no access is suppressed (R58). -/
theorem not_suppressed_of_aaa {i : Instr} {s : State} (h : i.aaa = 0) : i.suppressed s = false := by
  simp [Instr.suppressed, h]

/-- A form without broadcast reads its vector length (R52). -/
theorem operandWidth_of_not_isBcst {i : Instr} (h : i.isBcst = false) :
    i.operandWidth = 8 * lanesOf i.form := by
  simp [Instr.operandWidth, h]

/-- Settles O23: a register source is read without an event. -/
theorem sseRegisterResult : Obligations.SseRegisterResult := by
  intro i s hform hreg hrun hquiet
  obtain ⟨_, _, her⟩ := not_evex_features (.inl hform)
  exact completesNormally_of_sourceEvents her hrun hquiet (sourceEvents_of_hasRegSource hreg s)

/-- Settles O24: the 16 bytes are read whole. -/
theorem sseMemoryResult : Obligations.SseMemoryResult := by
  intro i s hform hmem hrun haligned hread hquiet
  obtain ⟨haaa, hb, her⟩ := not_evex_features (.inl hform)
  have hwidth : i.operandWidth = 16 := by rw [operandWidth_of_not_isBcst hb, hform, lanesOf]
  exact completesNormally_of_sourceEvents her hrun hquiet
    (sourceEvents_whole hmem (fun _ => haligned) (not_suppressed_of_aaa haaa) hwidth hread)

/-- Settles O25: as for form 1, a register source is read without an event. -/
theorem vexRegisterResult : Obligations.VexRegisterResult := by
  intro i s hform hreg hrun hquiet
  obtain ⟨_, _, her⟩ := not_evex_features (.inr hform)
  exact completesNormally_of_sourceEvents her hrun hquiet (sourceEvents_of_hasRegSource hreg s)

/-- Settles O26: the vector length is read whole, and alignment is asked of form 1 alone. -/
theorem vexMemoryResult : Obligations.VexMemoryResult := by
  intro i s hform hmem hrun hread hquiet
  obtain ⟨haaa, hb, her⟩ := not_evex_features (.inr hform)
  have hwidth : i.operandWidth = if i.form = .f2 then 16 else 32 := by
    rw [operandWidth_of_not_isBcst hb]
    rcases hform with h | h <;> simp [h, lanesOf]
  have hne : i.form ≠ .f1 := by rcases hform with h | h <;> simp [h]
  exact completesNormally_of_sourceEvents her hrun hquiet
    (sourceEvents_whole hmem (absurd · hne) (not_suppressed_of_aaa haaa) hwidth hread)

/-- Settles O27: a register source is read without an event; `destLane` has the writemask. -/
theorem evexRegisterResult : Obligations.EvexRegisterResult := by
  intro i s _ _ her hreg hrun hquiet
  exact completesNormally_of_sourceEvents her hrun hquiet (sourceEvents_of_hasRegSource hreg s)

/-- Settles O28: without fault suppression the vector length is read whole, whatever the mask. -/
theorem evexMemoryResult : Obligations.EvexMemoryResult := by
  intro i s hform hb her hmem hrun hsup hread hquiet
  have hne : i.form ≠ .f1 := by rcases hform with h | h | h <;> simp [h]
  refine completesNormally_of_sourceEvents her hrun hquiet
    (sourceEvents_whole hmem (absurd · hne) hsup ?_ hread)
  rw [operandWidth_of_not_isBcst hb]
  rcases hform with h | h | h <;> simp [h, lanesOf]

/-- Settles O29: without fault suppression a broadcast is one read of 8 bytes, the source of every lane. -/
theorem evexBroadcastResult : Obligations.EvexBroadcastResult := by
  intro i s hb hmem hrun hsup hread hquiet
  have hwidth : i.operandWidth = 8 := by simp [Instr.operandWidth, hb]
  refine ⟨completesNormally_of_sourceEvents (er_eq_none_of_isBcst hb) hrun hquiet
    (sourceEvents_whole hmem (absurd · (form_ne_f1_of_isBcst hb)) hsup hwidth hread), fun j => ?_⟩
  rw [Instr.second, if_neg hmem, if_pos hb]

/-! ## The lanes of the destination -/

/-- The lanes of the destination of any instruction that completes. -/
theorem lane_readV_of_exec {i : Instr} {s t : State} (h : exec i s = .next t) {j : Nat} (hj : j < 8) :
    lane (t.readV i.dstNum) j = i.destLane s ((i.operation s).laneValue s (i.second s)) j := by
  obtain ⟨_, src, m, hread, _, rfl⟩ := exec_next h
  have hsrc : src.lane = i.second s := (readSource2_ok hread).1.trans (funext (operation_sourceLane i s))
  rw [← operation_newLane_eq_destLane, ← lane_newDst _ _ _ j hj, ← hsrc]
  exact congrArg (lane · j) (readV_complete_dst (i.operation s) s src m)

/-- Settles O38: the lanes `destLane` gives above the vector length. -/
theorem upperBitsOfTheDestination : Obligations.UpperBitsOfTheDestination := by
  intro i s t j hexec habove hj
  rw [lane_readV_of_exec hexec hj, Instr.destLane, if_neg (Nat.not_lt.mpr habove)]

/-- With no active lane no flag is set and nothing traps (R129). -/
theorem fpOutcome_of_no_active {o : Operation} {s : State} (h : o.activeLanes s = []) (src : Nat → Lane) :
    fpOutcome o s src = .done s.mxcsr := by
  cases her : o.er with
  | some rc => simp only [fpOutcome, her]
  | none => simp [fpOutcome, her, Operation.signalled, Operation.pre, Operation.post, h, trapping, mxSetFlags]

/-- Settles O32: no lane is active, so none signals and each is merged or zeroed. -/
theorem fullyMaskedFormSignalsNothing : Obligations.FullyMaskedFormSignalsNothing := by
  intro i s hreg hrun haaa hmask
  have hinactive {j} (hj : j < lanesOf i.form) : i.laneActive s j = false := by
    simp only [Instr.laneActive, hmask j hj, Bool.or_false, beq_eq_false_iff_ne]
    exact haaa
  have hnone : (i.operation s).activeLanes s = [] := by
    refine List.filter_eq_nil_iff.mpr fun j hj => ?_
    have hoff : (i.operation s).active s j = false := hinactive (List.mem_range.mp hj)
    simp [hoff]
  have hform : i.form ≠ .f1 := fun hf1 => haaa (aaa_eq_zero_of_form_f1 hf1)
  obtain ⟨hspace, henabled⟩ := (i.runnable_iff s).mp hrun
  have hexec := (exec_regSource hspace henabled hreg).1 _ (fpOutcome_of_no_active hnone _)
  refine ⟨_, hexec, rfl, fun j hj => ?_⟩
  rw [lane_readV_of_exec hexec hj, Instr.destLane]
  by_cases hlane : j < lanesOf i.form
  · cases hz : i.zeroing <;> simp [hlane, hinactive hlane]
  · simp [hlane, hform]

/-- R168: an active lane's value is a function of its two source lanes, the MXCSR control fields, and with
embedded rounding of the draw. -/
theorem laneValue_congr {i : Instr} {s1 s2 : State} {j : Nat}
    (hdaz : mxDaz s1.mxcsr = mxDaz s2.mxcsr) (hftz : mxFtz s1.mxcsr = mxFtz s2.mxcsr)
    (hrc : mxRc s1.mxcsr = mxRc s2.mxcsr) (hum : mxUm s1.mxcsr = mxUm s2.mxcsr)
    (hdraws : i.er.isSome = true → s1.draws = s2.draws)
    (hsrc1 : lane (s1.readV i.src1Num) j = lane (s2.readV i.src1Num) j)
    (hsrc2 : i.second s1 j = i.second s2 j) :
    (i.operation s1).laneValue s1 (i.second s1) j = (i.operation s2).laneValue s2 (i.second s2) j := by
  have henv : (i.operation s1).env s1 = (i.operation s2).env s2 := by
    simp only [Operation.env, hdaz, hftz, hrc, hum]
    rfl
  have hlane1 : lane (s1.readV (i.operation s1).src1) j = lane (s2.readV (i.operation s2).src1) j := hsrc1
  have her1 : (i.operation s1).er = i.er := rfl
  have her2 : (i.operation s2).er = i.er := rfl
  simp only [Operation.laneValue, Operation.laneResult, henv, hlane1, hsrc2, her1, her2, hum, hftz]
  cases her : i.er with
  | none => simp
  | some rc => rw [hdraws (by simp [her])]

/-- Settles O34: a lane of the destination is merged, zeroed or the value of `laneValue_congr`. -/
theorem lanesDoNotInteract : Obligations.LanesDoNotInteract := by
  intro i s1 s2 t1 t2 j hj hexec1 hexec2 hdaz hftz hrc hum hdraws hmask hsources hdst
  rw [lane_readV_of_exec hexec1 hj, lane_readV_of_exec hexec2 hj]
  simp only [Instr.destLane, ← hmask, hdst]
  cases hactive : i.laneActive s1 j with
  | false => simp only [Bool.false_eq_true, if_false]
  | true =>
    obtain ⟨hsrc1, hsrc2⟩ := hsources hactive
    rw [laneValue_congr hdaz hftz hrc hum hdraws hsrc1 hsrc2]

end Sys2Proof

namespace Sys2Proof.Machine

/-! ## Opmask bits that no lane looks at (R24, R25) -/

/-- Another value of the opmask registers. -/
def State.withOpmask (s : State) (k : Vector KReg 8) : State := { s with opmask := k }

section
variable (s : State) (k : Vector KReg 8)

@[simp] theorem withOpmask_mode : (s.withOpmask k).mode = s.mode := rfl
@[simp] theorem withOpmask_pc : (s.withOpmask k).pc = s.pc := rfl
@[simp] theorem withOpmask_sys : (s.withOpmask k).sys = s.sys := rfl
@[simp] theorem withOpmask_access : (s.withOpmask k).access = s.access := rfl
@[simp] theorem withOpmask_mem : (s.withOpmask k).mem = s.mem := rfl
@[simp] theorem withOpmask_draws : (s.withOpmask k).draws = s.draws := rfl
@[simp] theorem withOpmask_faultSuppression :
    (s.withOpmask k).faultSuppression = s.faultSuppression := rfl
@[simp] theorem withOpmask_enableCheck (f : Form) :
    enableCheck f (s.withOpmask k) = enableCheck f s := rfl

end

/-- A stop with other opmask registers in the state that it leaves. -/
def Stop.withOpmask (k : Vector KReg 8) : Stop → Stop
  | .fault (.raised e t) => .fault (.raised e (t.withOpmask k))
  | .refusal r => .refusal r

/-- An outcome with other opmask registers in the state that it leaves. -/
def withOpmask (k : Vector KReg 8) : Result → Result
  | .next t => .next (t.withOpmask k)
  | .fault (.raised e t) => .fault (.raised e (t.withOpmask k))
  | .refused r => .refused r

@[simp] theorem withOpmask_outcome (k : Vector KReg 8) (e : Stop) :
    withOpmask k e.outcome = (e.withOpmask k).outcome := by
  cases e with
  | fault f => cases f; rfl
  | refusal r => rfl

section
variable (k : Vector KReg 8) (s : State) (o : Operation)

theorem memRead_withOpmask (a n : Nat) :
    memRead (s.withOpmask k) a n = (memRead s a n).mapError (Stop.withOpmask k) := by
  cases hf : memAccess s.sys s.access a n with
  | some f =>
    rw [memRead_of_fault hf, memRead_of_fault (s := s.withOpmask k) hf]
    rfl
  | none =>
    by_cases hpast : addrSpace s.mode < a + n
    · rw [memRead_of_past hf hpast, memRead_of_past (s := s.withOpmask k) hf hpast]
      rfl
    · have hspace := Nat.not_lt.mp hpast
      by_cases hdevice : (s.devices.any fun r => Region.touches r a n) = true
      · rw [memRead_of_device hf hspace hdevice,
          memRead_of_device (s := s.withOpmask k) hf hspace hdevice]
        rfl
      · have hread : readable s a n = true := by simp [readable, hf, hspace, hdevice]
        rw [memRead_readable hread, memRead_readable (s := s.withOpmask k) hread]
        rfl

theorem stopOf_mapError (g : Stop → Stop) (r : Except Stop ReadEvent) :
    stopOf (r.mapError g) = (stopOf r).map g := by
  cases r <;> rfl

theorem eventOf_mapError (g : Stop → Stop) (r : Except Stop ReadEvent) :
    eventOf (r.mapError g) = eventOf r := by
  cases r <;> rfl

theorem readEach_withOpmask (places : List Nat) (n : Nat) :
    readEach (s.withOpmask k) places n = (readEach s places n).mapError (Stop.withOpmask k) := by
  have hstops : (places.map fun a => memRead (s.withOpmask k) a n).filterMap stopOf =
      ((places.map fun a => memRead s a n).filterMap stopOf).map (Stop.withOpmask k) := by
    simp only [memRead_withOpmask, List.filterMap_map, List.map_filterMap, Function.comp_def,
      stopOf_mapError]
  have hevents : (places.map fun a => memRead (s.withOpmask k) a n).filterMap eventOf =
      (places.map fun a => memRead s a n).filterMap eventOf := by
    simp only [memRead_withOpmask, List.filterMap_map, Function.comp_def, eventOf_mapError]
  simp only [readEach, withOpmask_sys, withOpmask_access, withOpmask_draws, hstops, hevents,
    List.head?_map]
  split
  · rfl
  · cases ((places.map fun a => memRead s a n).filterMap stopOf).head? <;> rfl

variable (hactive : ∀ j, j < lanesOf o.form → o.active (s.withOpmask k) j = o.active s j)
include hactive

theorem activeLanes_withOpmask : o.activeLanes (s.withOpmask k) = o.activeLanes s :=
  List.filter_congr fun j hj => hactive j (List.mem_range.mp hj)

theorem readSource2_withOpmask :
    readSource2 o (s.withOpmask k) = (readSource2 o s).mapError (Stop.withOpmask k) := by
  have hlanes := activeLanes_withOpmask k s o hactive
  cases hsrc : o.src2 with
  | reg n => simp only [readSource2, hsrc]; rfl
  | full ea =>
    simp only [readSource2, hsrc, readFull, hlanes, readEach_withOpmask, memRead_withOpmask,
      withOpmask_mem, withOpmask_faultSuppression]
    split_ifs
    · rfl
    · cases readEach s ((o.activeLanes s).map fun j => ea.toNat + 8 * j) 8 <;> rfl
    · cases memRead s ea.toNat (8 * lanesOf o.form) <;> rfl
  | bcst ea =>
    simp only [readSource2, hsrc, readBcst, hlanes, memRead_withOpmask, withOpmask_mem,
      withOpmask_faultSuppression]
    split_ifs
    · rfl
    · cases memRead s ea.toNat 8 <;> rfl

theorem fpOutcome_withOpmask (src : Nat → Lane) :
    fpOutcome o (s.withOpmask k) src = fpOutcome o s src := by
  have hlanes := activeLanes_withOpmask k s o hactive
  simp only [fpOutcome, Operation.signalled, Operation.pre, Operation.post, hlanes]
  rfl

theorem complete_withOpmask (src : SourceRead) (m : BitVec 32) :
    o.complete (s.withOpmask k) src m = (o.complete s src m).withOpmask k := by
  have hdst : o.newDst (s.withOpmask k) src.lane = o.newDst s src.lane := by
    refine congrArg ofLanes (List.map_congr_left fun j _ => ?_)
    by_cases hj : j < lanesOf o.form
    · simp only [Operation.newLane, if_pos hj, hactive j hj]
      rfl
    · simp only [Operation.newLane, if_neg hj]
      rfl
  simp only [Operation.complete, hdst]
  rfl

/-- An operation ends alike when the mask bits of its lanes are the same. -/
theorem run_withOpmask : o.run (s.withOpmask k) = withOpmask k (o.run s) := by
  simp only [Operation.run, withOpmask_mode, withOpmask_pc, withOpmask_enableCheck,
    readSource2_withOpmask k s o hactive,
    fpOutcome_withOpmask k s o hactive, complete_withOpmask k s o hactive]
  split_ifs
  · rfl
  · rfl
  cases enableCheck o.form s with
  | some e => rfl
  | none =>
    cases readSource2 o s with
    | error e => exact (withOpmask_outcome k e).symm
    | ok src =>
      simp only [Except.mapError]
      cases fpOutcome o s src.lane <;> rfl

end

end Sys2Proof.Machine

namespace Sys2Proof

open Machine

/-- `K[0]` and the bits at and above `KL` are no lane's mask bit (R24, R25). -/
theorem laneActive_congr {i : Instr} {s : State} {k : Vector KReg 8}
    (h : ∀ n : BitVec 3, n ≠ 0 → ∀ j, j < lanesOf i.form →
      (State.readK { s with opmask := k } n).getLsbD j = (s.readK n).getLsbD j) {j : Nat}
    (hj : j < lanesOf i.form) : i.laneActive (s.withOpmask k) j = i.laneActive s j := by
  by_cases haaa : i.aaa = 0
  · simp [Instr.laneActive, haaa]
  · exact congrArg (i.aaa == 0 || ·) (h i.aaa haaa j hj)

/-- Settles O35: no active lane changes, so the shared procedure ends alike (`run_withOpmask`). -/
theorem unusedMaskBitsHaveNoEffect : Obligations.UnusedMaskBitsHaveNoEffect := by
  intro i s k t hsame
  have hexec : exec i (s.withOpmask k) = withOpmask k (exec i s) := by
    rw [exec_eq_run, exec_eq_run]
    exact run_withOpmask k s (i.operation s) fun j hj => laneActive_congr hsame hj
  exact ⟨fun h => hexec.trans (by rw [h]; rfl), fun e h => hexec.trans (by rw [h]; rfl),
    fun r h => hexec.trans (by rw [h]; rfl)⟩

/-! ## Traps (R129, R190, R191) -/

theorem mem_instrActiveLanes (i : Instr) (s : State) (j : Nat) :
    j ∈ i.activeLanes s ↔ j < lanesOf i.form ∧ i.laneActive s j = true := by
  simp [Instr.activeLanes, Instr.lanes]

/-- The flags after a trap: the draw of R129 among the signalled ones. -/
def Instr.trapDraw (i : Instr) (s : State) : BitVec 6 :=
  let sig := (i.operation s).signalled s (i.second s)
  trapFlags (mxFlags s.mxcsr) sig (trapping s.mxcsr sig) (Config.trapFlags s.draws)

section
variable {i : Instr} {s : State}

/-- An active lane that signals an unmasked exception makes some flag trap (R129). -/
theorem trapping_ne_zero (her : i.er = none) (hquiet : i.quiet s = false) :
    trapping s.mxcsr ((i.operation s).signalled s (i.second s)) ≠ 0 := fun h => by
  rw [(trapping_eq_zero_iff her s).mp h] at hquiet
  cases hquiet

/-- A flag that an instruction signals is one of an active lane's (R129). -/
theorem signalled_iff (her : i.er = none) (k : Nat) :
    ((i.operation s).signalled s (i.second s)).getLsbD k = true ↔
      ∃ j ∈ i.activeLanes s, (laneSignals s.mxcsr (i.laneSubOf s j)).getLsbD k = true := by
  rw [getLsbD_signalled]
  simp only [operation_laneResult her, mem_instrActiveLanes, and_assoc]
  rfl

/-- The bounds of R129 on the flags after a trap. -/
theorem trapDraw_spec (her : i.er = none) (hquiet : i.quiet s = false) :
    (∀ k, (i.trapDraw s).getLsbD k = true → (mxFlags s.mxcsr).getLsbD k = true ∨
      ∃ j ∈ i.activeLanes s, (laneSignals s.mxcsr (i.laneSubOf s j)).getLsbD k = true) ∧
    ∃ k, k < 6 ∧ (i.trapDraw s).getLsbD k = true ∧ (mxMasks s.mxcsr).getLsbD k = false ∧
      ∃ j ∈ i.activeLanes s, (laneSignals s.mxcsr (i.laneSubOf s j)).getLsbD k = true := by
  have split_trapping {k}
      (hk : (trapping s.mxcsr ((i.operation s).signalled s (i.second s))).getLsbD k = true) :
      ((i.operation s).signalled s (i.second s)).getLsbD k = true ∧ k < 6 ∧
        (mxMasks s.mxcsr).getLsbD k = false := by
    simpa [trapping, BitVec.getLsbD_not] using hk
  obtain ⟨_, hbound, k, hk, htk⟩ := trapFlags_spec (mxFlags s.mxcsr) _ _ (Config.trapFlags s.draws)
    (trapping_ne_zero her hquiet) fun _ hk => (split_trapping hk).1
  obtain ⟨hsig, hlt, hmask⟩ := split_trapping htk
  exact ⟨fun k hk => (hbound k hk).imp_right (signalled_iff her k).mp,
    k, hlt, hk, hmask, (signalled_iff her k).mp hsig⟩

/-- An unmasked exception of an active lane traps, with the operand's reads recorded (log 14). -/
theorem exec_traps {ev : List ReadEvent} (her : i.er = none) (hrun : i.runnable s = true)
    (hev : i.sourceEvents s = some ev) (hquiet : i.quiet s = false) :
    exec i s = .fault (raise (trapExn s)
      (trapState s ⟨i.second s, ev⟩ (mxSetFlags s.mxcsr (i.trapDraw s)))) := by
  obtain ⟨hspace, henabled⟩ := (i.runnable_iff s).mp hrun
  obtain ⟨hmode, hlen⟩ := (i.inSpace_iff s).mp hspace
  have hop : (i.operation s).er = none := her
  have htrap : fpOutcome (i.operation s) s (i.second s) = .trap (mxSetFlags s.mxcsr (i.trapDraw s)) := by
    simp only [fpOutcome, hop, beq_iff_eq, trapping_ne_zero her hquiet, if_false]
    rfl
  exact (exec_eq_run i s).trans (run_trap hmode hlen ((enableCheck_eq_none_iff i.form s).mpr henabled)
    (readSource2_of_events hev) htrap)

end

/-- No enable of R217 looks at `CR4_OSXMMEXCPT`. -/
theorem runnable_osxmmexcpt (i : Instr) (s : State) (v : Bool) :
    i.runnable { s with sys := { s.sys with cr4Osxmmexcpt := v } } = i.runnable s := by
  have henabled : enabled i.form { s with sys := { s.sys with cr4Osxmmexcpt := v } } = enabled i.form s := by
    cases i.form <;> rfl
  simp only [Instr.runnable, henabled]
  rfl

/-- Settles O36: the trap of `exec_traps` with the flags of `trapDraw_spec`, which do not look at
`CR4_OSXMMEXCPT`; embedded rounding by the table of R180. -/
theorem unmaskedExceptionTraps : Obligations.UnmaskedExceptionTraps := by
  refine ⟨fun i s ev her hrun hev hquiet => ?traps, rfl, fun i s s' her hxm => ?embedded⟩
  case traps =>
    obtain ⟨hbound, k, hk6, hk, hmask, hsig⟩ := trapDraw_spec her hquiet
    have old_flag {k} (hk : k < 6) : (mxFlags s.mxcsr).getLsbD k = s.mxcsr.getLsbD k := by
      simp [mxFlags, hk]
    refine ⟨_, exec_traps her hrun hev hquiet, rfl, fun k hk => ?control, fun k hk hold => ?sticky,
      fun k hk hset => ?bound, ⟨k, hk6, ?trapped, hmask, hsig⟩, fun hev2 => ?otherSetting⟩
    case control =>
      rw [trapState_mxcsr, getLsbD_mxSetFlags, BitVec.getLsbD_of_ge _ _ hk, Bool.or_false]
    case sticky => rw [trapState_mxcsr, getLsbD_mxSetFlags, hold, Bool.true_or]
    case bound =>
      rw [trapState_mxcsr, getLsbD_mxSetFlags, Bool.or_eq_true] at hset
      refine hset.elim .inl fun h => ?_
      rw [← old_flag hk]
      exact hbound k h
    case trapped => rw [trapState_mxcsr, getLsbD_mxSetFlags, hk, Bool.or_true]
    case otherSetting =>
      have hrun2 := (runnable_osxmmexcpt i s (!s.sys.cr4Osxmmexcpt)).trans hrun
      have hexn : trapExn { s with sys := { s.sys with cr4Osxmmexcpt := !s.sys.cr4Osxmmexcpt } } =
          if s.sys.cr4Osxmmexcpt then .ud else .xm := by
        cases h : s.sys.cr4Osxmmexcpt <;> simp [trapExn]
      have hfault := exec_traps her hrun2 hev2 hquiet
      rw [hexn] at hfault
      exact ⟨_, hfault, rfl⟩
  case embedded =>
    obtain ⟨_, _, hregister⟩ := exceptionTable
    obtain ⟨_, hne, _⟩ := hregister i s s' .xm hxm
    exact hne her rfl

end Sys2Proof
end

section
/-! SUPPORT. The properties of `LaneSub` that R131 names and that need no bound on the rounding error
(40_binary64_subtract.md): NaN operands, equal operands, exact normal differences, the flags, and the sign
under exchange of the operands. -/

namespace Sys2Proof.Machine

/-! ## Packed values (R111, R112) -/

/-- A value is packed from its fields. -/
theorem packLane_fields (v : Lane) : packLane (signBit v) (expField v) (fracField v) = v := by
  refine BitVec.eq_of_getLsbD_eq fun k hk => ?_
  simp only [packLane, expField, fracField, signBit, BitVec.ofNat_toNat, BitVec.setWidth_eq,
    BitVec.getLsbD_append, BitVec.getLsbD_extractLsb', BitVec.getLsbD_ofBool]
  by_cases hfrac : k < 52
  · simp [hfrac]
  · by_cases hexp : k - 52 < 11
    · simp [hfrac, hexp, show 52 + (k - 52) = k by omega]
    · simp [show k = 63 by omega]

theorem expField_lt (v : Lane) : expField v < 2 ^ 11 := (v.extractLsb' 52 11).isLt

theorem fracField_lt (v : Lane) : fracField v < 2 ^ 52 := (v.extractLsb' 0 52).isLt

/-- The sign of a packed value is its top bit. -/
theorem packLane_not (s : Bool) (e f : Nat) :
    packLane (!s) e f = packLane s e f ^^^ 0x8000000000000000#64 := by
  have hmask : 0x8000000000000000#64 = BitVec.ofBool true ++ 0#11 ++ 0#52 := by decide
  rw [hmask, packLane, packLane, BitVec.xor_append, BitVec.xor_append, BitVec.xor_zero, BitVec.xor_zero]
  cases s <;> rfl

/-- An infinity is that of its sign. -/
theorem eq_infOf_of_isInf {v : Lane} (h : isInf v = true) : v = infOf (signBit v) := by
  simp only [isInf, Bool.and_eq_true, beq_iff_eq] at h
  obtain ⟨hexp, hfrac⟩ := h
  conv_lhs => rw [← packLane_fields v, hexp, hfrac]
  rfl

theorem magnitude_of_isNormal {v : Lane} (h : isNormal v = true) :
    magnitude v = (2 ^ 52 + fracField v) * 2 ^ (expField v - 1) := by
  simp only [isNormal, Bool.and_eq_true, bne_iff_ne, ne_eq] at h
  obtain ⟨hexp, _⟩ := h
  simp [magnitude, hexp, Nat.shiftLeft_eq]

theorem natAbs_scaledValue (v : Lane) : (scaledValue v).natAbs = magnitude v := by
  unfold scaledValue
  split_ifs <;> omega

theorem scaledValue_ne_zero_of_isNormal {v : Lane} (h : isNormal v = true) : scaledValue v ≠ 0 := by
  intro hz
  have hmag := natAbs_scaledValue v
  rw [hz, magnitude_of_isNormal h] at hmag
  simp at hmag

/-- A value that is not zero has the sign of its sign bit. -/
theorem signBit_of_scaledValue_ne_zero {v : Lane} (h : scaledValue v ≠ 0) :
    signBit v = decide (scaledValue v < 0) := by
  cases hs : signBit v
  · simp [scaledValue, hs]
  · simp only [scaledValue, hs, if_true] at h ⊢
    exact (decide_eq_true (by omega)).symm

/-! ## NaN operands (R114, R115) -/

theorem isSNaN_or_isQNaN_of_isNaN {v : Lane} (h : isNaN v = true) : isSNaN v = true ∨ isQNaN v = true := by
  cases hb : v.getLsbD 51
  · exact .inl (by simp only [isSNaN, h, hb]; rfl)
  · exact .inr (by simp only [isQNaN, h, hb]; rfl)

/-- `quiet` makes a quiet NaN of every NaN. -/
theorem isQNaN_quiet {v : Lane} (h : isNaN v = true) : isQNaN (quiet v) = true := by
  simp only [isNaN, Bool.and_eq_true, beq_iff_eq, bne_iff_ne, ne_eq] at h
  obtain ⟨hexp, _⟩ := h
  have hexp' : expField (quiet v) = 2047 := by
    have hzero : (0x0008000000000000#64).extractLsb' 52 11 = 0 := by decide
    rw [expField, quiet, BitVec.extractLsb'_or, hzero]
    simpa [expField] using hexp
  have hbit : (quiet v).getLsbD 51 = true := by simp [quiet]
  have hfrac : fracField (quiet v) ≠ 0 := fun hz => by
    have hbits := congrArg (·.getLsbD 51) (BitVec.eq_of_toNat_eq (y := 0#52) hz)
    simp [-BitVec.getLsbD_eq_getElem, hbit] at hbits
  simp only [isQNaN, isNaN, hexp', hbit, Bool.and_true, beq_self_eq_true, Bool.true_and, bne_iff_ne]
  exact hfrac

/-! ## Exact normal differences (R121) -/

/-- A normal magnitude is rounded to itself, in every mode. -/
theorem roundExact_of_isNormal (rc : RoundMode) (neg : Bool) {v : Lane} (h : isNormal v = true) :
    roundExact rc neg (magnitude v) =
      { m := 2 ^ 52 + fracField v, e := expField v, inexact := false } := by
  obtain ⟨k, hk⟩ : ∃ k, expField v = k + 1 := by
    refine ⟨expField v - 1, ?_⟩
    simp only [isNormal, Bool.and_eq_true, bne_iff_ne, ne_eq] at h
    omega
  have hfrac := fracField_lt v
  have hmag := magnitude_of_isNormal h
  rw [hk, Nat.add_sub_cancel] at hmag
  have hpow : 0 < 2 ^ k := by positivity
  have hlog : (magnitude v).log2 = k + 52 := by
    have h52 : 2 ^ (k + 52) = 2 ^ 52 * 2 ^ k := by rw [pow_add, mul_comm]
    have h53 : 2 ^ (k + 52 + 1) = 2 ^ 53 * 2 ^ k := by rw [add_assoc, pow_add, mul_comm]
    have hne : magnitude v ≠ 0 := by
      rw [hmag]
      exact (Nat.mul_pos (by omega) hpow).ne'
    rw [Nat.log2_eq_iff hne, hmag, h52, h53]
    exact ⟨Nat.mul_le_mul_right _ (Nat.le_add_right _ _),
      Nat.mul_lt_mul_of_pos_right (by omega) hpow⟩
  have hm : 2 ^ 52 + fracField v ≠ 2 ^ 53 := by omega
  have he : ((k + 52 : Nat) : Int) - 51 = (k + 1 : Nat) := by omega
  rw [hmag] at hlog ⊢
  simp only [roundExact, hlog, Nat.le_add_left, if_true, Nat.add_sub_cancel,
    Nat.mul_div_cancel _ hpow, Nat.mul_mod_left, roundsUp_zero rc neg _ hpow, Bool.false_eq_true, if_false,
    beq_iff_eq, hm, he, hk, bne_self_eq_false]

/-- R121: a nonzero difference that is a normal value is that value, with no exception. -/
theorem roundDifference_of_isNormal (env : FpEnv) (pre : BitVec 6) {v : Lane} (h : isNormal v = true) :
    roundDifference env pre (scaledValue v) = { r := v, pre := pre, post := 0, tiny := false } := by
  have hexp : expField v ≠ 0 ∧ expField v ≠ 2047 := by simpa [isNormal] using h
  have hlt := expField_lt v
  have hne := scaledValue_ne_zero_of_isNormal h
  have hsmall : ¬(2047 : Int) ≤ expField v := by omega
  have hlarge : ¬(expField v : Int) ≤ 0 := by omega
  simp only [roundDifference, natAbs_scaledValue, ← signBit_of_scaledValue_ne_zero hne,
    roundExact_of_isNormal env.rc _ h, hsmall, hlarge, if_false, Nat.add_sub_cancel_left,
    Int.toNat_natCast, packLane_fields, Bool.false_eq_true]

/-! ## Exchange of the operands (R131) -/

/-- The rounding mode that treats `-d` as this one treats `d`. -/
def mirror : RoundMode → RoundMode
  | .rn => .rn
  | .rd => .ru
  | .ru => .rd
  | .rz => .rz

theorem roundExact_mirror (rc : RoundMode) (neg : Bool) (n : Nat) :
    roundExact (mirror rc) (!neg) n = roundExact rc neg n := by
  have hup : ∀ m0 rem unit, roundsUp (mirror rc) (!neg) m0 rem unit = roundsUp rc neg m0 rem unit := by
    intro m0 rem unit
    cases rc <;> cases neg <;> rfl
  simp only [roundExact, hup]

theorem overflowResult_mirror (rc : RoundMode) (neg : Bool) :
    overflowResult (mirror rc) (!neg) = overflowResult rc neg ^^^ 0x8000000000000000#64 := by
  cases rc <;> cases neg <;> decide

/-- Rounding the opposite difference in the mirrored mode flips the sign of the result. -/
theorem roundDifference_mirror (env : FpEnv) (pre pre' : BitVec 6) {d : Int} (hd : d ≠ 0) :
    (roundDifference { env with rc := mirror env.rc } pre' (-d)).r =
      (roundDifference env pre d).r ^^^ 0x8000000000000000#64 := by
  have hneg : decide (-d < 0) = !decide (d < 0) := by
    rw [← decide_not, decide_eq_decide]
    omega
  simp only [roundDifference, hneg, Int.natAbs_neg, roundExact_mirror]
  split_ifs
  · exact overflowResult_mirror _ _
  all_goals exact packLane_not _ _ _

/-- Infinities of unlike signs are each the other with the sign flipped. -/
theorem isInf_unlike {a b : Lane} (ha : isInf a = true) (hb : isInf b = true)
    (hs : signBit a ≠ signBit b) : b = a ^^^ 0x8000000000000000#64 := by
  rw [eq_infOf_of_isInf ha, eq_infOf_of_isInf hb, Bool.eq_not.mpr hs.symm]
  exact packLane_not _ _ _

theorem BothNumbers.symm {a b : Lane} (h : BothNumbers a b) : BothNumbers b a :=
  ⟨h.2.1, h.1, fun ⟨hb, ha, hs⟩ => h.2.2 ⟨ha, hb, hs.symm⟩⟩

end Sys2Proof.Machine

namespace Sys2Proof

open Machine

/-- Settles O48: of a NaN operand either it or what `quiet` makes of it is the result. -/
theorem nanOperandsGiveQuietNaN : Obligations.NaNOperandsGiveQuietNaN := by
  intro env a b hnan
  by_cases hsnan : isSNaN a = true ∨ isSNaN b = true
  · rw [laneSub_of_isSNaN env hsnan]
    refine ⟨?_, iff_of_true rfl hsnan⟩
    dsimp only
    split_ifs with ha
    · exact isQNaN_quiet ha
    · exact isQNaN_quiet (hnan.resolve_left ha)
  · obtain ⟨hsa, hsb⟩ := not_or.mp hsnan
    have zero_ne_ie : (0 : BitVec 6) ≠ flagIE := by decide
    cases ha : isNaN a with
    | true =>
      have hqa := (isSNaN_or_isQNaN_of_isNaN ha).resolve_left hsa
      rw [laneSub_of_isQNaN_left env hqa (Bool.eq_false_iff.mpr hsb)]
      exact ⟨hqa, iff_of_false zero_ne_ie hsnan⟩
    | false =>
      have hb : isNaN b = true := hnan.resolve_left (by simp [ha])
      have hqb := (isSNaN_or_isQNaN_of_isNaN hb).resolve_left hsb
      rw [laneSub_of_isQNaN_right env ha hqb]
      exact ⟨hqb, iff_of_false zero_ne_ie hsnan⟩

/-- Settles O49: a case of the zero differences of R120. -/
theorem selfDifferenceIsZero : Obligations.SelfDifferenceIsZero := by
  intro env a ha
  obtain ⟨_, _, hr⟩ := exactZeroDifference env a a ha ha (sub_self _)
  rw [hr, if_pos rfl]

/-- Settles O50: without denormals the exact difference is that of the operands, and a normal value is
rounded to itself. -/
theorem exactDifferenceIsExact : Obligations.ExactDifferenceIsExact := by
  intro env a b v ha hb hda hdb hv hdiff
  have hd : exactDifference env.daz a b = scaledValue v := by
    simp [exactDifference, hda, hdb, hdiff]
  have hpre : denormalPre env.daz a b = 0 := by simp [denormalPre, hda, hdb]
  rw [laneSub_of_isFinite env ha hb, hd, if_neg (scaledValue_ne_zero_of_isNormal hv), hpre,
    roundDifference_of_isNormal env 0 hv]

/-- Settles O51: each of the sets a lane can signal is one of a short list. -/
theorem signalledFlagSets : Obligations.SignalledFlagSets := by
  intro env a b
  have pre_sets : ∀ v ∈ [0, flagIE, flagDE], v &&& ~~~(flagIE ||| flagDE) = 0 ∧ v &&& flagZE = 0 := by
    decide
  have post_sets : ∀ v ∈ [0, flagPE, flagOE ||| flagPE, flagUE ||| flagPE],
      v &&& ~~~(flagOE ||| flagUE ||| flagPE) = 0 ∧ v &&& flagZE = 0 ∧
        (v &&& (flagOE ||| flagUE) ≠ 0 → v &&& flagPE ≠ 0) := by decide
  obtain ⟨hpre, hpreZE⟩ := pre_sets _ (laneSub_pre_mem env a b)
  obtain ⟨hpost, hpostZE, hprecision⟩ := post_sets _ (laneSub_post_mem env a b)
  have hZE : ((laneSub env a b).pre ||| (laneSub env a b).post) &&& flagZE =
      (laneSub env a b).pre &&& flagZE ||| (laneSub env a b).post &&& flagZE := by
    ext k
    simp [Bool.and_or_distrib_right]
  exact ⟨hpre, hpost, by rw [hZE, hpreZE, hpostZE]; rfl, hprecision⟩

/-- Settles O52: infinities by their signs, nonzero differences by `roundDifference_mirror`. -/
theorem swappingOperandsNegates : Obligations.SwappingOperandsNegates := by
  intro env a b ha hb hinf hne
  have hnum : BothNumbers a b := ⟨ha, hb, hinf⟩
  change (laneSub { env with rc := mirror env.rc } b a).r = _
  rw [laneSub_of_bothNumbers env hnum, laneSub_of_bothNumbers _ hnum.symm]
  cases hia : isInf a with
  | true =>
    cases hib : isInf b with
    | true =>
      have hs : signBit a ≠ signBit b := fun hs => hinf ⟨hia, hib, hs⟩
      simpa [subtractNumbers, hia, hib, dazOperand_of_isInf] using isInf_unlike hia hib hs
    | false => simp [subtractNumbers, hia, hib, dazOperand_of_isInf]
  | false =>
    cases hib : isInf b with
    | true => simp [subtractNumbers, hia, hib, dazOperand_of_isInf]
    | false =>
      have hvalues := (hne.resolve_left (by simp [hia])).resolve_left (by simp [hib])
      have hd : scaledValue (dazOperand env.daz a) - scaledValue (dazOperand env.daz b) ≠ 0 :=
        sub_ne_zero.mpr hvalues
      have hd' : scaledValue (dazOperand env.daz b) - scaledValue (dazOperand env.daz a) ≠ 0 :=
        sub_ne_zero.mpr hvalues.symm
      simp only [subtractNumbers, isInf_dazOperand, hia, hib, Bool.false_eq_true, if_false, beq_iff_eq, hd,
        hd']
      rw [← neg_sub]
      exact roundDifference_mirror env _ _ hd

end Sys2Proof
end

section
/-! SUPPORT. The rounding error (40_binary64_subtract.md R121, R122; 10_state.md R27): between which finite
values a difference lies, which of them rounding answers, and the four ways `LaneSub` ends on finite
operands. -/

namespace Sys2Proof.Machine

/-! ## Finite magnitudes (R112) -/

/-- A magnitude is a significand of at most 53 bits times a power of two, below `2^2046` when finite. -/
theorem magnitude_eq_mul_pow (v : Lane) :
    ∃ g e, magnitude v = g * 2 ^ e ∧ g < 2 ^ 53 ∧ (isFinite v = true → e ≤ 2045) := by
  have hfrac := fracField_lt v
  have hexp := expField_lt v
  by_cases h : expField v = 0
  · exact ⟨fracField v, 0, by simp [magnitude, h], by omega, fun _ => by omega⟩
  · refine ⟨2 ^ 52 + fracField v, expField v - 1, by simp [magnitude, h, Nat.shiftLeft_eq], by omega,
      fun hfin => ?_⟩
    have hne : expField v ≠ 2047 := by simpa [isFinite] using hfin
    omega

/-- No magnitude lies strictly between two neighbours of 53 significant bits. -/
theorem magnitude_gap (v : Lane) {c k : Nat} (hc : 2 ^ 52 ≤ c) :
    magnitude v ≤ c * 2 ^ k ∨ c * 2 ^ k + 2 ^ k ≤ magnitude v := by
  obtain ⟨g, e, hmag, hg, -⟩ := magnitude_eq_mul_pow v
  rw [hmag, ← Nat.succ_mul]
  rcases lt_or_ge e k with h | h
  · left
    obtain ⟨j, rfl⟩ := Nat.exists_eq_add_of_lt h
    calc g * 2 ^ e ≤ (2 * c) * 2 ^ e := Nat.mul_le_mul_right _ (by omega)
      _ = c * 2 ^ (e + 1) := by ring
      _ ≤ c * 2 ^ (e + j + 1) := Nat.mul_le_mul_left _ (Nat.pow_le_pow_right (by decide) (by omega))
  · obtain ⟨j, rfl⟩ := Nat.exists_eq_add_of_le h
    have hsplit : g * 2 ^ (k + j) = g * 2 ^ j * 2 ^ k := by ring
    rw [hsplit]
    rcases Nat.lt_or_ge c (g * 2 ^ j) with hlt | hle
    · exact .inr (Nat.mul_le_mul_right _ hlt)
    · exact .inl (Nat.mul_le_mul_right _ hle)

/-- The exponent of `MAXF` in units of 2^-1074 (R112). -/
def maxExponent : Nat := 2045

/-- `MAXF` in units of 2^-1074 (R112). -/
def maxMagnitude : Nat := (2 ^ 53 - 1) * 2 ^ maxExponent

theorem maxMagnitude_eq {e : Nat} (h : e = maxExponent) : (2 ^ 53 - 1) * 2 ^ e = maxMagnitude := by
  rw [h, maxMagnitude]

theorem magnitude_le_max {v : Lane} (h : isFinite v = true) : magnitude v ≤ maxMagnitude := by
  obtain ⟨g, e, hmag, hg, he⟩ := magnitude_eq_mul_pow v
  have hexp : e ≤ maxExponent := he h
  rw [hmag, maxMagnitude]
  exact Nat.mul_le_mul (by omega) (Nat.pow_le_pow_right (by decide) hexp)

/-- A packed normal value (R112). -/
theorem packLane_normal (s : Bool) {e m : Nat} (he1 : 1 ≤ e) (he : e ≤ 2046) (hm1 : 2 ^ 52 ≤ m)
    (hm : m < 2 ^ 53) :
    isFinite (packLane s e (m - 2 ^ 52)) = true ∧ fracField (packLane s e (m - 2 ^ 52)) = m - 2 ^ 52 ∧
      magnitude (packLane s e (m - 2 ^ 52)) = m * 2 ^ (e - 1) := by
  have hexp : expField (packLane s e (m - 2 ^ 52)) = e := by
    rw [expField_packLane, Nat.mod_eq_of_lt (by omega)]
  have hfrac : fracField (packLane s e (m - 2 ^ 52)) = m - 2 ^ 52 := by
    rw [fracField_packLane, Nat.mod_eq_of_lt (by omega)]
  have hne0 : e ≠ 0 := by omega
  have hne : e ≠ 2047 := by omega
  refine ⟨by rw [isFinite, hexp]; exact bne_iff_ne.mpr hne, hfrac, ?_⟩
  simp only [magnitude, hexp, hfrac, beq_iff_eq, hne0, if_false, Nat.shiftLeft_eq]
  rw [Nat.add_sub_cancel' hm1]

theorem maxFinite_spec (s : Bool) :
    isFinite (maxFinite s) = true ∧ signBit (maxFinite s) = s ∧ magnitude (maxFinite s) = maxMagnitude := by
  obtain ⟨hfin, -, hmag⟩ := packLane_normal s (e := 2046) (m := 2 ^ 53 - 1) (by decide) (by decide)
    (by decide) (by decide)
  exact ⟨hfin, signBit_packLane _ _ _, hmag.trans (maxMagnitude_eq rfl)⟩

/-! ## Rounding to 53 significant bits (R121) -/

/-- The magnitude `n` rounded to a multiple of `2^k`, in units of `2^k`. -/
def roundedUnits (rc : RoundMode) (neg : Bool) (n k : Nat) : Nat :=
  if roundsUp rc neg (n / 2 ^ k) (n % 2 ^ k) (2 ^ k) then n / 2 ^ k + 1 else n / 2 ^ k

theorem roundedUnits_cases (rc : RoundMode) (neg : Bool) (n k : Nat) :
    (roundsUp rc neg (n / 2 ^ k) (n % 2 ^ k) (2 ^ k) = true ∧ roundedUnits rc neg n k = n / 2 ^ k + 1) ∨
      (roundsUp rc neg (n / 2 ^ k) (n % 2 ^ k) (2 ^ k) = false ∧ roundedUnits rc neg n k = n / 2 ^ k) := by
  unfold roundedUnits
  split_ifs with h
  · exact .inl ⟨h, rfl⟩
  · exact .inr ⟨Bool.eq_false_iff.mpr h, rfl⟩

/-- From `2^52` on the truncated significand has 53 bits. -/
theorem le_truncated {n : Nat} (hn : n ≠ 0) (h : 52 ≤ n.log2) : 2 ^ 52 ≤ n / 2 ^ (n.log2 - 52) := by
  rw [Nat.le_div_iff_mul_le (by positivity), ← pow_add, Nat.add_sub_cancel' h]
  exact Nat.log2_self_le hn

/-- `roundExact` is that rounding, with a significand of 53 bits: of `2^53` units it makes `2^52` of twice
the weight. -/
theorem roundExact_spec (rc : RoundMode) (neg : Bool) {n k : Nat} (hn : n ≠ 0) (hk : n.log2 = k + 52) :
    let x := roundExact rc neg n
    (2 ^ 52 ≤ x.m ∧ x.m < 2 ^ 53) ∧ 1 ≤ x.e ∧
      x.m * 2 ^ (x.e.toNat - 1) = roundedUnits rc neg n k * 2 ^ k ∧
      x.m % 2 = roundedUnits rc neg n k % 2 ∧ (x.inexact = true ↔ n % 2 ^ k ≠ 0) := by
  have hge : 52 ≤ n.log2 := by omega
  have hlow := le_truncated hn hge
  have hhigh := truncated_lt hge
  have hunit : n.log2 - 52 = k := by omega
  rw [hunit] at hlow hhigh
  have hunits := roundedUnits_cases rc neg n k
  have hdef : (if roundsUp rc neg (n / 2 ^ k) (n % 2 ^ k) (2 ^ k) = true then n / 2 ^ k + 1
      else n / 2 ^ k) = roundedUnits rc neg n k := rfl
  simp only [roundExact, hge, if_true, hunit, beq_iff_eq, hdef]
  by_cases hcarry : roundedUnits rc neg n k = 2 ^ 53
  · simp only [hcarry, if_true, bne_iff_ne]
    have hexp : ((n.log2 : Int) - 50).toNat - 1 = k + 1 := by omega
    refine ⟨by decide, by omega, ?_, by decide, trivial⟩
    rw [hexp, pow_succ' 2 k, ← mul_assoc]
    rfl
  · simp only [hcarry, if_false, bne_iff_ne]
    have hexp : ((n.log2 : Int) - 51).toNat - 1 = k := by omega
    exact ⟨by omega, by omega, by rw [hexp], trivial, trivial⟩

/-- `v` is the difference `d` rounded to a multiple of `2^k`, the weight of the last of its 53 significant
bits. -/
structure IsRounding (rc : RoundMode) (d : Int) (k : Nat) (v : Lane) : Prop where
  significand : 2 ^ 52 ≤ d.natAbs / 2 ^ k
  isFinite : isFinite v = true
  sign : signBit v = decide (d < 0)
  magnitude : magnitude v = roundedUnits rc (decide (d < 0)) d.natAbs k * 2 ^ k
  parity : fracField v % 2 = roundedUnits rc (decide (d < 0)) d.natAbs k % 2

/-- The four ways a lane with finite operands ends (R119 to R125): exactly, rounded, overflowed or flushed.
-/
inductive FiniteAnswer (rc : RoundMode) (d : Int) (l : LaneResult) : Prop
  /-- R120, R123: a zero or a denormal difference. -/
  | exact (finite : isFinite l.r = true) (value : scaledValue l.r = d) (post : l.post = 0)
  /-- R121, R125. -/
  | rounded (k : Nat) (rounding : IsRounding rc d k l.r)
      (post : l.post = if d.natAbs % 2 ^ k = 0 then 0 else flagPE)
  /-- R122. -/
  | overflow (result : l.r = overflowResult rc (decide (d < 0))) (beyond : maxMagnitude < d.natAbs)
      (post : l.post = flagOE ||| flagPE)
  /-- R124. -/
  | flushed (post : l.post = flagUE ||| flagPE)

/-- Step 8 to step 11 for a difference that is neither tiny nor overflows. -/
theorem roundDifference_normal (env : FpEnv) (pre : BitVec 6) {d : Int} (h : 2 ^ 52 ≤ d.natAbs)
    (hover : d.natAbs < roundBound env.rc (decide (d < 0)) 2044) :
    ∃ k, IsRounding env.rc d k (roundDifference env pre d).r ∧
      (roundDifference env pre d).post = if d.natAbs % 2 ^ k = 0 then 0 else flagPE := by
  have hn : d.natAbs ≠ 0 := by omega
  obtain ⟨k, hk⟩ : ∃ k, d.natAbs.log2 = k + 52 :=
    ⟨d.natAbs.log2 - 52, (Nat.sub_add_cancel ((Nat.le_log2 hn).mpr h)).symm⟩
  have hsig := le_truncated hn (by omega)
  rw [hk, Nat.add_sub_cancel] at hsig
  obtain ⟨⟨hm1, hm⟩, he1, hmag, hpar, hinexact⟩ := roundExact_spec env.rc (decide (d < 0)) hn hk
  have he2047 : ¬(2047 : Int) ≤ (roundExact env.rc (decide (d < 0)) d.natAbs).e :=
    mt (le_roundExact_e_iff _ _ hn 2044).mp hover.not_ge
  have hpositive : ¬(roundExact env.rc (decide (d < 0)) d.natAbs).e ≤ 0 := by omega
  obtain ⟨hfin, hfrac, hvalue⟩ := packLane_normal (decide (d < 0))
    (e := (roundExact env.rc (decide (d < 0)) d.natAbs).e.toNat) (by omega) (by omega) hm1 hm
  refine ⟨k, ?_⟩
  simp only [roundDifference, he2047, hpositive, if_false, hinexact, ne_eq, ite_not]
  refine ⟨⟨hsig, hfin, signBit_packLane _ _ _, hvalue.trans hmag, ?_⟩, trivial⟩
  rw [hfrac, ← hpar]
  omega

/-- What `LaneSub` answers for finite operands, said once for the properties of rounding. -/
theorem finiteAnswer_laneSub (env : FpEnv) {a b : Lane} (ha : isFinite a = true) (hb : isFinite b = true) :
    FiniteAnswer env.rc (exactDifference env.daz a b) (laneSub env a b) := by
  rw [laneSub_of_isFinite env ha hb]
  generalize exactDifference env.daz a b = d
  by_cases hd : d = 0
  · rw [if_pos hd]
    obtain ⟨s, hs⟩ : ∃ s, exactZero env.rc a b = zeroOf s := by
      unfold exactZero
      split_ifs <;> exact ⟨_, rfl⟩
    refine .exact ?_ ?_ rfl <;> dsimp only <;> rw [hs]
    · exact isFinite_zeroOf s
    · rw [hd]
      cases s <;> rfl
  rw [if_neg hd]
  rcases lt_or_ge d.natAbs (2 ^ 52) with htiny | hnormal
  · obtain ⟨hvalue, hdenormal⟩ := packLane_of_tiny hd htiny
    rw [roundDifference_of_tiny env _ hd htiny]
    split_ifs
    · exact .flushed rfl
    · exact .exact (isFinite_of_isDenormal hdenormal) hvalue rfl
  · rcases lt_or_ge d.natAbs (roundBound env.rc (decide (d < 0)) 2044) with hin | hover
    · obtain ⟨k, hrounding, hpost⟩ := roundDifference_normal env (denormalPre env.daz a b) hnormal hin
      exact .rounded k hrounding hpost
    · rw [roundDifference_of_overflow env _ hd hover]
      have hbeyond := (roundBound_bounds env.rc (decide (d < 0)) 2044).1.trans_le hover
      rw [maxMagnitude_eq (by rfl)] at hbeyond
      exact .overflow rfl hbeyond rfl

/-! ## What a rounded difference is -/

theorem scaledValue_cases (w : Lane) :
    scaledValue w = magnitude w ∨ scaledValue w = -(magnitude w : Int) := by
  unfold scaledValue
  split_ifs <;> simp

/-- Of the finite values `v` is the closest to `d` on the side of a directed mode (R27). -/
def ClosestOnSide (rc : RoundMode) (d : Int) (v : Lane) : Prop :=
  (rc = .rd → scaledValue v ≤ d ∧
    ∀ w : Lane, isFinite w = true → scaledValue w ≤ d → scaledValue w ≤ scaledValue v) ∧
  (rc = .ru → d ≤ scaledValue v ∧
    ∀ w : Lane, isFinite w = true → d ≤ scaledValue w → scaledValue v ≤ scaledValue w) ∧
  (rc = .rz → magnitude v ≤ d.natAbs ∧ (d ≠ 0 → signBit v = decide (d < 0)) ∧
    ∀ w : Lane, isFinite w = true → magnitude w ≤ d.natAbs → magnitude w ≤ magnitude v)

/-- A difference that is a value is the closest one on every side. -/
theorem closestOnSide_of_exact (rc : RoundMode) {d : Int} {v : Lane} (h : scaledValue v = d) :
    ClosestOnSide rc d v := by
  subst h
  rw [ClosestOnSide, natAbs_scaledValue]
  exact ⟨fun _ => ⟨le_rfl, fun _ _ hw => hw⟩, fun _ => ⟨le_rfl, fun _ _ hw => hw⟩,
    fun _ => ⟨le_rfl, signBit_of_scaledValue_ne_zero, fun _ _ hw => hw⟩⟩

section
variable {rc : RoundMode} {d : Int} {k : Nat} {v : Lane}

/-- The neighbours of a magnitude: `A`, the multiple of `U = 2^k` below it, and `A + U`. Rounding answers
one of them, and no other magnitude lies between. -/
theorem IsRounding.neighbours (h : IsRounding rc d k v) :
    ∃ A, d.natAbs = A + d.natAbs % 2 ^ k ∧ d.natAbs % 2 ^ k < 2 ^ k ∧ 2 ^ k ≤ A ∧
      (∀ w, Machine.magnitude w ≤ A ∨ A + 2 ^ k ≤ Machine.magnitude w) ∧
      ((roundsUp rc (decide (d < 0)) (d.natAbs / 2 ^ k) (d.natAbs % 2 ^ k) (2 ^ k) = true ∧
          Machine.magnitude v = A + 2 ^ k ∧ fracField v % 2 = (d.natAbs / 2 ^ k + 1) % 2) ∨
        (roundsUp rc (decide (d < 0)) (d.natAbs / 2 ^ k) (d.natAbs % 2 ^ k) (2 ^ k) = false ∧
          Machine.magnitude v = A ∧ fracField v % 2 = d.natAbs / 2 ^ k % 2)) := by
  refine ⟨d.natAbs / 2 ^ k * 2 ^ k, (Nat.div_add_mod' _ _).symm, Nat.mod_lt _ (by positivity),
    Nat.le_mul_of_pos_left _ (by have := h.significand; omega), fun w => magnitude_gap w h.significand, ?_⟩
  rw [h.magnitude, h.parity]
  rcases roundedUnits_cases rc (decide (d < 0)) d.natAbs k with ⟨hup, hunits⟩ | ⟨hup, hunits⟩
  · exact .inl ⟨hup, by rw [hunits, Nat.succ_mul], by rw [hunits]⟩
  · exact .inr ⟨hup, by rw [hunits], by rw [hunits]⟩

/-- The value of a rounded difference has its sign. -/
theorem IsRounding.scaledValue_eq (h : IsRounding rc d k v) :
    scaledValue v = if d < 0 then -(Machine.magnitude v : Int) else Machine.magnitude v := by
  simp [scaledValue, h.sign]

/-- Rounding changes a difference exactly when some of its bits are cut off. -/
theorem IsRounding.scaledValue_eq_iff (h : IsRounding rc d k v) :
    scaledValue v = d ↔ d.natAbs % 2 ^ k = 0 := by
  obtain ⟨A, hsplit, hrem, -, -, hcases⟩ := h.neighbours
  rw [h.scaledValue_eq]
  rcases hcases with ⟨hup, hmag, -⟩ | ⟨-, hmag, -⟩
  · have hne : d.natAbs % 2 ^ k ≠ 0 := fun hz => by
      rw [hz, roundsUp_zero _ _ _ (by positivity)] at hup
      cases hup
    split_ifs <;> omega
  · split_ifs <;> omega

/-- R27 RN: the nearer neighbour, and of two the even one. -/
theorem IsRounding.nearest (h : IsRounding .rn d k v) (w : Lane) :
    (scaledValue v - d).natAbs ≤ (scaledValue w - d).natAbs ∧
      ((scaledValue v - d).natAbs = (scaledValue w - d).natAbs → scaledValue w ≠ scaledValue v →
        fracField v % 2 = 0) := by
  obtain ⟨A, hsplit, hrem, hunit, hgap, hcases⟩ := h.neighbours
  have hw := hgap w
  have hvalue := scaledValue_cases w
  simp only [roundsUp, Bool.or_eq_true, Bool.and_eq_true, Bool.or_eq_false_iff, Bool.and_eq_false_iff,
    decide_eq_true_eq, decide_eq_false_iff_not, beq_iff_eq, beq_eq_false_iff_ne] at hcases
  rw [h.scaledValue_eq]
  split_ifs <;> omega

/-- R27 RD, RU, RZ: the neighbour on the side of the mode. -/
theorem IsRounding.closestOnSide (h : IsRounding rc d k v) : ClosestOnSide rc d v := by
  obtain ⟨A, hsplit, hrem, -, hgap, hcases⟩ := h.neighbours
  rw [ClosestOnSide, h.scaledValue_eq]
  refine ⟨?_, ?_, ?_⟩ <;> rintro rfl <;>
    simp only [roundsUp, Bool.and_eq_true, Bool.and_eq_false_iff, Bool.not_eq_true', Bool.not_eq_false',
      decide_eq_true_eq, decide_eq_false_iff_not, bne_iff_ne, bne_eq_false_iff_eq, Bool.false_eq_true,
      false_and, false_or, true_and] at hcases
  · refine ⟨by split_ifs <;> omega, fun w _ hw => ?_⟩
    have hout := hgap w
    have hvalue := scaledValue_cases w
    split_ifs <;> omega
  · refine ⟨by split_ifs <;> omega, fun w _ hw => ?_⟩
    have hout := hgap w
    have hvalue := scaledValue_cases w
    split_ifs <;> omega
  · refine ⟨by omega, fun _ => h.sign, fun w _ hw => ?_⟩
    have hout := hgap w
    omega

end

/-! ## What an overflowed difference is (R122) -/

/-- An overflow answers an infinity, or in a directed mode `MAXF` on the side the mode rounds to. -/
theorem overflowResult_cases (rc : RoundMode) (neg : Bool) :
    isFinite (overflowResult rc neg) = false ∨
      (overflowResult rc neg = maxFinite neg ∧ rc ≠ .rn ∧ (rc = .rd → neg = false) ∧
        (rc = .ru → neg = true)) := by
  cases rc <;> cases neg <;> simp [overflowResult] <;> decide

/-- `MAXF` is the closest finite value to a difference beyond it. -/
theorem closestOnSide_of_overflow {rc : RoundMode} {d : Int} (hbeyond : maxMagnitude < d.natAbs)
    (hrd : rc = .rd → decide (d < 0) = false) (hru : rc = .ru → decide (d < 0) = true) :
    ClosestOnSide rc d (maxFinite (decide (d < 0))) := by
  obtain ⟨_, hsign, hmag⟩ := maxFinite_spec (decide (d < 0))
  have hbound (w : Lane) (hw : isFinite w = true) := magnitude_le_max hw
  have hvalue : scaledValue (maxFinite (decide (d < 0))) =
      if d < 0 then -(maxMagnitude : Int) else maxMagnitude := by
    simp only [scaledValue, hsign, hmag, decide_eq_true_eq]
  rw [ClosestOnSide, hvalue, hsign, hmag]
  generalize maxMagnitude = M at *
  refine ⟨fun h => ?_, fun h => ?_, fun _ => ⟨hbeyond.le, fun _ => rfl, fun w hw _ => hbound w hw⟩⟩
  · have hpos : ¬d < 0 := of_decide_eq_false (hrd h)
    rw [if_neg hpos]
    refine ⟨by omega, fun w hw _ => ?_⟩
    have hle := hbound w hw
    have hcases := scaledValue_cases w
    omega
  · have hneg : d < 0 := of_decide_eq_true (hru h)
    rw [if_pos hneg]
    refine ⟨by omega, fun w hw _ => ?_⟩
    have hle := hbound w hw
    have hcases := scaledValue_cases w
    omega

end Sys2Proof.Machine

namespace Sys2Proof

open Machine

/-- Settles O53, by how the lane ends: exactly, rounded to a neighbour, or not to a finite value. -/
theorem nearestRoundingIsNearest : Obligations.NearestRoundingIsNearest := by
  intro daz ftz um a b ha hb l d hfin hue w _
  have hanswer : FiniteAnswer .rn d l := finiteAnswer_laneSub ⟨.rn, daz, ftz, um⟩ ha hb
  cases hanswer with
  | exact _ hvalue =>
    refine ⟨by rw [hvalue]; simp, fun heq hne => absurd ?_ hne⟩
    omega
  | rounded k hrounding => exact hrounding.nearest w
  | overflow hr =>
    rw [hr] at hfin
    rcases overflowResult_cases .rn (decide (d < 0)) with hinf | ⟨_, hrn, _⟩
    · rw [hinf] at hfin
      cases hfin
    · exact absurd rfl hrn
  | flushed hpost =>
    rw [hpost] at hue
    exact absurd hue (by decide)

/-- Settles O54, by how the lane ends: each finite answer is the closest on the side of the mode. -/
theorem directedRoundingIsClosest : Obligations.DirectedRoundingIsClosest := by
  intro env a b ha hb l d hfin hue
  have hanswer : FiniteAnswer env.rc d l := finiteAnswer_laneSub env ha hb
  change ClosestOnSide env.rc d l.r
  cases hanswer with
  | exact _ hvalue => exact closestOnSide_of_exact env.rc hvalue
  | rounded k hrounding => exact hrounding.closestOnSide
  | overflow hr hbeyond =>
    rcases overflowResult_cases env.rc (decide (d < 0)) with hinf | ⟨hmax, _, hrd, hru⟩
    · rw [hr, hinf] at hfin
      cases hfin
    · rw [hr, hmax]
      exact closestOnSide_of_overflow hbeyond hrd hru
  | flushed hpost =>
    rw [hpost] at hue
    exact absurd hue (by decide)

/-- Settles O55, by how the lane ends: only a rounded difference has to be compared with its answer. -/
theorem precisionMeansInexact : Obligations.PrecisionMeansInexact := by
  intro env a b ha hb l hue
  have hanswer : FiniteAnswer env.rc (exactDifference env.daz a b) l := finiteAnswer_laneSub env ha hb
  cases hanswer with
  | exact hfin hvalue hpost =>
    rw [hpost]
    exact iff_of_false (absurd BitVec.zero_and) (by simp [hfin, hvalue])
  | rounded k hrounding hpost =>
    rw [hpost, hrounding.scaledValue_eq_iff.ne, hrounding.isFinite]
    split_ifs with hexact
    · simp [hexact]
    · exact iff_of_true (by decide) (.inr hexact)
  | overflow hr hbeyond hpost =>
    refine iff_of_true (by rw [hpost]; decide) ?_
    rcases overflowResult_cases env.rc (decide (exactDifference env.daz a b < 0)) with hinf | ⟨hmax, _⟩
    · exact .inl (hr ▸ hinf)
    · refine .inr fun hvalue => ?_
      obtain ⟨_, _, hmag⟩ := maxFinite_spec (decide (exactDifference env.daz a b < 0))
      rw [← hmax, ← hr, ← natAbs_scaledValue, hvalue] at hmag
      omega
  | flushed hpost =>
    rw [hpost] at hue
    exact absurd hue (by decide)

end Sys2Proof
end
